-- ==== Sys2Proof/Word.lean ====
section
/-! DEFINITION. The two word sizes of the block: a byte of a buffer and a 32-bit register, command word or host
address (R9, R47, R60, R90 of spec/). -/

namespace Sys2Proof

/-- A buffer byte, bits 7 (most significant) down to 0 (R9). -/
abbrev Byte := BitVec 8

/-- A 32-bit register value, command word or host address (R47, R60, R90). -/
abbrev Word := BitVec 32

end Sys2Proof
end

