-- ==== Sys2Proof/Config.lean ====
section
/-! DEFINITION. What an implementation fixes (CAP), the constants of R7 and the free values of the spec. -/

namespace Sys2Proof

/-- The carrier buffer size above its least value: any number that keeps CAP within `32 .. 2^28` (R7, D3). It has no
body, so no proof can use a particular CAP (log 3). -/
opaque Config.capAboveMin : Fin (2 ^ 28 - 32 + 1)

/-- `CAP`, the size in bytes of IN and of OUT (R7): an open parameter with `32 ≤ CAP ≤ 2^28` (D3). -/
def Config.cap : Nat := Config.capAboveMin.val + 32

/-- `IDENT`, the value of the ID register (R7, R22): the ASCII bytes "LSB1", "L" in bits [31:24]. -/
def Config.ident : Word := 0x4C534231#32

/-- `HEADER_BITS` (R7, R8). -/
def Config.headerBits : Nat := 32

/-- `START_BIT`, the first payload position of ENCODE and DECODE (R7, R8). -/
def Config.startBit : Nat := 32

/-- The free values: the n-th byte that the spec calls unspecified (R186, R241; U6, U7). It has no body; State's
counter `draws` says which byte is the next (log 5). -/
opaque Config.freeByte : Nat → Byte

end Sys2Proof
end

