-- ==== Sys2Proof/Syntax.lean ====
section
/-! DEFINITION. The commands of the block: the fields of the one format CMD (R91) and the nine commands (R92). -/

namespace Sys2Proof

/-- SEL: the buffer a read command takes as its carrier `CB` (R93). -/
inductive Sel where
  /-- SEL = 0: the carrier is IN. -/
  | input
  /-- SEL = 1: the carrier is OUT. -/
  | output
  deriving DecidableEq, Repr

/-- The fields of format CMD (R91), as they stand in a 32-bit command word. -/
structure CmdFields where
  /-- Bits [3:0], the operation. -/
  op : BitVec 4
  /-- Bit [4], the source buffer of a read command. -/
  sel : BitVec 1
  /-- Bits [7:5], reserved. -/
  rsv0 : BitVec 3
  /-- Bits [15:8], the bit operand of SETBIT. -/
  val : BitVec 8
  /-- Bits [31:16], reserved. -/
  rsv1 : BitVec 16
  deriving DecidableEq, Repr

/-- The nine commands, one constructor per row of the opcode table (R92, R96). Register operands are implicit (R99). -/
inductive Instr where
  /-- SETBIT (R112) with its 8-bit immediate VAL. -/
  | setbit (val : Byte)
  /-- GETBIT (R113). -/
  | getbit (sel : Sel)
  /-- HDR_ENC (R131). -/
  | hdrEnc
  /-- HDR_DEC (R132). -/
  | hdrDec (sel : Sel)
  /-- PAY_ENC (R151). -/
  | payEnc
  /-- PAY_DEC (R157). -/
  | payDec (sel : Sel)
  /-- COPY (R175). -/
  | copy
  /-- ENCODE (R181). -/
  | encode
  /-- DECODE (R182). -/
  | decode (sel : Sel)
  deriving DecidableEq, Repr

end Sys2Proof
end

