-- ==== Sys2Proof/WellFormed.lean ====
section
/-! DEFINITION. Which field values spell a command (R95, R97): the checks a command word passes, each with the name
of its failure. The operands of `Instr` are typed, so an ill-formed command exists only as fields. -/

namespace Sys2Proof

/-- Why a command word is illegal (R97). The block reports all four alike, as ILLEGAL_CMD (R201). -/
inductive DecodeError where
  /-- A bit of RSV0 or RSV1 is set (R95). -/
  | reservedBits
  /-- OP is 0x0 or 0xA to 0xF. -/
  | illegalOp
  /-- SEL = 1 in a command that does not take SEL (R93). -/
  | selNotTaken
  /-- VAL is not 0 in a command other than SETBIT (R94). -/
  | valNotTaken
  deriving DecidableEq, Repr

/-- RSV0 and RSV1 are zero (R95). -/
def CmdFields.reservedClear (f : CmdFields) : Bool := f.rsv0 == 0#3 && f.rsv1 == 0#16

/-- OP is one of 0x1 to 0x9 (R92). -/
def CmdFields.opLegal (f : CmdFields) : Bool := 1 ≤ f.op.toNat && f.op.toNat ≤ 9

/-- The command takes SEL: GETBIT, HDR_DEC, PAY_DEC or DECODE (R93). -/
def CmdFields.takesSel (f : CmdFields) : Bool := f.op == 2#4 || f.op == 4#4 || f.op == 6#4 || f.op == 9#4

/-- SEL is 0 unless the command takes it (R93, R97). -/
def CmdFields.selLegal (f : CmdFields) : Bool := f.sel == 0#1 || f.takesSel

/-- VAL is 0 unless the command is SETBIT (R94, R97). -/
def CmdFields.valLegal (f : CmdFields) : Bool := f.val == 0#8 || f.op == 1#4

/-- The first check the fields fail, if any. -/
def CmdFields.error? (f : CmdFields) : Option DecodeError :=
  match f.reservedClear, f.opLegal, f.selLegal, f.valLegal with
  | false, _, _, _ => some .reservedBits
  | true, false, _, _ => some .illegalOp
  | true, true, false, _ => some .selNotTaken
  | true, true, true, false => some .valNotTaken
  | true, true, true, true => none

/-- The fields spell a legal command: no check fails (R97). -/
def CmdFields.wf (f : CmdFields) : Bool := f.error?.isNone

end Sys2Proof
end

