-- ==== Sys2Proof/Decode.lean ====
section
/-! DEFINITION. Reading a command word (total, rejecting by name) and writing one (R90 to R98), with the opcode
table's own rows beside them. -/

namespace Sys2Proof

/-- The fields of a command word (R91). -/
def CmdFields.ofWord (w : Word) : CmdFields :=
  { op := w.extractLsb' 0 4, sel := w.extractLsb' 4 1, rsv0 := w.extractLsb' 5 3,
    val := w.extractLsb' 8 8, rsv1 := w.extractLsb' 16 16 }

/-- The command word with these fields (R91): RSV1, VAL, RSV0, SEL, OP from the most significant bit down. -/
def CmdFields.word (f : CmdFields) : Word := f.rsv1 ++ f.val ++ f.rsv0 ++ f.sel ++ f.op

/-- SEL = 0 is IN and SEL = 1 is OUT (R93). -/
def Sel.ofBit (b : BitVec 1) : Sel := if b = 1#1 then .output else .input

/-- The SEL bit of a carrier choice (R93). -/
def Sel.bit : Sel → BitVec 1
  | .input => 0#1
  | .output => 1#1

/-- The command that well-formed fields spell (R92). -/
def CmdFields.instr (f : CmdFields) : Except DecodeError Instr :=
  match f.op.toNat with
  | 1 => .ok (.setbit f.val)
  | 2 => .ok (.getbit (Sel.ofBit f.sel))
  | 3 => .ok .hdrEnc
  | 4 => .ok (.hdrDec (Sel.ofBit f.sel))
  | 5 => .ok .payEnc
  | 6 => .ok (.payDec (Sel.ofBit f.sel))
  | 7 => .ok .copy
  | 8 => .ok .encode
  | 9 => .ok (.decode (Sel.ofBit f.sel))
  | _ => .error .illegalOp

/-- The decoder: every 32-bit word is a command or is rejected by name (R96, R97). -/
def decode (w : Word) : Except DecodeError Instr :=
  match (CmdFields.ofWord w).error? with
  | some e => .error e
  | none => (CmdFields.ofWord w).instr

/-- OP of a command (R92). -/
def Instr.op : Instr → BitVec 4
  | .setbit _ => 0x1#4
  | .getbit _ => 0x2#4
  | .hdrEnc => 0x3#4
  | .hdrDec _ => 0x4#4
  | .payEnc => 0x5#4
  | .payDec _ => 0x6#4
  | .copy => 0x7#4
  | .encode => 0x8#4
  | .decode _ => 0x9#4

/-- The fields of a command (R91 to R95): reserved fields 0, VAL 0 but for SETBIT, SEL 0 but for the read commands. -/
def Instr.fields : Instr → CmdFields
  | .setbit val => { op := 0x1#4, sel := 0#1, rsv0 := 0#3, val := val, rsv1 := 0#16 }
  | .getbit sel => { op := 0x2#4, sel := sel.bit, rsv0 := 0#3, val := 0#8, rsv1 := 0#16 }
  | .hdrEnc => { op := 0x3#4, sel := 0#1, rsv0 := 0#3, val := 0#8, rsv1 := 0#16 }
  | .hdrDec sel => { op := 0x4#4, sel := sel.bit, rsv0 := 0#3, val := 0#8, rsv1 := 0#16 }
  | .payEnc => { op := 0x5#4, sel := 0#1, rsv0 := 0#3, val := 0#8, rsv1 := 0#16 }
  | .payDec sel => { op := 0x6#4, sel := sel.bit, rsv0 := 0#3, val := 0#8, rsv1 := 0#16 }
  | .copy => { op := 0x7#4, sel := 0#1, rsv0 := 0#3, val := 0#8, rsv1 := 0#16 }
  | .encode => { op := 0x8#4, sel := 0#1, rsv0 := 0#3, val := 0#8, rsv1 := 0#16 }
  | .decode sel => { op := 0x9#4, sel := sel.bit, rsv0 := 0#3, val := 0#8, rsv1 := 0#16 }

/-- A command is well formed when its fields pass every check. -/
def Instr.wf (i : Instr) : Bool := i.fields.wf

/-- The encoder: the one word of a command (R90). -/
def encode (i : Instr) : Word := i.fields.word

/-- One row of the opcode table (R96). -/
structure OpcodeRow where
  mnemonic : String
  wordMatch : Word
  wordMask : Word
  deriving DecidableEq, Repr

/-- The opcode table as R96 prints it. -/
def opcodeTable : List OpcodeRow :=
  [ { mnemonic := "SETBIT", wordMatch := 0x00000001#32, wordMask := 0xFFFF00FF#32 },
    { mnemonic := "GETBIT", wordMatch := 0x00000002#32, wordMask := 0xFFFFFFEF#32 },
    { mnemonic := "HDR_ENC", wordMatch := 0x00000003#32, wordMask := 0xFFFFFFFF#32 },
    { mnemonic := "HDR_DEC", wordMatch := 0x00000004#32, wordMask := 0xFFFFFFEF#32 },
    { mnemonic := "PAY_ENC", wordMatch := 0x00000005#32, wordMask := 0xFFFFFFFF#32 },
    { mnemonic := "PAY_DEC", wordMatch := 0x00000006#32, wordMask := 0xFFFFFFEF#32 },
    { mnemonic := "COPY", wordMatch := 0x00000007#32, wordMask := 0xFFFFFFFF#32 },
    { mnemonic := "ENCODE", wordMatch := 0x00000008#32, wordMask := 0xFFFFFFFF#32 },
    { mnemonic := "DECODE", wordMatch := 0x00000009#32, wordMask := 0xFFFFFFEF#32 } ]

/-- A word matches a row: `(w & mask) = match` (R96). -/
def OpcodeRow.accepts (r : OpcodeRow) (w : Word) : Bool := (w &&& r.wordMask) == r.wordMatch

/-- The name of a command in the opcode table (R92). -/
def Instr.mnemonic : Instr → String
  | .setbit _ => "SETBIT"
  | .getbit _ => "GETBIT"
  | .hdrEnc => "HDR_ENC"
  | .hdrDec _ => "HDR_DEC"
  | .payEnc => "PAY_ENC"
  | .payDec _ => "PAY_DEC"
  | .copy => "COPY"
  | .encode => "ENCODE"
  | .decode _ => "DECODE"

/-- The word whose low `nbits` bits are those of `w` and whose other bits are 0. A command is one 32-bit word (R90). -/
def tableWord (nbits w : Nat) : Word := BitVec.ofNat 32 (w % 2 ^ nbits)

/-- The command the decoder reads from an opcode-table word; no command is longer than 32 bits (R90). -/
def decodeTableWord (nbits w : Nat) : Option Instr :=
  if nbits ≤ 32 then
    match decode (tableWord nbits w) with
    | .ok i => some i
    | .error _ => none
  else none

end Sys2Proof
end

