-- ==== Sys2Proof/Machine/State.lean ====
section
/-! DEFINITION. The architectural state of the block (10_state.md), the moves of the outside world, the reasons a
step can stop, and the state after reset (R48). -/

namespace Sys2Proof.Machine

/-- A buffer's written bytes as (index, byte) pairs, indices strictly rising. An index that is not listed is unwritten
and holds no value (R85, R231). -/
abbrev Memory := List Host.Cell

/-- The three byte buffers (R42 to R44). -/
inductive Buf where
  /-- IN: the caller's carrier, which no command writes (R42, R45). -/
  | inBuf
  /-- OUT: the private copy (R43). -/
  | outBuf
  /-- PBUF: the payload bytes (R44). -/
  | pBuf
  deriving DecidableEq, Repr

/-- STATUS.RESULT's codes (R29). Value 7 is reserved and never written (U17). -/
inductive ResultCode where
  | none | ok | capacityExceeded | noPayload | indexRange | badLength | illegalCmd
  deriving DecidableEq, Repr

/-- STATUS.NP_REASON's values (R30). -/
inductive NpReason where
  | none | short | length | utf8
  deriving DecidableEq, Repr

/-- A host access (R63): a kind, a width in bits, a byte address, and for a write its data. An 8-bit write carries its
byte in the low 8 bits of the data (log 9). -/
inductive Access where
  | read (width : Nat) (addr : Word)
  | write (width : Nat) (addr : Word) (data : Word)
  deriving DecidableEq, Repr

/-- What the outside world does in one step (log 2). -/
inductive Input where
  /-- The host performs one access at the host port (R63, R76). -/
  | access (a : Access)
  /-- The reset input `rst` is applied (R230). -/
  | reset
  /-- The host makes no access: it is the engine's turn, if it holds a command (R211). -/
  | quiet
  deriving DecidableEq, Repr

/-- The one response an access receives (R63). -/
inductive Response where
  /-- OK to a write. -/
  | written
  /-- OK to a read, with its data; an 8-bit read's byte stands in the low 8 bits (log 9). -/
  | data (rdata : Word)
  /-- ERR: the access had no effect. Its rdata is 0, which `answerErr` gives it. -/
  | err (rdata : Word)
  deriving DecidableEq, Repr

/-- A host fault that R114 and R219 ask a model to record. The block itself goes on exactly as R209 says (log 1). -/
inductive Misuse where
  /-- SETBIT or GETBIT completed with INDEX_RANGE (R114). -/
  | indexRange (idx clen : Word)
  /-- A command completed with BAD_LENGTH (R203). -/
  | badLength (clen : Word)
  /-- A word completed with ILLEGAL_CMD (R201). -/
  | illegalCmd (w : Word)
  deriving DecidableEq, Repr

/-- Why the model stops with a fault. -/
inductive Fault where
  /-- UNINIT_READ: the engine or the host read a buffer byte that nothing has written since reset (R85, R231).
  Raised by `readByte` and its callers. Safe: the hardware goes on with an unspecified value. -/
  | uninitRead (b : Buf) (index : Nat)
  deriving DecidableEq, Repr

/-- Why the model refuses a command. -/
inductive Refusal where
  /-- The command has no meaning in the model yet. Raised by an arm of `exec` only, and by none at present. Safe. -/
  | notModelled (mnemonic : String)
  deriving DecidableEq, Repr

/-- The state of the block (R21), with the three fields the model keeps for itself (`inputs`, `misuse`, `draws`).
ID, CMD, PCAPACITY, STATUS.BUSY and `irq` hold nothing of their own and are computed (Flags.lean, Operands.lean). -/
structure State where
  /-- CAP, which CAPR reads (R7, R23): fixed for a machine, no step changes it (log 3). -/
  cap : Nat
  /-- CTRL.IE (R24). -/
  ie : Bool
  /-- STATUS.DONE (R27). -/
  done : Bool
  /-- STATUS.OVERRUN (R28). -/
  overrun : Bool
  /-- STATUS.RESULT (R29). -/
  result : ResultCode
  /-- STATUS.NP_REASON (R30). -/
  npReason : NpReason
  /-- STATUS.LAST_OP (R31). -/
  lastOp : BitVec 4
  /-- CLEN (R34). -/
  clen : Word
  /-- PLEN (R35). -/
  plen : Word
  /-- HDR (R36). -/
  hdr : Word
  /-- IDX (R37). -/
  idx : Word
  /-- BITV, bit 0 (R38). -/
  bitv : BitVec 1
  /-- REQ: REQ_LO is its bits [31:0] and REQ_HI its bits [35:32] (R39). -/
  req : BitVec 36
  /-- AVAIL (R40). -/
  avail : Word
  /-- IN (R42). -/
  inBuf : Memory
  /-- OUT (R43). -/
  outBuf : Memory
  /-- PBUF (R44). -/
  pBuf : Memory
  /-- The command word the engine has captured and not completed; STATUS.BUSY says whether there is one (R26, R32). -/
  engine : Option Word
  /-- The response to the last host access, if there was one since reset (R63). -/
  response : Option Response
  /-- What the outside world does next, first step first. The model's own field (log 2). -/
  inputs : List Input
  /-- The host faults recorded so far, newest first (R219). The model's own field (log 1). -/
  misuse : List Misuse
  /-- How many unspecified bytes have been drawn. The model's own field (log 5). -/
  draws : Nat
  deriving DecidableEq, Repr

/-- The state after reset (R48, R231): registers at their reset values, every buffer byte unwritten, the engine idle.
The model's own fields start empty (log 2, log 1, log 5). -/
def State.reset : State :=
  { cap := Config.cap, ie := false, done := false, overrun := false, result := .none, npReason := .none,
    lastOp := 0#4, clen := 0#32, plen := 0#32, hdr := 0#32, idx := 0#32, bitv := 0#1, req := 0#36, avail := 0#32,
    inBuf := [], outBuf := [], pBuf := [], engine := none, response := none, inputs := [], misuse := [], draws := 0 }

end Sys2Proof.Machine
end

