-- ==== Sys2Proof/Machine/Flags.lean ====
section
/-! DEFINITION. STATUS, CTRL and the interrupt output: their views as words, and every change of STATUS (R24 to R31,
R51, R200, R205). -/

namespace Sys2Proof.Machine

/-- STATUS.BUSY: the engine holds a command from its acceptance to its completion (R26). -/
def State.busy (s : State) : Bool := s.engine.isSome

/-- The interrupt output: `irq = DONE & IE` (R51, R210). -/
def State.irq (s : State) : Bool := s.done && s.ie

/-- The value of a result code (R29). -/
def ResultCode.code : ResultCode → BitVec 3
  | .none => 0#3
  | .ok => 1#3
  | .capacityExceeded => 2#3
  | .noPayload => 3#3
  | .indexRange => 4#3
  | .badLength => 5#3
  | .illegalCmd => 6#3

/-- The value of an NP_REASON (R30). -/
def NpReason.code : NpReason → BitVec 2
  | .none => 0#2
  | .short => 1#2
  | .length => 2#2
  | .utf8 => 3#2

/-- STATUS as the host reads it (R25), from bit 31 down: reserved [31:16], LAST_OP [15:12], reserved [11:10],
NP_REASON [9:8], reserved [7], RESULT [6:4], reserved [3], OVERRUN [2], DONE [1], BUSY [0]. -/
def State.statusWord (s : State) : Word :=
  0#16 ++ s.lastOp ++ 0#2 ++ s.npReason.code ++ 0#1 ++ s.result.code ++ 0#1
    ++ BitVec.ofBool s.overrun ++ BitVec.ofBool s.done ++ BitVec.ofBool s.busy

/-- CTRL as the host reads it (R24): IE in bit 0, the rest 0. -/
def State.ctrlWord (s : State) : Word := (BitVec.ofBool s.ie).setWidth 32

/-- Acceptance of a command word (R200): the engine captures it, BUSY becomes 1 and DONE 0. -/
def State.accept (w : Word) (s : State) : State := { s with engine := some w, done := false }

/-- A host write to STATUS (R25): 1 in bit 1 clears DONE, 1 in bit 2 clears OVERRUN; nothing else changes. -/
def State.writeStatus (w : Word) (s : State) : State :=
  { s with done := s.done && !w.getLsbD 1, overrun := s.overrun && !w.getLsbD 2 }

/-- A host write to CTRL (R24): bit 0 is IE, the rest is ignored. -/
def State.writeCtrl (w : Word) (s : State) : State := { s with ie := w.getLsbD 0 }

/-- A host write refused because BUSY = 1 (R240): dropped, and OVERRUN becomes 1. -/
def State.refuseWrite (s : State) : State := { s with overrun := true }

/-- Completion (R205): RESULT, NP_REASON and LAST_OP are written, DONE becomes 1 and BUSY 0; OVERRUN stays. -/
def State.complete (code : ResultCode) (reason : NpReason) (op : BitVec 4) (s : State) : State :=
  { s with result := code, npReason := reason, lastOp := op, done := true, engine := none }

end Sys2Proof.Machine
end

