-- ==== Sys2Proof/Machine/Ops.lean ====
section
/-! DEFINITION. The shared operations: reading and writing the buffers, the loops of the pseudocode, the carrier
primitives (R111), the header and payload functions (R130, R150), and how a command ends (R11, R205). -/

namespace Sys2Proof.Machine

/-! ### A buffer's bytes -/

/-- The byte at an index, if one has been written there (R85). -/
def Memory.read : Memory → Nat → Option Byte
  | [], _ => none
  | c :: rest, a => if c.1 = a then some c.2 else Memory.read rest a

/-- `MemWrite` (R11): store a byte at an index, keeping the indices strictly rising. -/
def Memory.write : Memory → Nat → Byte → Memory
  | [], a, v => [(a, v)]
  | c :: rest, a, v =>
    if a < c.1 then (a, v) :: c :: rest
    else if c.1 = a then (a, v) :: rest
    else c :: Memory.write rest a v

/-- The canonical form: indices strictly rising. -/
abbrev Memory.wf (m : Memory) : Prop := m.Pairwise (fun x y => x.1 < y.1)

/-- Every written index lies below a bound. -/
abbrev Memory.within (m : Memory) (size : Nat) : Prop := ∀ c ∈ m, c.1 < size

/-- Store a list of bytes at consecutive indices. -/
def Memory.writeBytes : Memory → Nat → List Byte → Memory
  | m, _, [] => m
  | m, a, v :: vs => Memory.writeBytes (m.write a v) (a + 1) vs

/-- `MemRead` (R11): a byte of buffer `b`, whose contents are `m`; an unwritten one is UNINIT_READ (R85). -/
def readByte (b : Buf) (m : Memory) (a : Nat) : Except Fault Byte :=
  match m.read a with
  | some v => .ok v
  | none => .error (.uninitRead b a)

/-- A buffer's contents. -/
def State.buffer (s : State) : Buf → Memory
  | .inBuf => s.inBuf
  | .outBuf => s.outBuf
  | .pBuf => s.pBuf

/-- Replace a buffer's contents. -/
def State.setBuffer (s : State) : Buf → Memory → State
  | .inBuf, m => { s with inBuf := m }
  | .outBuf, m => { s with outBuf := m }
  | .pBuf, m => { s with pBuf := m }

/-- A buffer's size in bytes: CAP for IN and OUT, `floor(CAP / 8)` for PBUF (R42 to R44). -/
def State.bufSize (s : State) : Buf → Nat
  | .inBuf => s.cap
  | .outBuf => s.cap
  | .pBuf => s.cap / 8

/-! ### The pseudocode's loop -/

/-- `for i in 0 .. n-1` (R11), in ascending order, stopping at the first fault. -/
def loop {α : Type} : Nat → (Nat → α → Except Fault α) → α → Except Fault α
  | 0, _, a => .ok a
  | n + 1, f, a =>
    match loop n f a with
    | .ok x => f n x
    | .error e => .error e

/-! ### The carrier primitives (R111) -/

/-- The byte with bit 0 taken from `v` and bits [7:1] kept (R71, R111). -/
def withLsb (old v : Byte) : Byte := (old &&& 0xFE#8) ||| (v &&& 0x01#8)

/-- `setbit(OUT, p, v)` (R111); `m` is the contents of OUT. -/
def setbit (m : Memory) (p : Nat) (v : Byte) : Except Fault Memory :=
  match readByte .outBuf m p with
  | .ok old => .ok (m.write p (withLsb old v))
  | .error e => .error e

/-- `getbit(B, p)` (R111): 0 or 1, as a byte; `m` is the contents of `b`. -/
def getbit (b : Buf) (m : Memory) (p : Nat) : Except Fault Byte :=
  match readByte b m p with
  | .ok v => .ok (v &&& 0x01#8)
  | .error e => .error e

/-! ### The header functions (R130) -/

/-- `hdr_write(H)`: position `i` of OUT takes bit `31 - i` of `H`. -/
def hdrWrite (out : Memory) (h : Word) : Except Fault Memory :=
  loop 32 (fun i m => setbit m i (((h >>> (31 - i)) &&& 1#32).setWidth 8)) out

/-- `hdr_read(B)`: `acc = (acc << 1) | bit` over positions 0 to 31. -/
def hdrRead (b : Buf) (m : Memory) : Except Fault Word :=
  loop 32 (fun i acc =>
    match getbit b m i with
    | .ok v => .ok ((acc <<< 1) ||| v.setWidth 32)
    | .error e => .error e) 0#32

/-! ### The payload functions (R150) -/

/-- One byte of `pay_write`: bit `7 - k` of the byte goes to position `p + k` of OUT. -/
def byteWrite (out : Memory) (p : Nat) (v : Byte) : Except Fault Memory :=
  loop 8 (fun k m => setbit m (p + k) ((v >>> (7 - k)) &&& 1#8)) out

/-- `pay_write(s, n)`: stripe `PBUF[0 .. n-1]` into OUT from position `s`. -/
def payWrite (pbuf out : Memory) (s n : Nat) : Except Fault Memory :=
  loop n (fun j m =>
    match readByte .pBuf pbuf j with
    | .ok v => byteWrite m (s + 8 * j) v
    | .error e => .error e) out

/-- One byte of `pay_read`: eight positions from `p`, most significant bit first. -/
def byteRead (b : Buf) (m : Memory) (p : Nat) : Except Fault Byte :=
  loop 8 (fun k acc =>
    match getbit b m (p + k) with
    | .ok v => .ok ((acc <<< 1) ||| v)
    | .error e => .error e) 0#8

/-- `pay_read(B, s, n)`: the `n` bytes striped in `B` from position `s`, in order. -/
def payRead (b : Buf) (m : Memory) (s n : Nat) : Except Fault (List Byte) :=
  loop n (fun j bytes =>
    match byteRead b m (s + 8 * j) with
    | .ok v => .ok (bytes ++ [v])
    | .error e => .error e) []

/-! ### The private copy (R175) -/

/-- `OUT[i] <- IN[i]` for `i < n`. -/
def copyBytes (inb out : Memory) (n : Nat) : Except Fault Memory :=
  loop n (fun i m =>
    match readByte .inBuf inb i with
    | .ok v => .ok (m.write i v)
    | .error e => .error e) out

/-! ### Unspecified bytes -/

/-- The next `n` free bytes from draw number `k` on (R186, R241; log 5). -/
def drawBytes (k n : Nat) : List Byte := (List.range n).map (fun j => Config.freeByte (k + j))

/-! ### How a command ends -/

/-- The outcome of a command. -/
abbrev Result := Host.Outcome State Fault Refusal

/-- `x[REQ] <- required` and `x[AVAIL] <- x[CLEN]` (R39, R40). A required count never needs more than 36 bits (R16). -/
def State.report (required : Nat) (s : State) : State :=
  { s with req := BitVec.ofNat 36 required, avail := s.clen }

/-- `finish OK` (R11, R205). -/
def finishOk (op : BitVec 4) (s : State) : Result := .next (s.complete .ok .none op)

/-- `raise CAPACITY_EXCEEDED` (R11, R205, R209). No trap is taken: control goes nowhere (R206). -/
def raiseCapacity (op : BitVec 4) (s : State) : Result := .next (s.complete .capacityExceeded .none op)

/-- `raise NO_PAYLOAD(reason)` (R11, R205, R209). -/
def raiseNoPayload (reason : NpReason) (op : BitVec 4) (s : State) : Result :=
  .next (s.complete .noPayload reason op)

/-- The result code of a host fault (R219). -/
def Misuse.code : Misuse → ResultCode
  | .indexRange _ _ => .indexRange
  | .badLength _ => .badLength
  | .illegalCmd _ => .illegalCmd

/-- `raise INDEX_RANGE`, BAD_LENGTH or ILLEGAL_CMD: the block completes as R205 and R209 say, and the model records
the host's fault (R114, R219; log 1). -/
def raiseMisuse (m : Misuse) (op : BitVec 4) (s : State) : Result :=
  .next { s.complete m.code .none op with misuse := m :: s.misuse }

/-- Go on with what an engine operation gives, or stop with its fault. -/
def onOk {α : Type} (x : Except Fault α) (k : α → Result) : Result :=
  match x with
  | .ok a => k a
  | .error e => .fault e

/-- The second common check (R202): `CLEN ≤ CAP`, or BAD_LENGTH with nothing but STATUS written (R203). -/
def checkLength (op : BitVec 4) (s : State) (body : Result) : Result :=
  if s.cap < s.clen.toNat then raiseMisuse (.badLength s.clen) op s else body

end Sys2Proof.Machine
end

