-- ==== Sys2Proof/Machine/Operands.lean ====
section
/-! DEFINITION. The operands of the commands: the carrier SEL picks, SETBIT's bit, the required bit counts and the
capacity formula (R16, R33, R39, R93, R94, R101). -/

namespace Sys2Proof.Machine

/-- `CB = (SEL = 1) ? OUT : IN` (R93). -/
def carrier : Sel → Buf
  | .input => .inBuf
  | .output => .outBuf

/-- SETBIT's bit: `VAL & 0x01` (R94). -/
def bitOperand (val : Byte) : Byte := val &&& 0x01#8

/-- The required count of SETBIT and GETBIT: `IDX + 1`, exact (R16, R39). -/
def State.reqIndex (s : State) : Nat := s.idx.toNat + 1

/-- The required count of PAY_ENC and PAY_DEC: `IDX + 8 * PLEN`, exact (R16, R39). -/
def State.reqPayload (s : State) : Nat := s.idx.toNat + 8 * s.plen.toNat

/-- The required count of a header and `len` payload bytes: `32 + 8 * len`, exact (R16, R39, R176). -/
def reqMessage (len : Word) : Nat := Config.headerBits + 8 * len.toNat

/-- PCAPACITY (R33): `(CLEN - 32) / 8` when `CLEN ≥ 32`, else 0. -/
def State.pcapacity (s : State) : Word :=
  if 32 ≤ s.clen.toNat then BitVec.ofNat 32 ((s.clen.toNat - 32) / 8) else 0#32

end Sys2Proof.Machine
end

