-- ==== Sys2Proof/Machine/BitAccessor.lean ====
section
/-! DEFINITION. The LSB bit accessor: SETBIT and GETBIT (40_bit_accessor.md). -/

namespace Sys2Proof.Machine

/-- SETBIT (R112): write bit 0 of `OUT[IDX]`; INDEX_RANGE when `IDX ≥ CLEN`. -/
def execSetbit (val : Byte) (s : State) : Result :=
  checkLength 0x1#4 s <|
    if s.clen.toNat ≤ s.idx.toNat then
      raiseMisuse (.indexRange s.idx s.clen) 0x1#4 (s.report s.reqIndex)
    else
      onOk (setbit s.outBuf s.idx.toNat (bitOperand val)) fun out =>
        finishOk 0x1#4 (State.report s.reqIndex { s with outBuf := out })

/-- GETBIT (R113): read bit 0 of `CB[IDX]` into BITV; INDEX_RANGE, with BITV unchanged, when `IDX ≥ CLEN`. -/
def execGetbit (sel : Sel) (s : State) : Result :=
  checkLength 0x2#4 s <|
    if s.clen.toNat ≤ s.idx.toNat then
      raiseMisuse (.indexRange s.idx s.clen) 0x2#4 (s.report s.reqIndex)
    else
      onOk (getbit (carrier sel) (s.buffer (carrier sel)) s.idx.toNat) fun b =>
        finishOk 0x2#4 (State.report s.reqIndex { s with bitv := b.setWidth 1 })

end Sys2Proof.Machine
end

