-- ==== Sys2Proof/Machine/HeaderCodec.lean ====
section
/-! DEFINITION. The big-endian header codec: HDR_ENC and HDR_DEC (41_header_codec.md). -/

namespace Sys2Proof.Machine

/-- HDR_ENC (R131): HDR into `OUT[0 .. 31]`; CAPACITY_EXCEEDED, with OUT unwritten, when `CLEN < 32`. -/
def execHdrEnc (s : State) : Result :=
  checkLength 0x3#4 s <|
    if s.clen.toNat < Config.headerBits then raiseCapacity 0x3#4 (s.report Config.headerBits)
    else
      onOk (hdrWrite s.outBuf s.hdr) fun out =>
        finishOk 0x3#4 (State.report Config.headerBits { s with outBuf := out })

/-- HDR_DEC (R132): `CB[0 .. 31]` into HDR; NO_PAYLOAD with reason SHORT, and HDR unchanged, when `CLEN < 32`. -/
def execHdrDec (sel : Sel) (s : State) : Result :=
  checkLength 0x4#4 s <|
    if s.clen.toNat < Config.headerBits then raiseNoPayload .short 0x4#4 (s.report Config.headerBits)
    else
      onOk (hdrRead (carrier sel) (s.buffer (carrier sel))) fun h =>
        finishOk 0x4#4 (State.report Config.headerBits { s with hdr := h })

end Sys2Proof.Machine
end

