-- ==== Sys2Proof/Machine/Utf8.lean ====
section
/-! DEFINITION. The UTF-8 validity check of DECODE (R170, R171; log 22). -/

namespace Sys2Proof.Machine

/-- `lo ≤ b ≤ hi`, as unsigned bytes. -/
def inRange (lo hi b : Byte) : Bool := lo ≤ b && b ≤ hi

/-- What a first byte asks of the bytes after it (R171): how many follow, and the range of the next one. -/
inductive Utf8Lead where
  | invalid
  | one
  | two (lo hi : Byte)
  | three (lo hi : Byte)
  | four (lo hi : Byte)
  deriving DecidableEq, Repr

/-- The classification of a first byte, line by line as R171's pseudocode has it. -/
def utf8Lead (b : Byte) : Utf8Lead :=
  if b ≤ 0x7F#8 then .one
  else if inRange 0xC2#8 0xDF#8 b then .two 0x80#8 0xBF#8
  else if b = 0xE0#8 then .three 0xA0#8 0xBF#8
  else if inRange 0xE1#8 0xEC#8 b then .three 0x80#8 0xBF#8
  else if b = 0xED#8 then .three 0x80#8 0x9F#8
  else if inRange 0xEE#8 0xEF#8 b then .three 0x80#8 0xBF#8
  else if b = 0xF0#8 then .four 0x90#8 0xBF#8
  else if inRange 0xF1#8 0xF3#8 b then .four 0x80#8 0xBF#8
  else if b = 0xF4#8 then .four 0x80#8 0x8F#8
  else .invalid

/-- A continuation byte, `80..BF`. -/
def isCont (b : Byte) : Bool := inRange 0x80#8 0xBF#8 b

/-- `utf8_valid(P, n)` (R171) on the bytes in order: each sequence is complete and in range, to the end. -/
def utf8Valid : List Byte → Bool
  | [] => true
  | b :: rest =>
    match utf8Lead b with
    | .invalid => false
    | .one => utf8Valid rest
    | .two lo hi =>
      match rest with
      | c1 :: rest' => inRange lo hi c1 && utf8Valid rest'
      | [] => false
    | .three lo hi =>
      match rest with
      | c1 :: c2 :: rest' => inRange lo hi c1 && isCont c2 && utf8Valid rest'
      | _ => false
    | .four lo hi =>
      match rest with
      | c1 :: c2 :: c3 :: rest' => inRange lo hi c1 && isCont c2 && isCont c3 && utf8Valid rest'
      | _ => false

end Sys2Proof.Machine
end

