-- ==== Sys2Proof/Machine/Orchestrator.lean ====
section
/-! DEFINITION. The codec orchestrator: COPY, ENCODE and DECODE (43_orchestrator.md). -/

namespace Sys2Proof.Machine

/-- COPY (R175): `OUT[0 .. CLEN-1]` from IN; REQ and AVAIL unchanged. -/
def execCopy (s : State) : Result :=
  checkLength 0x7#4 s <|
    onOk (copyBytes s.inBuf s.outBuf s.clen.toNat) fun out => finishOk 0x7#4 { s with outBuf := out }

/-- The three buffer steps of ENCODE, in order (R181): the private copy, the header PLEN, the payload from 32. -/
def encodeInto (s : State) : Except Fault Memory :=
  match copyBytes s.inBuf s.outBuf s.clen.toNat with
  | .error e => .error e
  | .ok copied =>
    match hdrWrite copied s.plen with
    | .error e => .error e
    | .ok headed => payWrite s.pBuf headed Config.startBit s.plen.toNat

/-- ENCODE (R181): CAPACITY_EXCEEDED, with no buffer written (R177), when `32 + 8 * PLEN > CLEN` (R176). -/
def execEncode (s : State) : Result :=
  checkLength 0x8#4 s <|
    if s.clen.toNat < reqMessage s.plen then raiseCapacity 0x8#4 (s.report (reqMessage s.plen))
    else
      onOk (encodeInto s) fun out =>
        finishOk 0x8#4 (State.report (reqMessage s.plen) { s with outBuf := out })

/-- The end of DECODE once the payload bytes are read (R182 step 3): PBUF and PLEN on valid UTF-8, else NO_PAYLOAD with
reason UTF8, PLEN 0 and the `L` bytes of PBUF unspecified (R186). -/
def decodeFinish (len : Word) (bytes : List Byte) (s : State) : Result :=
  if utf8Valid bytes then
    finishOk 0x9#4 { s with plen := len, pBuf := s.pBuf.writeBytes 0 bytes }
  else
    raiseNoPayload .utf8 0x9#4
      { s with plen := 0#32, pBuf := s.pBuf.writeBytes 0 (drawBytes s.draws len.toNat), draws := s.draws + len.toNat }

/-- DECODE (R182): the header, the length check, the payload, the UTF-8 check. -/
def execDecode (sel : Sel) (s : State) : Result :=
  checkLength 0x9#4 s <|
    if s.clen.toNat < Config.headerBits then
      raiseNoPayload .short 0x9#4 (State.report Config.headerBits { s with plen := 0#32 })
    else
      onOk (hdrRead (carrier sel) (s.buffer (carrier sel))) fun len =>
        if s.clen.toNat < reqMessage len then
          raiseNoPayload .length 0x9#4 (State.report (reqMessage len) { s with hdr := len, plen := 0#32 })
        else
          onOk (payRead (carrier sel) (s.buffer (carrier sel)) Config.startBit len.toNat) fun bytes =>
            decodeFinish len bytes (State.report (reqMessage len) { s with hdr := len })

end Sys2Proof.Machine
end

