-- ==== Sys2Proof/Machine/PayloadCodec.lean ====
section
/-! DEFINITION. The payload byte striper: PAY_ENC and PAY_DEC (42_payload_codec.md). -/

namespace Sys2Proof.Machine

/-- PAY_ENC (R151): stripe `PBUF[0 .. PLEN-1]` into OUT from IDX; CAPACITY_EXCEEDED, with OUT unwritten, when
`IDX + 8 * PLEN > CLEN` (R152). -/
def execPayEnc (s : State) : Result :=
  checkLength 0x5#4 s <|
    if s.clen.toNat < s.reqPayload then raiseCapacity 0x5#4 (s.report s.reqPayload)
    else
      onOk (payWrite s.pBuf s.outBuf s.idx.toNat s.plen.toNat) fun out =>
        finishOk 0x5#4 (State.report s.reqPayload { s with outBuf := out })

/-- PAY_DEC (R157): read PLEN bytes of `CB` from IDX into PBUF; NO_PAYLOAD with reason LENGTH, and PBUF unchanged, when
`IDX + 8 * PLEN > CLEN` (R152). -/
def execPayDec (sel : Sel) (s : State) : Result :=
  checkLength 0x6#4 s <|
    if s.clen.toNat < s.reqPayload then raiseNoPayload .length 0x6#4 (s.report s.reqPayload)
    else
      onOk (payRead (carrier sel) (s.buffer (carrier sel)) s.idx.toNat s.plen.toNat) fun bytes =>
        finishOk 0x6#4 (State.report s.reqPayload { s with pBuf := s.pBuf.writeBytes 0 bytes })

end Sys2Proof.Machine
end

