-- ==== Sys2Proof/Machine/Dispatch.lean ====
section
/-! DEFINITION. The meaning of each command: one arm per row of the opcode table (R96). -/

namespace Sys2Proof.Machine

def exec (i : Instr) (s : State) : Host.Outcome State Fault Refusal :=
  match i with
  | .setbit val => Sys2Proof.Machine.execSetbit val s
  | .getbit sel => Sys2Proof.Machine.execGetbit sel s
  | .hdrEnc => Sys2Proof.Machine.execHdrEnc s
  | .hdrDec sel => Sys2Proof.Machine.execHdrDec sel s
  | .payEnc => Sys2Proof.Machine.execPayEnc s
  | .payDec sel => Sys2Proof.Machine.execPayDec sel s
  | .copy => Sys2Proof.Machine.execCopy s
  | .encode => Sys2Proof.Machine.execEncode s
  | .decode sel => Sys2Proof.Machine.execDecode sel s

end Sys2Proof.Machine
end

