-- ==== Sys2Proof/Machine/HostPort.lean ====
section
/-! DEFINITION. The host port: the address map, register and buffer accesses, their refusal while BUSY, and their
responses (20_memory.md, R47, R240, R241). -/

namespace Sys2Proof.Machine

/-! ### The address map -/

/-- The registers of the register map (R47). -/
inductive Reg where
  | id | capr | ctrl | status | cmd | clen | plen | hdr | idx | bitv | reqLo | reqHi | avail | pcapacity | reserved
  deriving DecidableEq, Repr

/-- The register at a byte offset of the register window (R47); every other offset is reserved (R41). -/
def regAt (offset : Nat) : Reg :=
  match offset with
  | 0x00 => .id
  | 0x04 => .capr
  | 0x08 => .ctrl
  | 0x0C => .status
  | 0x10 => .cmd
  | 0x14 => .clen
  | 0x18 => .plen
  | 0x1C => .hdr
  | 0x20 => .idx
  | 0x24 => .bitv
  | 0x28 => .reqLo
  | 0x2C => .reqHi
  | 0x30 => .avail
  | 0x34 => .pcapacity
  | _ => .reserved

/-- The base host address of a buffer's window (R60). -/
def bufBase : Buf → Nat
  | .inBuf => 0x10000000
  | .outBuf => 0x20000000
  | .pBuf => 0x30000000

/-- What a host address names (R60). -/
inductive Target where
  | reg (offset : Nat)
  | byte (b : Buf) (index : Nat)
  | unmapped
  deriving DecidableEq, Repr

/-- An address lies in the window of buffer `b` (R60). -/
def State.inWindow (s : State) (b : Buf) (a : Nat) : Bool := bufBase b ≤ a && a < bufBase b + s.bufSize b

/-- The target of a host address (R60). With `CAP ≤ 2^28` the windows are disjoint. -/
def State.target (s : State) (addr : Word) : Target :=
  let a := addr.toNat
  if a < 0x1000 then .reg a
  else if s.inWindow .inBuf a then .byte .inBuf (a - bufBase .inBuf)
  else if s.inWindow .outBuf a then .byte .outBuf (a - bufBase .outBuf)
  else if s.inWindow .pBuf a then .byte .pBuf (a - bufBase .pBuf)
  else .unmapped

/-- A register access is 32 bits wide at a multiple of 4 (R64). -/
def regAccessOk (width offset : Nat) : Bool := width == 32 && offset % 4 == 0

/-- A 32-bit buffer access is at a multiple of 4 with all four bytes inside the window (R65). -/
def State.wordAccessOk (s : State) (b : Buf) (a : Nat) : Bool := a % 4 == 0 && a + 3 < s.bufSize b

/-! ### Responses -/

/-- Answer the access OK or ERR (R63). -/
def State.respond (r : Response) (s : State) : State := { s with response := some r }

/-- An access answered ERR has no effect on any state of the block, and its rdata is 0 (R63). -/
def answerErr (s : State) : Result := .next (s.respond (.err 0#32))

/-! ### Byte lanes -/

/-- A word from the bytes of four rising indices: the first is bits [7:0] (R66). -/
def laneWord (b0 b1 b2 b3 : Byte) : Word := b3 ++ b2 ++ b1 ++ b0

/-- Lane `n` of a word: bits `[8n+7 : 8n]` (R66). -/
def lane (w : Word) (n : Nat) : Byte := w.extractLsb' (8 * n) 8

/-- A 32-bit read of a buffer: four 8-bit reads (R66). -/
def readWord (b : Buf) (m : Memory) (a : Nat) : Except Fault Word :=
  match readByte b m a, readByte b m (a + 1), readByte b m (a + 2), readByte b m (a + 3) with
  | .ok b0, .ok b1, .ok b2, .ok b3 => .ok (laneWord b0 b1 b2 b3)
  | .error e, _, _, _ => .error e
  | _, .error e, _, _ => .error e
  | _, _, .error e, _ => .error e
  | _, _, _, .error e => .error e

/-- A 32-bit write of a buffer: four 8-bit writes (R66). -/
def writeWord (m : Memory) (a : Nat) (w : Word) : Memory :=
  m.writeBytes a [lane w 0, lane w 1, lane w 2, lane w 3]

/-! ### Unspecified reads -/

/-- A 32-bit read whose value is unspecified: four free bytes (R241; log 5, log 6). -/
def answerFreeWord (s : State) : Result :=
  .next { s.respond (.data (laneWord (Config.freeByte s.draws) (Config.freeByte (s.draws + 1))
    (Config.freeByte (s.draws + 2)) (Config.freeByte (s.draws + 3)))) with draws := s.draws + 4 }

/-- An 8-bit read whose value is unspecified: one free byte (R241; log 5). -/
def answerFreeByte (s : State) : Result :=
  .next { s.respond (.data ((Config.freeByte s.draws).setWidth 32)) with draws := s.draws + 1 }

/-- The registers a running command may be writing: their reads are unspecified while BUSY = 1 (R241). -/
def Reg.engineWrites : Reg → Bool
  | .plen | .hdr | .bitv | .reqLo | .reqHi | .avail => true
  | .id | .capr | .ctrl | .status | .cmd | .clen | .idx | .pcapacity | .reserved => false

/-- The buffers a running command may be writing (R241). -/
def Buf.engineWrites : Buf → Bool
  | .inBuf => false
  | .outBuf => true
  | .pBuf => true

/-! ### Registers -/

/-- The value of a register (R22 to R41). -/
def State.regValue (s : State) : Reg → Word
  | .id => Config.ident
  | .capr => BitVec.ofNat 32 s.cap
  | .ctrl => s.ctrlWord
  | .status => s.statusWord
  | .cmd => 0#32
  | .clen => s.clen
  | .plen => s.plen
  | .hdr => s.hdr
  | .idx => s.idx
  | .bitv => s.bitv.setWidth 32
  | .reqLo => s.req.setWidth 32
  | .reqHi => (s.req >>> 32).setWidth 32
  | .avail => s.avail
  | .pcapacity => s.pcapacity
  | .reserved => 0#32

/-- A host write that BUSY = 1 refuses (R240), and that is otherwise carried out. Either way it is answered OK. -/
def State.unlessBusy (s : State) (write : State) : State := if s.busy then s.refuseWrite else write

/-- A host write to a register (R22 to R41, R75, R200, R240). -/
def State.writeReg (s : State) (r : Reg) (w : Word) : State :=
  match r with
  | .ctrl => s.writeCtrl w
  | .status => s.writeStatus w
  | .cmd => s.unlessBusy (s.accept w)
  | .clen => s.unlessBusy { s with clen := w }
  | .plen => s.unlessBusy { s with plen := w }
  | .hdr => s.unlessBusy { s with hdr := w }
  | .idx => s.unlessBusy { s with idx := w }
  | .id | .capr | .bitv | .reqLo | .reqHi | .avail | .pcapacity | .reserved => s

/-! ### Accesses -/

/-- A host read of a register (R64, R241). -/
def readRegister (width offset : Nat) (s : State) : Result :=
  if regAccessOk width offset = false then answerErr s
  else if s.busy && (regAt offset).engineWrites then answerFreeWord s
  else .next (s.respond (.data (s.regValue (regAt offset))))

/-- A host read of a buffer (R65, R66, R85, R241). -/
def readBuffer (width : Nat) (b : Buf) (a : Nat) (s : State) : Result :=
  if width = 8 then
    if s.busy && b.engineWrites then answerFreeByte s
    else onOk (readByte b (s.buffer b) a) fun v => .next (s.respond (.data (v.setWidth 32)))
  else if width = 32 ∧ s.wordAccessOk b a then
    if s.busy && b.engineWrites then answerFreeWord s
    else onOk (readWord b (s.buffer b) a) fun w => .next (s.respond (.data w))
  else answerErr s

/-- A host write of a register (R64, R240). -/
def writeRegister (width offset : Nat) (w : Word) (s : State) : Result :=
  if regAccessOk width offset = false then answerErr s
  else .next ((s.writeReg (regAt offset) w).respond .written)

/-- A host write of a buffer (R65, R66, R240). -/
def writeBuffer (width : Nat) (b : Buf) (a : Nat) (w : Word) (s : State) : Result :=
  if width = 8 then
    .next ((s.unlessBusy (s.setBuffer b ((s.buffer b).write a (lane w 0)))).respond .written)
  else if width = 32 ∧ s.wordAccessOk b a then
    .next ((s.unlessBusy (s.setBuffer b (writeWord (s.buffer b) a w))).respond .written)
  else answerErr s

/-- One host access (R60, R63). An access answered ERR is answered so whether or not the block is busy (log 13). -/
def hostAccess (a : Access) (s : State) : Result :=
  match a with
  | .read width addr =>
    match s.target addr with
    | .reg offset => readRegister width offset s
    | .byte b i => readBuffer width b i s
    | .unmapped => answerErr s
  | .write width addr data =>
    match s.target addr with
    | .reg offset => writeRegister width offset data s
    | .byte b i => writeBuffer width b i data s
    | .unmapped => answerErr s

/-- The reset input (R230, R231): the state after reset, for this machine's CAP. The outside world's moves, the record
of host faults and the draw counter are the model's own and go on (log 11). -/
def applyReset (s : State) : State :=
  { State.reset with cap := s.cap, inputs := s.inputs, misuse := s.misuse, draws := s.draws }

end Sys2Proof.Machine
end

