-- ==== Sys2Proof/Machine/Engine.lean ====
section
/-! DEFINITION. The engine's turn and the choice of who moves (R20, R76, R200 to R202, R211). -/

namespace Sys2Proof.Machine

/-- Run a captured word to completion (R201, R202): an illegal one completes with ILLEGAL_CMD, writing only STATUS,
with LAST_OP the word's bits [3:0]. -/
def runWord (w : Word) (s : State) : Result :=
  match decode w with
  | .ok i => exec i s
  | .error _ => raiseMisuse (.illegalCmd w) (w.extractLsb' 0 4) s

/-- The engine's turn: complete the captured command, or stay idle and keep all state (R218). -/
def engineTurn (s : State) : Result :=
  match s.engine with
  | some w => runWord w s
  | none => .next s

/-- One move of the machine (R211; log 2): the outside world's next entry, or the engine's turn when there is none. -/
def move (s : State) : Result :=
  match s.inputs with
  | [] => engineTurn s
  | .quiet :: rest => engineTurn { s with inputs := rest }
  | .access a :: rest => hostAccess a { s with inputs := rest }
  | .reset :: rest => .next (applyReset { s with inputs := rest })

/-- The state in which the engine has accepted `w` and has the next turn (R200; log 15). -/
def issueWord (w : Word) (s : State) : State := { s.accept w with inputs := .quiet :: s.inputs }

end Sys2Proof.Machine
end

