-- ==== Sys2Proof/Machine/Step.lean ====
section
/-! DEFINITION. One step of the machine, and how a command word is placed so that the next step runs it. -/

namespace Sys2Proof.Machine

/-- One step: `move` (Engine.lean). -/
def step (s : State) : Host.Outcome State Fault Refusal := Sys2Proof.Machine.move s

/-- `s` with a command word captured by the engine, whose turn is next (log 15). -/
def State.withFetchWord (s : State) (nbits w : Nat) : State :=
  Sys2Proof.Machine.issueWord (Sys2Proof.tableWord nbits w) s

end Sys2Proof.Machine
end

