-- ==== Sys2Proof/Machine/HostNotation.lean ====
section
/-! DEFINITION. The host notation of R100: its access and command statements, as entries of `inputs`. The host's own
control flow (`if`, `goto`, WAIT's branch) is not part of the block (R100). -/

namespace Sys2Proof.Machine

/-- The offset of a register a host statement names (R47); the reserved offsets are written by number. -/
def regOffset : Reg → Nat
  | .id => 0x00
  | .capr => 0x04
  | .ctrl => 0x08
  | .status => 0x0C
  | .cmd => 0x10
  | .clen => 0x14
  | .plen => 0x18
  | .hdr => 0x1C
  | .idx => 0x20
  | .bitv => 0x24
  | .reqLo => 0x28
  | .reqHi => 0x2C
  | .avail => 0x30
  | .pcapacity => 0x34
  | .reserved => 0x38

/-- The host address of a register. -/
def regAddr (r : Reg) : Word := BitVec.ofNat 32 (regOffset r)

/-- The host address of a buffer byte (R60). -/
def bufAddr (b : Buf) (a : Nat) : Word := BitVec.ofNat 32 (bufBase b + a)

/-- `WR <reg>, <imm32>`. -/
def hostWR (r : Reg) (w : Word) : Input := .access (.write 32 (regAddr r) w)

/-- `RD <reg>`. -/
def hostRD (r : Reg) : Input := .access (.read 32 (regAddr r))

/-- `WB B[<a>], <imm8>`. -/
def hostWB (b : Buf) (a : Nat) (v : Byte) : Input := .access (.write 8 (bufAddr b a) (v.setWidth 32))

/-- `RB B[<a>]`. -/
def hostRB (b : Buf) (a : Nat) : Input := .access (.read 8 (bufAddr b a))

/-- `WW B[<a>], <imm32>`. -/
def hostWW (b : Buf) (a : Nat) (w : Word) : Input := .access (.write 32 (bufAddr b a) w)

/-- `RW B[<a>]`. -/
def hostRW (b : Buf) (a : Nat) : Input := .access (.read 32 (bufAddr b a))

/-- A command statement: the command's word, written to CMD. -/
def hostCmd (i : Instr) : Input := hostWR .cmd (encode i)

/-- `FILL B, <a>, <n>, <imm8>`: `<n>` byte writes. -/
def hostFILL (b : Buf) (a n : Nat) (v : Byte) : List Input := (List.range n).map (fun i => hostWB b (a + i) v)

/-- `BYTES B, <a>, ...`: one byte write per byte, in order. -/
def hostBYTES (b : Buf) (a : Nat) (vs : List Byte) : List Input := vs.zipIdx.map (fun p => hostWB b (a + p.2) p.1)

/-- `DO <cmd>` as the block sees it, when the host's first look at STATUS comes after the completion: the command, the
engine's turn, and the STATUS read that sees BUSY = 0. -/
def hostDO (i : Instr) : List Input := [hostCmd i, .quiet, hostRD .status]

end Sys2Proof.Machine
end

