-- ==== Sys2Proof/Safety.lean ====
section
/-! DEFINITION. The terms claims use: a state that a machine of the spec can be in, and a run without host faults. -/

namespace Sys2Proof.Machine

/-- `32 ≤ CAP ≤ 2^28` (R7, D3). -/
abbrev State.capLegal (s : State) : Prop := 32 ≤ s.cap ∧ s.cap ≤ 2 ^ 28

/-- A buffer is in canonical form and lists no index outside the buffer (R42 to R44). -/
abbrev State.bufferLegal (s : State) (b : Buf) : Prop := (s.buffer b).wf ∧ (s.buffer b).within (s.bufSize b)

/-- What every state of the block satisfies: CAP in its range, the buffers canonical and inside their sizes, REQ no more
than the largest count (R16), NP_REASON set exactly beside NO_PAYLOAD (R30), DONE 0 while a command runs (R27). -/
structure State.Inv (s : State) : Prop where
  capLegal : s.capLegal
  inLegal : s.bufferLegal .inBuf
  outLegal : s.bufferLegal .outBuf
  pLegal : s.bufferLegal .pBuf
  reqBound : s.req.toNat ≤ 0x8FFFFFFF7
  reasonIff : s.npReason ≠ .none ↔ s.result = .noPayload
  busyNotDone : s.busy = true → s.done = false

/-- Every byte of buffer `b` in `[lo, hi)` has been written (R85). -/
def State.written (s : State) (b : Buf) (lo hi : Nat) : Prop :=
  ∀ a, lo ≤ a → a < hi → ∃ v, (s.buffer b).read a = some v

/-- No host fault has been recorded: the premise R114 and R219 ask a claim about a program to take. -/
abbrev State.clean (s : State) : Prop := s.misuse = []

/-! ### Terms of the statements, written from the rules and not from the meanings -/

/-- `(v & 0xFE) | b`: bits [7:1] of `v` kept, bit 0 taken from `b` (R71). -/
def withDataBit (v : Byte) (b : Bool) : Byte := (v &&& 0xFE#8) ||| (BitVec.ofBool b).setWidth 8

/-- The carrier a SEL value names: 0 is IN, 1 is OUT (R93). -/
def State.cb (s : State) : Sel → Memory
  | .input => s.inBuf
  | .output => s.outBuf

/-- The buffer a SEL value names (R93). -/
def cbBuf : Sel → Buf
  | .input => .inBuf
  | .output => .outBuf

/-- The carrier's positions 0 to 31 hold the header value `h`, most significant bit first (R67). -/
def CarriesHeader (m : Memory) (h : Word) : Prop :=
  ∀ i, i < 32 → ∃ v, m.read i = some v ∧ v.getLsbD 0 = h.getLsbD (31 - i)

/-- The carrier holds the bytes `p` from position `start` on, eight positions a byte, most significant bit first (R68). -/
def CarriesPayload (m : Memory) (start : Nat) (p : List Byte) : Prop :=
  ∀ j b, p[j]? = some b → ∀ k, k < 8 → ∃ v, m.read (start + 8 * j + k) = some v ∧ v.getLsbD 0 = b.getLsbD (7 - k)

/-- The rows of R171's table: the range of each byte of a well-formed sequence. -/
def utf8Rows : List (List (Byte × Byte)) :=
  [ [(0x00#8, 0x7F#8)],
    [(0xC2#8, 0xDF#8), (0x80#8, 0xBF#8)],
    [(0xE0#8, 0xE0#8), (0xA0#8, 0xBF#8), (0x80#8, 0xBF#8)],
    [(0xE1#8, 0xEC#8), (0x80#8, 0xBF#8), (0x80#8, 0xBF#8)],
    [(0xED#8, 0xED#8), (0x80#8, 0x9F#8), (0x80#8, 0xBF#8)],
    [(0xEE#8, 0xEF#8), (0x80#8, 0xBF#8), (0x80#8, 0xBF#8)],
    [(0xF0#8, 0xF0#8), (0x90#8, 0xBF#8), (0x80#8, 0xBF#8), (0x80#8, 0xBF#8)],
    [(0xF1#8, 0xF3#8), (0x80#8, 0xBF#8), (0x80#8, 0xBF#8), (0x80#8, 0xBF#8)],
    [(0xF4#8, 0xF4#8), (0x80#8, 0x8F#8), (0x80#8, 0xBF#8), (0x80#8, 0xBF#8)] ]

/-- A byte sequence fits a row: as many bytes, each in its range (R171). -/
def FitsRow (row : List (Byte × Byte)) (q : List Byte) : Prop :=
  List.Forall₂ (fun r b => r.1 ≤ b ∧ b ≤ r.2) row q

/-- The bytes form a sequence of well-formed code-unit sequences of the table (R171). -/
def WellFormedUtf8 (p : List Byte) : Prop :=
  ∃ seqs : List (List Byte), p = seqs.flatten ∧ ∀ q ∈ seqs, ∃ row ∈ utf8Rows, FitsRow row q

/-- An access of this width at this byte address is one the host port carries out (R60, R64, R65). -/
def LegalAccess (cap width a : Nat) : Prop :=
  (a < 0x1000 ∧ width = 32 ∧ a % 4 = 0) ∨
  (∃ base size, (base, size) ∈ [(0x10000000, cap), (0x20000000, cap), (0x30000000, cap / 8)] ∧ base ≤ a ∧
    a < base + size ∧ (width = 8 ∨ (width = 32 ∧ a % 4 = 0 ∧ a + 3 < base + size)))

/-- The width of an access. -/
def Access.width : Access → Nat
  | .read width _ => width
  | .write width _ _ => width

/-- The byte address of an access. -/
def Access.addr : Access → Word
  | .read _ addr => addr
  | .write _ addr _ => addr

/-- The access is a 32-bit write to the register at a byte offset (R64), and carries this word. -/
def Access.WritesReg (a : Access) (offset : Nat) (w : Word) : Prop := a = .write 32 (BitVec.ofNat 32 offset) w

/-- The access is a write that BUSY = 1 refuses (R240): to CMD, CLEN, PLEN, HDR or IDX, or to a buffer. -/
def Access.Refusable (cap : Nat) (a : Access) : Prop :=
  ∃ width addr w, a = .write width addr w ∧ LegalAccess cap width addr.toNat ∧
    (addr.toNat ∈ [0x10, 0x14, 0x18, 0x1C, 0x20] ∨ 0x1000 ≤ addr.toNat)

/-- It is the engine's turn: the outside world makes no move in this step (R211). -/
def State.engineMoves (s : State) : Prop := s.inputs = [] ∨ ∃ rest, s.inputs = .quiet :: rest

/-- A state is reached from another by some number of steps, all of them `next`. -/
inductive Reaches : State → State → Prop where
  | refl (s : State) : Reaches s s
  | step {s t u : State} (h : Sys2Proof.Machine.step s = .next t) (r : Reaches t u) : Reaches s u

end Sys2Proof.Machine
end

