-- ==== Sys2Proof/Certificates/Slice0/Obligations.lean ====
section
/-! DEFINITION. What is claimed of the model, one `def Obligations.<Name> : Prop` per entry of OBLIGATIONS.json. Each
docstring names the rules of spec/ it formalises. BUSY = 0 is written `engine := none` (log 8). -/

open Sys2Proof Sys2Proof.Machine

/-! ### Encoding -/

/-- R90, R91, R96: every word has at most one meaning, and every command exactly one word. -/
def Obligations.DecodeAndEncodeAgree : Prop :=
  ∀ (w : Word) (i : Instr), decode w = .ok i ↔ w = encode i

/-- R96: legal means exactly one matching row, the command's own; no word matches two rows. -/
def Obligations.LegalWordsMatchOneRow : Prop :=
  (∀ w : Word, (∃ i, decode w = .ok i) ↔ (opcodeTable.filter (fun r => r.accepts w)).length = 1) ∧
  (∀ w : Word, (opcodeTable.filter (fun r => r.accepts w)).length ≤ 1) ∧
  (∀ (w : Word) (i : Instr), decode w = .ok i →
    (opcodeTable.filter (fun r => r.accepts w)).map (fun r => r.mnemonic) = [i.mnemonic])

/-- R97: which words are illegal, by field; and such a word, written to CMD while BUSY = 0, is accepted and completes at
once with ILLEGAL_CMD, changing no register but STATUS and no buffer. -/
def Obligations.IllegalWordsCompleteAtOnce : Prop :=
  (∀ w : Word, (∃ e, decode w = .error e) ↔
    ((w.extractLsb' 0 4).toNat = 0 ∨ 10 ≤ (w.extractLsb' 0 4).toNat ∨ w.extractLsb' 5 3 ≠ 0#3 ∨
      w.extractLsb' 16 16 ≠ 0#16 ∨
      (w.extractLsb' 4 1 = 1#1 ∧ (w.extractLsb' 0 4).toNat ∉ [2, 4, 6, 9]) ∨
      (w.extractLsb' 8 8 ≠ 0#8 ∧ (w.extractLsb' 0 4).toNat ≠ 1))) ∧
  (∀ (w : Word) (s : State), (∃ e, decode w = .error e) → s.engine = none →
    s.inputs = [.access (.write 32 0x10#32 w)] →
    ∃ a m, step s = .next a ∧ a.engine = some w ∧
      step a = .next { s with
        inputs := [], response := some .written, result := .illegalCmd, npReason := .none,
        lastOp := w.extractLsb' 0 4, done := true, engine := none, misuse := m })

/-- A few words, each written out from the encodings of R96 and R100. -/
def Obligations.SampleWordsDecode : Prop :=
  decode 0x0000FF01#32 = .ok (.setbit 0xFF#8) ∧ decode 0x00000012#32 = .ok (.getbit .output) ∧
  decode 0x00000003#32 = .ok .hdrEnc ∧ decode 0x00000004#32 = .ok (.hdrDec .input) ∧
  decode 0x00000005#32 = .ok .payEnc ∧ decode 0x00000016#32 = .ok (.payDec .output) ∧
  decode 0x00000007#32 = .ok .copy ∧ decode 0x00000008#32 = .ok .encode ∧
  decode 0x00000019#32 = .ok (.decode .output) ∧ decode 0x00000018#32 = .error .selNotTaken

/-! ### The nine commands, with `CLEN ≤ CAP` (the second common check) -/

/-- R112: SETBIT. -/
def Obligations.SetbitWritesOneDataBit : Prop :=
  (∀ w : Word, w &&& 0xFFFF00FF#32 = 0x00000001#32 → decode w = .ok (.setbit (w.extractLsb' 8 8))) ∧
  ∀ (val : Byte) (s : State), s.clen.toNat ≤ s.cap →
    (s.clen.toNat ≤ s.idx.toNat → ∃ m, exec (.setbit val) s = .next { s with
      req := BitVec.ofNat 36 (s.idx.toNat + 1), avail := s.clen, result := .indexRange, npReason := .none,
      lastOp := 0x1#4, done := true, engine := none, misuse := m }) ∧
    (s.idx.toNat < s.clen.toNat → ∀ old, s.outBuf.read s.idx.toNat = some old →
      ∃ t, exec (.setbit val) s = .next t ∧
        t = { s with
          outBuf := t.outBuf, req := BitVec.ofNat 36 (s.idx.toNat + 1), avail := s.clen, result := .ok,
          npReason := .none, lastOp := 0x1#4, done := true, engine := none } ∧
        ∀ a, t.outBuf.read a =
          if a = s.idx.toNat then some ((old &&& 0xFE#8) ||| (val &&& 0x01#8)) else s.outBuf.read a) ∧
    (s.idx.toNat < s.clen.toNat → s.outBuf.read s.idx.toNat = none →
      exec (.setbit val) s = .fault (.uninitRead .outBuf s.idx.toNat))

/-- R113: GETBIT, from either carrier. -/
def Obligations.GetbitReadsOneDataBit : Prop :=
  (∀ w : Word, w &&& 0xFFFFFFEF#32 = 0x00000002#32 → decode w = .ok (.getbit (if w.getLsbD 4 then .output else .input))) ∧
  ∀ (sel : Sel) (s : State), s.clen.toNat ≤ s.cap →
    (s.clen.toNat ≤ s.idx.toNat → ∃ m, exec (.getbit sel) s = .next { s with
      req := BitVec.ofNat 36 (s.idx.toNat + 1), avail := s.clen, result := .indexRange, npReason := .none,
      lastOp := 0x2#4, done := true, engine := none, misuse := m }) ∧
    (s.idx.toNat < s.clen.toNat → ∀ v, (s.cb sel).read s.idx.toNat = some v →
      exec (.getbit sel) s = .next { s with
        bitv := BitVec.ofBool (v.getLsbD 0), req := BitVec.ofNat 36 (s.idx.toNat + 1), avail := s.clen,
        result := .ok, npReason := .none, lastOp := 0x2#4, done := true, engine := none }) ∧
    (s.idx.toNat < s.clen.toNat → (s.cb sel).read s.idx.toNat = none →
      exec (.getbit sel) s = .fault (.uninitRead (cbBuf sel) s.idx.toNat))

/-- R131: HDR_ENC. -/
def Obligations.HdrEncWritesTheHeaderBits : Prop :=
  (∀ w : Word, w &&& 0xFFFFFFFF#32 = 0x00000003#32 → decode w = .ok .hdrEnc) ∧
  ∀ s : State, s.clen.toNat ≤ s.cap →
    (s.clen.toNat < 32 → exec .hdrEnc s = .next { s with
      req := 32#36, avail := s.clen, result := .capacityExceeded, npReason := .none, lastOp := 0x3#4,
      done := true, engine := none }) ∧
    (32 ≤ s.clen.toNat → s.written .outBuf 0 32 →
      ∃ t, exec .hdrEnc s = .next t ∧
        t = { s with
          outBuf := t.outBuf, req := 32#36, avail := s.clen, result := .ok, npReason := .none, lastOp := 0x3#4,
          done := true, engine := none } ∧
        ∀ a, t.outBuf.read a =
          if a < 32 then (s.outBuf.read a).map (fun v => withDataBit v (s.hdr.getLsbD (31 - a)))
          else s.outBuf.read a) ∧
    (32 ≤ s.clen.toNat → ¬ s.written .outBuf 0 32 →
      ∃ a, a < 32 ∧ s.outBuf.read a = none ∧ exec .hdrEnc s = .fault (.uninitRead .outBuf a))

/-- R132: HDR_DEC, from either carrier. -/
def Obligations.HdrDecReadsTheHeaderBits : Prop :=
  (∀ w : Word, w &&& 0xFFFFFFEF#32 = 0x00000004#32 → decode w = .ok (.hdrDec (if w.getLsbD 4 then .output else .input))) ∧
  ∀ (sel : Sel) (s : State), s.clen.toNat ≤ s.cap →
    (s.clen.toNat < 32 → exec (.hdrDec sel) s = .next { s with
      req := 32#36, avail := s.clen, result := .noPayload, npReason := .short, lastOp := 0x4#4,
      done := true, engine := none }) ∧
    (32 ≤ s.clen.toNat → s.written (cbBuf sel) 0 32 →
      ∃ h, CarriesHeader (s.cb sel) h ∧ exec (.hdrDec sel) s = .next { s with
        hdr := h, req := 32#36, avail := s.clen, result := .ok, npReason := .none, lastOp := 0x4#4,
        done := true, engine := none }) ∧
    (32 ≤ s.clen.toNat → ¬ s.written (cbBuf sel) 0 32 →
      ∃ a, a < 32 ∧ (s.cb sel).read a = none ∧ exec (.hdrDec sel) s = .fault (.uninitRead (cbBuf sel) a))

/-- R151: PAY_ENC. -/
def Obligations.PayEncStripesTheBytes : Prop :=
  (∀ w : Word, w &&& 0xFFFFFFFF#32 = 0x00000005#32 → decode w = .ok .payEnc) ∧
  ∀ s : State, s.clen.toNat ≤ s.cap →
    (s.clen.toNat < s.idx.toNat + 8 * s.plen.toNat → exec .payEnc s = .next { s with
      req := BitVec.ofNat 36 (s.idx.toNat + 8 * s.plen.toNat), avail := s.clen, result := .capacityExceeded,
      npReason := .none, lastOp := 0x5#4, done := true, engine := none }) ∧
    (s.idx.toNat + 8 * s.plen.toNat ≤ s.clen.toNat → s.written .pBuf 0 s.plen.toNat →
      s.written .outBuf s.idx.toNat (s.idx.toNat + 8 * s.plen.toNat) →
      ∃ t, exec .payEnc s = .next t ∧
        t = { s with
          outBuf := t.outBuf, req := BitVec.ofNat 36 (s.idx.toNat + 8 * s.plen.toNat), avail := s.clen,
          result := .ok, npReason := .none, lastOp := 0x5#4, done := true, engine := none } ∧
        (∀ j k b old, j < s.plen.toNat → k < 8 → s.pBuf.read j = some b →
          s.outBuf.read (s.idx.toNat + 8 * j + k) = some old →
          t.outBuf.read (s.idx.toNat + 8 * j + k) = some (withDataBit old (b.getLsbD (7 - k)))) ∧
        ∀ a, a < s.idx.toNat ∨ s.idx.toNat + 8 * s.plen.toNat ≤ a → t.outBuf.read a = s.outBuf.read a) ∧
    (s.idx.toNat + 8 * s.plen.toNat ≤ s.clen.toNat →
      ¬ (s.written .pBuf 0 s.plen.toNat ∧
        s.written .outBuf s.idx.toNat (s.idx.toNat + 8 * s.plen.toNat)) →
      ∃ b a, (s.buffer b).read a = none ∧ exec .payEnc s = .fault (.uninitRead b a))

/-- R157: PAY_DEC, from either carrier. -/
def Obligations.PayDecReadsTheBytes : Prop :=
  (∀ w : Word, w &&& 0xFFFFFFEF#32 = 0x00000006#32 → decode w = .ok (.payDec (if w.getLsbD 4 then .output else .input))) ∧
  ∀ (sel : Sel) (s : State), s.clen.toNat ≤ s.cap →
    (s.clen.toNat < s.idx.toNat + 8 * s.plen.toNat → exec (.payDec sel) s = .next { s with
      req := BitVec.ofNat 36 (s.idx.toNat + 8 * s.plen.toNat), avail := s.clen, result := .noPayload,
      npReason := .length, lastOp := 0x6#4, done := true, engine := none }) ∧
    (s.idx.toNat + 8 * s.plen.toNat ≤ s.clen.toNat →
      s.written (cbBuf sel) s.idx.toNat (s.idx.toNat + 8 * s.plen.toNat) →
      ∃ t p, exec (.payDec sel) s = .next t ∧ p.length = s.plen.toNat ∧
        CarriesPayload (s.cb sel) s.idx.toNat p ∧
        t = { s with
          pBuf := t.pBuf, req := BitVec.ofNat 36 (s.idx.toNat + 8 * s.plen.toNat), avail := s.clen,
          result := .ok, npReason := .none, lastOp := 0x6#4, done := true, engine := none } ∧
        ∀ a, t.pBuf.read a = if a < s.plen.toNat then p[a]? else s.pBuf.read a) ∧
    (s.idx.toNat + 8 * s.plen.toNat ≤ s.clen.toNat →
      ¬ s.written (cbBuf sel) s.idx.toNat (s.idx.toNat + 8 * s.plen.toNat) →
      ∃ a, (s.cb sel).read a = none ∧ exec (.payDec sel) s = .fault (.uninitRead (cbBuf sel) a))

/-- R175: COPY. -/
def Obligations.CopyFillsThePrivateCopy : Prop :=
  (∀ w : Word, w &&& 0xFFFFFFFF#32 = 0x00000007#32 → decode w = .ok .copy) ∧
  ∀ s : State, s.clen.toNat ≤ s.cap →
    (s.written .inBuf 0 s.clen.toNat →
      ∃ t, exec .copy s = .next t ∧
        t = { s with
          outBuf := t.outBuf, result := .ok, npReason := .none, lastOp := 0x7#4, done := true, engine := none } ∧
        ∀ a, t.outBuf.read a = if a < s.clen.toNat then s.inBuf.read a else s.outBuf.read a) ∧
    (¬ s.written .inBuf 0 s.clen.toNat →
      ∃ a, a < s.clen.toNat ∧ s.inBuf.read a = none ∧ exec .copy s = .fault (.uninitRead .inBuf a))

/-- R181: ENCODE and its closed form. -/
def Obligations.EncodeEmbedsThePayload : Prop :=
  (∀ w : Word, w &&& 0xFFFFFFFF#32 = 0x00000008#32 → decode w = .ok .encode) ∧
  ∀ s : State, s.clen.toNat ≤ s.cap →
    (s.clen.toNat < 32 + 8 * s.plen.toNat → exec .encode s = .next { s with
      req := BitVec.ofNat 36 (32 + 8 * s.plen.toNat), avail := s.clen, result := .capacityExceeded,
      npReason := .none, lastOp := 0x8#4, done := true, engine := none }) ∧
    (32 + 8 * s.plen.toNat ≤ s.clen.toNat → s.written .inBuf 0 s.clen.toNat → s.written .pBuf 0 s.plen.toNat →
      ∃ t, exec .encode s = .next t ∧
        t = { s with
          outBuf := t.outBuf, req := BitVec.ofNat 36 (32 + 8 * s.plen.toNat), avail := s.clen, result := .ok,
          npReason := .none, lastOp := 0x8#4, done := true, engine := none } ∧
        (∀ i v, i < 32 → s.inBuf.read i = some v →
          t.outBuf.read i = some (withDataBit v (s.plen.getLsbD (31 - i)))) ∧
        (∀ j k b v, j < s.plen.toNat → k < 8 → s.pBuf.read j = some b →
          s.inBuf.read (32 + 8 * j + k) = some v →
          t.outBuf.read (32 + 8 * j + k) = some (withDataBit v (b.getLsbD (7 - k)))) ∧
        (∀ i, 32 + 8 * s.plen.toNat ≤ i → i < s.clen.toNat → t.outBuf.read i = s.inBuf.read i) ∧
        (∀ i, s.clen.toNat ≤ i → t.outBuf.read i = s.outBuf.read i)) ∧
    (32 + 8 * s.plen.toNat ≤ s.clen.toNat →
      ¬ (s.written .inBuf 0 s.clen.toNat ∧ s.written .pBuf 0 s.plen.toNat) →
      ∃ b a, (s.buffer b).read a = none ∧ exec .encode s = .fault (.uninitRead b a))

/-- R182: DECODE, from either carrier: each of its four ends, and the fault on an unwritten carrier byte. What counts as
UTF-8 is R171's table (log 22). -/
def Obligations.DecodeFindsOrReportsAbsence : Prop :=
  (∀ w : Word, w &&& 0xFFFFFFEF#32 = 0x00000009#32 → decode w = .ok (.decode (if w.getLsbD 4 then .output else .input))) ∧
  ∀ (sel : Sel) (s : State), s.clen.toNat ≤ s.cap →
    (s.clen.toNat < 32 → exec (.decode sel) s = .next { s with
      plen := 0#32, req := 32#36, avail := s.clen, result := .noPayload, npReason := .short, lastOp := 0x9#4,
      done := true, engine := none }) ∧
    (32 ≤ s.clen.toNat → ∀ len, CarriesHeader (s.cb sel) len →
      (s.clen.toNat < 32 + 8 * len.toNat → exec (.decode sel) s = .next { s with
        hdr := len, plen := 0#32, req := BitVec.ofNat 36 (32 + 8 * len.toNat), avail := s.clen,
        result := .noPayload, npReason := .length, lastOp := 0x9#4, done := true, engine := none }) ∧
      (32 + 8 * len.toNat ≤ s.clen.toNat → ∀ p : List Byte, p.length = len.toNat →
        CarriesPayload (s.cb sel) 32 p →
        (WellFormedUtf8 p → ∃ t, exec (.decode sel) s = .next t ∧
          t = { s with
            hdr := len, plen := len, pBuf := t.pBuf, req := BitVec.ofNat 36 (32 + 8 * len.toNat),
            avail := s.clen, result := .ok, npReason := .none, lastOp := 0x9#4, done := true, engine := none } ∧
          ∀ a, t.pBuf.read a = if a < len.toNat then p[a]? else s.pBuf.read a) ∧
        (¬ WellFormedUtf8 p → ∃ t, exec (.decode sel) s = .next t ∧
          t = { s with
            hdr := len, plen := 0#32, pBuf := t.pBuf, req := BitVec.ofNat 36 (32 + 8 * len.toNat),
            avail := s.clen, result := .noPayload, npReason := .utf8, lastOp := 0x9#4, done := true,
            engine := none, draws := t.draws } ∧
          (∀ a, len.toNat ≤ a → t.pBuf.read a = s.pBuf.read a))) ∧
      (32 + 8 * len.toNat ≤ s.clen.toNat → ¬ s.written (cbBuf sel) 32 (32 + 8 * len.toNat) →
        ∃ a, (s.cb sel).read a = none ∧ exec (.decode sel) s = .fault (.uninitRead (cbBuf sel) a))) ∧
    (32 ≤ s.clen.toNat → ¬ s.written (cbBuf sel) 0 32 →
      ∃ a, a < 32 ∧ (s.cb sel).read a = none ∧ exec (.decode sel) s = .fault (.uninitRead (cbBuf sel) a))

/-! ### Rules over all commands -/

/-- R203: BAD_LENGTH, for every command. -/
def Obligations.TooLongCarrierIsBadLength : Prop :=
  ∀ (i : Instr) (s : State), s.cap < s.clen.toNat → ∃ m, exec i s = .next { s with
    result := .badLength, npReason := .none, lastOp := (encode i).extractLsb' 0 4, done := true, engine := none,
    misuse := m }

/-- The record of host faults that R114 and R219 ask for, in the form this model gives it (log 1). -/
def Obligations.HostFaultsAreRecorded : Prop :=
  ∀ (w : Word) (s t : State), runWord w s = .next t →
    (t.result = .indexRange → t.misuse = .indexRange s.idx s.clen :: s.misuse) ∧
    (t.result = .badLength → t.misuse = .badLength s.clen :: s.misuse) ∧
    (t.result = .illegalCmd → t.misuse = .illegalCmd w :: s.misuse) ∧
    (t.result = .ok ∨ t.result = .capacityExceeded ∨ t.result = .noPayload → t.misuse = s.misuse)

/-- R204: the results a command can produce, apart from BAD_LENGTH, are exactly those of the table, and each of them
can be produced. -/
def Obligations.ResultsAreThoseOfTheTable : Prop :=
  ∀ (i : Instr) (c : ResultCode) (r : NpReason),
    (∃ s t : State, s.clen.toNat ≤ s.cap ∧ exec i s = .next t ∧ t.result = c ∧ t.npReason = r) ↔
      (c, r) ∈ (match i with
        | .setbit _ | .getbit _ => [(.ok, .none), (.indexRange, .none)]
        | .hdrEnc | .payEnc | .encode => [(.ok, .none), (.capacityExceeded, .none)]
        | .hdrDec _ => [(.ok, .none), (.noPayload, .short)]
        | .payDec _ => [(.ok, .none), (.noPayload, .length)]
        | .copy => [(.ok, .none)]
        | .decode _ => [(.ok, .none), (.noPayload, .short), (.noPayload, .length), (.noPayload, .utf8)]
        : List (ResultCode × NpReason))

/-- R207: a failing word writes no buffer byte, but for PBUF below L after reason UTF8. -/
def Obligations.FailingChecksComeBeforeWrites : Prop :=
  ∀ (w : Word) (s t : State), runWord w s = .next t → t.result ≠ .ok →
    t.inBuf = s.inBuf ∧ t.outBuf = s.outBuf ∧ (t.npReason ≠ .utf8 → t.pBuf = s.pBuf) ∧
    (t.npReason = .utf8 → ∀ a, t.hdr.toNat ≤ a → t.pBuf.read a = s.pBuf.read a)

/-- R205: what completion writes, with OVERRUN unchanged and `irq` following DONE and IE. -/
def Obligations.CompletionWritesStatus : Prop :=
  ∀ (w : Word) (s t : State), runWord w s = .next t →
    t.result ≠ .none ∧ (t.npReason ≠ .none ↔ t.result = .noPayload) ∧ t.lastOp = w.extractLsb' 0 4 ∧
    t.done = true ∧ t.busy = false ∧ t.overrun = s.overrun ∧ t.irq = s.ie

/-- R45: no command writes IN; DECODE writes neither carrier. -/
def Obligations.NoCommandWritesIn : Prop :=
  ∀ (i : Instr) (s t : State), exec i s = .next t →
    t.inBuf = s.inBuf ∧ (∀ sel, i = .decode sel → t.outBuf = s.outBuf)

/-- The frame of every command over the registers no command writes (R34, R37, R45, R205) and the host's side. -/
def Obligations.CommandsKeepTheHostRegisters : Prop :=
  ∀ (w : Word) (s t : State), runWord w s = .next t →
    t.cap = s.cap ∧ t.ie = s.ie ∧ t.overrun = s.overrun ∧ t.clen = s.clen ∧ t.idx = s.idx ∧ t.inBuf = s.inBuf ∧
    t.response = s.response ∧ t.inputs = s.inputs

/-- The writes column of R99: a register or buffer changes only under the commands and results it lists. -/
def Obligations.OnlyListedCommandsWrite : Prop :=
  ∀ (i : Instr) (s t : State), exec i s = .next t →
    (t.bitv ≠ s.bitv → (∃ sel, i = .getbit sel) ∧ t.result = .ok) ∧
    (t.hdr ≠ s.hdr → ((∃ sel, i = .hdrDec sel) ∧ t.result = .ok) ∨
      ((∃ sel, i = .decode sel) ∧ 32 ≤ s.clen.toNat ∧ t.result ≠ .badLength)) ∧
    (t.plen ≠ s.plen → (∃ sel, i = .decode sel) ∧ t.result ≠ .badLength) ∧
    (t.req ≠ s.req ∨ t.avail ≠ s.avail → i ≠ .copy ∧ t.result ≠ .badLength) ∧
    (t.outBuf ≠ s.outBuf → t.result = .ok ∧
      ((∃ val, i = .setbit val) ∨ i = .hdrEnc ∨ i = .payEnc ∨ i = .copy ∨ i = .encode)) ∧
    (t.pBuf ≠ s.pBuf → ((∃ sel, i = .payDec sel) ∧ t.result = .ok) ∨
      ((∃ sel, i = .decode sel) ∧ (t.result = .ok ∨ t.npReason = .utf8)))

/-- R39, R40: what each range-checking command writes to REQ, exactly, and to AVAIL, whatever its result. -/
def Obligations.RequiredAndAvailableAreExact : Prop :=
  ∀ (i : Instr) (s t : State), exec i s = .next t →
    (s.cap < s.clen.toNat ∨ i = .copy → t.req = s.req ∧ t.avail = s.avail) ∧
    (s.clen.toNat ≤ s.cap → i ≠ .copy → t.avail = s.clen ∧ t.req.toNat = (match i with
      | .setbit _ | .getbit _ => s.idx.toNat + 1
      | .hdrEnc | .hdrDec _ => 32
      | .payEnc | .payDec _ => s.idx.toNat + 8 * s.plen.toNat
      | .encode => 32 + 8 * s.plen.toNat
      | .decode _ => if s.clen.toNat < 32 then 32 else 32 + 8 * t.hdr.toNat
      | .copy => t.req.toNat)) ∧
    t.regValue .reqLo = BitVec.ofNat 32 (t.req.toNat % 2 ^ 32) ∧
    t.regValue .reqHi = BitVec.ofNat 32 (t.req.toNat / 2 ^ 32)

/-- R71, R110: bits [7:1] of OUT are never changed by an LSB write, and after COPY and ENCODE are IN's; R43: bytes at
CLEN and above are never written. -/
def Obligations.OnlyDataBitsOfOutChange : Prop :=
  ∀ (i : Instr) (s t : State), exec i s = .next t →
    (∀ a, s.clen.toNat ≤ a → t.outBuf.read a = s.outBuf.read a) ∧
    (i ≠ .copy → i ≠ .encode →
      ∀ a, (t.outBuf.read a).map (fun v => v &&& 0xFE#8) = (s.outBuf.read a).map (fun v => v &&& 0xFE#8)) ∧
    (i = .copy ∨ i = .encode → t.result = .ok → ∀ a, a < s.clen.toNat →
      (t.outBuf.read a).map (fun v => v &&& 0xFE#8) = (s.inBuf.read a).map (fun v => v &&& 0xFE#8))

/-- R85, R61: a captured word completes, or stops on an unwritten byte that lies inside its buffer's reach: below CLEN
in a carrier, below `floor(CAP / 8)` in PBUF. Nothing else stops it. -/
def Obligations.OnlyAnUnwrittenByteStopsTheEngine : Prop :=
  ∀ (w : Word) (s : State), (∃ t, runWord w s = .next t) ∨
    ∃ b a, runWord w s = .fault (.uninitRead b a) ∧ (s.buffer b).read a = none ∧
      (b ≠ .pBuf → a < s.clen.toNat) ∧ (b = .pBuf → a < s.cap / 8)

/-- R26, R246: with its buffers written, every captured word completes in the engine's one turn, and BUSY is 0. -/
def Obligations.WrittenBuffersLetEveryWordComplete : Prop :=
  ∀ (w : Word) (s : State), s.engine = some w → s.engineMoves →
    s.written .inBuf 0 s.clen.toNat → s.written .outBuf 0 s.clen.toNat → s.written .pBuf 0 (s.cap / 8) →
    ∃ t, step s = .next t ∧ t.busy = false ∧ t.done = true

/-- R17: a command's effect does not depend on what earlier commands left in STATUS, nor on CTRL or the host's side; it
carries them over, but for what completion writes. After DECODE with reason UTF8 the two runs agree on the unspecified
bytes of PBUF too. That is the model's choice and no rule (R18, R186): both draw the same free bytes (log 5, log 19). -/
def Obligations.CommandsAreStateless : Prop :=
  ∀ (i : Instr) (s t : State) (ie done overrun : Bool) (result : ResultCode) (reason : NpReason) (op : BitVec 4)
    (engine : Option Word) (response : Option Response) (inputs : List Input),
    exec i s = .next t →
    exec i { s with
      ie := ie, done := done, overrun := overrun, result := result, npReason := reason, lastOp := op,
      engine := engine, response := response, inputs := inputs } =
    .next { t with ie := ie, overrun := overrun, response := response, inputs := inputs }

/-! ### The laws the spec states -/

/-- R115: the five laws of the bit accessor. -/
def Obligations.BitAccessorLaws : Prop :=
  ∀ (m m' : Memory) (p : Nat) (v : Byte), setbit m p v = .ok m' →
    getbit .outBuf m' p = .ok (v &&& 0x01#8) ∧
    (∀ g, getbit .outBuf m p = .ok g → ∃ n, setbit m p g = .ok n ∧ ∀ a, n.read a = m.read a) ∧
    (∀ w n, setbit m' p w = .ok n → ∃ n', setbit m p w = .ok n' ∧ ∀ a, n.read a = n'.read a) ∧
    (∀ i, 1 ≤ i → (m'.read p).map (fun b => b.getLsbD i) = (m.read p).map (fun b => b.getLsbD i)) ∧
    (∀ q, q ≠ p → m'.read q = m.read q)

/-- R134: HDR_ENC then HDR_DEC with SEL = 1 yields the same header, from any later state with that OUT and CLEN. -/
def Obligations.HeaderRoundTrip : Prop :=
  ∀ s : State, 32 ≤ s.clen.toNat → s.clen.toNat ≤ s.cap → s.written .outBuf 0 32 →
    ∃ t, exec .hdrEnc s = .next t ∧ t.result = .ok ∧
      (∀ a, 32 ≤ a → t.outBuf.read a = s.outBuf.read a) ∧
      (∀ a i, 1 ≤ i → (t.outBuf.read a).map (fun v => v.getLsbD i) = (s.outBuf.read a).map (fun v => v.getLsbD i)) ∧
      ∀ u : State, u.outBuf = t.outBuf → u.clen = s.clen → u.cap = s.cap →
        ∃ v, exec (.hdrDec .output) u = .next v ∧ v.result = .ok ∧ v.hdr = s.hdr

/-- R158: PAY_ENC then PAY_DEC with SEL = 1, the same start, length and CLEN gives the payload back, whatever its
bytes and whatever PBUF holds in between. -/
def Obligations.RawPayloadRoundTrip : Prop :=
  ∀ s : State, s.idx.toNat + 8 * s.plen.toNat ≤ s.clen.toNat → s.clen.toNat ≤ s.cap →
    s.written .pBuf 0 s.plen.toNat → s.written .outBuf s.idx.toNat (s.idx.toNat + 8 * s.plen.toNat) →
    ∃ t, exec .payEnc s = .next t ∧ t.result = .ok ∧
      ∀ u : State, u.outBuf = t.outBuf → u.clen = s.clen → u.cap = s.cap → u.idx = s.idx → u.plen = s.plen →
        ∃ v, exec (.payDec .output) u = .next v ∧ v.result = .ok ∧
          ∀ j, j < s.plen.toNat → v.pBuf.read j = s.pBuf.read j

/-- R187: decode of encode gives the payload back, for every valid UTF-8 payload that fits. What counts as valid is
R171's table, which the spec itself takes from general knowledge (log 22). -/
def Obligations.EncodeThenDecodeRoundTrip : Prop :=
  ∀ (s : State) (p : List Byte), WellFormedUtf8 p → p.length = s.plen.toNat →
    (∀ j b, p[j]? = some b → s.pBuf.read j = some b) → 32 + 8 * s.plen.toNat ≤ s.clen.toNat →
    s.clen.toNat ≤ s.cap → s.written .inBuf 0 s.clen.toNat →
    ∃ t, exec .encode s = .next t ∧ t.result = .ok ∧
      ∀ u : State, u.outBuf = t.outBuf → u.clen = s.clen → u.cap = s.cap →
        ∃ v, exec (.decode .output) u = .next v ∧ v.result = .ok ∧ v.plen = s.plen ∧
          ∀ j b, p[j]? = some b → v.pBuf.read j = some b

/-- R192, first half: ENCODE is COPY, then HDR_ENC with HDR = PLEN, then PAY_ENC with IDX = 32; only LAST_OP, HDR and
IDX end different. -/
def Obligations.EncodeIsCopyHeaderPayload : Prop :=
  ∀ s t : State, 32 + 8 * s.plen.toNat ≤ s.clen.toNat → s.clen.toNat ≤ s.cap → exec .encode s = .next t →
    ∃ a b, exec .copy s = .next a ∧ exec .hdrEnc { a with hdr := s.plen } = .next b ∧
      exec .payEnc { b with idx := 32#32 } = .next { t with lastOp := 0x5#4, hdr := s.plen, idx := 32#32 }

/-- R192, second half: DECODE is HDR_DEC, the length check, PAY_DEC with IDX = 32 and PLEN = HDR, and the UTF-8 check
of the bytes PAY_DEC left, by R171's table, which the spec itself takes from general knowledge (log 22). -/
def Obligations.DecodeIsHeaderCheckPayload : Prop :=
  ∀ (sel : Sel) (s t a : State), 32 ≤ s.clen.toNat → s.clen.toNat ≤ s.cap → exec (.decode sel) s = .next t →
    exec (.hdrDec sel) s = .next a →
    t.hdr = a.hdr ∧
    (s.clen.toNat < 32 + 8 * a.hdr.toNat → t.result = .noPayload ∧ t.npReason = .length) ∧
    (32 + 8 * a.hdr.toNat ≤ s.clen.toNat →
      ∃ b p, exec (.payDec sel) { a with idx := 32#32, plen := a.hdr } = .next b ∧ p.length = a.hdr.toNat ∧
        (∀ j, j < p.length → b.pBuf.read j = p[j]?) ∧
        (WellFormedUtf8 p → t = { b with lastOp := 0x9#4, idx := s.idx }) ∧
        (¬ WellFormedUtf8 p → t.result = .noPayload ∧ t.npReason = .utf8 ∧ t.plen = 0#32))

/-- R189: DECODE's result depends on no carrier byte at or above `32 + 8L` and on bit 0 only of those below, nor on
CLEN as long as the message still fits. In the UTF8 case the two runs agree on the unspecified bytes of PBUF below `L` and
on the draw counter too. That is the model's choice and no rule (R186): both draw the same free bytes (log 5, log 19). -/
def Obligations.TrailingRegionDoesNotInterfere : Prop :=
  ∀ (sel : Sel) (s t u : State), exec (.decode sel) s = .next t → (t.result = .ok ∨ t.npReason = .utf8) →
    u = { s with inBuf := u.inBuf, outBuf := u.outBuf, clen := u.clen } →
    32 + 8 * t.hdr.toNat ≤ u.clen.toNat → u.clen.toNat ≤ u.cap →
    (∀ a, a < 32 + 8 * t.hdr.toNat →
      ((u.cb sel).read a).map (fun v => v.getLsbD 0) = ((s.cb sel).read a).map (fun v => v.getLsbD 0)) →
    exec (.decode sel) u = .next { t with
      inBuf := u.inBuf, outBuf := u.outBuf, clen := u.clen, avail := u.clen }

/-- R190: DECODE writes no carrier, and a second DECODE of the same carrier, CLEN and SEL reports the same. -/
def Obligations.DecodeTwiceReportsTheSame : Prop :=
  ∀ (sel : Sel) (s t u : State), s.clen.toNat ≤ s.cap → exec (.decode sel) s = .next t →
    u.cb sel = t.cb sel → u.clen = t.clen → u.cap = t.cap → u.hdr = t.hdr →
    t.inBuf = s.inBuf ∧ t.outBuf = s.outBuf ∧
    ∃ v, exec (.decode sel) u = .next v ∧ v.result = t.result ∧ v.npReason = t.npReason ∧ v.hdr = t.hdr ∧
      v.plen = t.plen ∧ v.req = t.req ∧ v.avail = t.avail ∧
      (t.result = .ok → ∀ j, j < t.plen.toNat → v.pBuf.read j = t.pBuf.read j)

/-- R188: the capacity boundary of ENCODE. -/
def Obligations.EncodeCapacityBoundary : Prop :=
  ∀ s : State, s.clen.toNat ≤ s.cap →
    (s.clen.toNat = 32 + 8 * s.plen.toNat → s.written .inBuf 0 s.clen.toNat → s.written .pBuf 0 s.plen.toNat →
      ∃ t, exec .encode s = .next t ∧ t.result = .ok) ∧
    (s.clen.toNat + 1 = 32 + 8 * s.plen.toNat →
      ∃ t, exec .encode s = .next t ∧ t.result = .capacityExceeded ∧
        t.req.toNat = 32 + 8 * s.plen.toNat ∧ t.avail.toNat = 32 + 8 * s.plen.toNat - 1)

/-- R171: the check DECODE makes is well-formedness by the table of byte ranges, which the spec itself takes from
general knowledge (log 22). -/
def Obligations.Utf8CheckIsTheTable : Prop :=
  ∀ p : List Byte, utf8Valid p = true ↔ WellFormedUtf8 p

/-! ### The host port -/

/-- R200: acceptance of a word. -/
def Obligations.AcceptanceCapturesTheWord : Prop :=
  ∀ (w : Word) (s : State),
    (s.busy = false → hostAccess (.write 32 0x10#32 w) s =
      .next { s with engine := some w, done := false, response := some .written }) ∧
    (s.busy = true → ∃ t, hostAccess (.write 32 0x10#32 w) s = .next t ∧ t.engine = s.engine ∧ t.done = s.done)

/-- R240: the writes refused while BUSY = 1, answered OK, dropped, with OVERRUN set; and those that stay allowed. -/
def Obligations.BusyRefusesWrites : Prop :=
  ∀ (width : Nat) (addr w : Word) (s : State), s.busy = true → s.cap ≤ 2 ^ 28 →
    LegalAccess s.cap width addr.toNat →
    (addr.toNat ∈ [0x10, 0x14, 0x18, 0x1C, 0x20] ∨ 0x1000 ≤ addr.toNat →
      hostAccess (.write width addr w) s = .next { s with overrun := true, response := some .written }) ∧
    (addr.toNat = 0x0C → hostAccess (.write width addr w) s = .next { s with
      done := s.done && !w.getLsbD 1, overrun := s.overrun && !w.getLsbD 2, response := some .written }) ∧
    (addr.toNat = 0x08 → hostAccess (.write width addr w) s = .next { s with
      ie := w.getLsbD 0, response := some .written }) ∧
    (addr.toNat < 0x1000 → addr.toNat ∉ [0x08, 0x0C, 0x10, 0x14, 0x18, 0x1C, 0x20] →
      hostAccess (.write width addr w) s = .next { s with response := some .written })

/-- R241: while BUSY = 1, a read of PLEN, HDR, BITV, REQ_LO, REQ_HI, AVAIL, or of a byte or word of OUT or PBUF, is
answered with a value that does not depend on the state but for the model's draw counter (log 5, log 6); it changes
nothing else. An unwritten byte of OUT or PBUF is answered so too: R85 would have a fault there and R241 a draw, and the
model takes the draw (log 7). -/
def Obligations.BusyReadsTellNothing : Prop :=
  ∀ (width : Nat) (addr : Word) (cap draws : Nat), cap ≤ 2 ^ 28 → LegalAccess cap width addr.toNat →
    addr.toNat ∈ [0x18, 0x1C, 0x24, 0x28, 0x2C, 0x30] ∨ 0x20000000 ≤ addr.toNat →
    ∃ r d, ∀ s : State, s.busy = true → s.cap = cap → s.draws = draws →
      hostAccess (.read width addr) s = .next { s with response := some (.data r), draws := d }

/-- R47 and the rules of each register: what a host read of a register answers, when BUSY = 0 or the register is one no
command writes (R241); the read changes nothing but the response (R74). -/
def Obligations.RegisterReadsAnswer : Prop :=
  ∀ (s : State) (offset : Nat) (value : Word), offset < 0x1000 → offset % 4 = 0 →
    (s.busy = false ∨ offset ∉ [0x18, 0x1C, 0x24, 0x28, 0x2C, 0x30]) →
    value = (if offset = 0x00 then 0x4C534231#32
      else if offset = 0x04 then BitVec.ofNat 32 s.cap
      else if offset = 0x08 then BitVec.ofNat 32 s.ie.toNat
      else if offset = 0x0C then BitVec.ofNat 32 (s.busy.toNat + 2 * s.done.toNat + 4 * s.overrun.toNat +
        16 * s.result.code.toNat + 256 * s.npReason.code.toNat + 4096 * s.lastOp.toNat)
      else if offset = 0x14 then s.clen
      else if offset = 0x18 then s.plen
      else if offset = 0x1C then s.hdr
      else if offset = 0x20 then s.idx
      else if offset = 0x24 then BitVec.ofNat 32 s.bitv.toNat
      else if offset = 0x28 then BitVec.ofNat 32 (s.req.toNat % 2 ^ 32)
      else if offset = 0x2C then BitVec.ofNat 32 (s.req.toNat / 2 ^ 32)
      else if offset = 0x30 then s.avail
      else if offset = 0x34 then BitVec.ofNat 32 ((s.clen.toNat - 32) / 8)
      else 0#32) →
    hostAccess (.read 32 (BitVec.ofNat 32 offset)) s = .next { s with response := some (.data value) }

/-- R24, R25, R34 to R37, R41, R75: what a host write to each register does while BUSY = 0. -/
def Obligations.RegisterWritesTakeEffect : Prop :=
  ∀ (s : State) (w : Word), s.busy = false →
    hostAccess (.write 32 0x14#32 w) s = .next { s with clen := w, response := some .written } ∧
    hostAccess (.write 32 0x18#32 w) s = .next { s with plen := w, response := some .written } ∧
    hostAccess (.write 32 0x1C#32 w) s = .next { s with hdr := w, response := some .written } ∧
    hostAccess (.write 32 0x20#32 w) s = .next { s with idx := w, response := some .written } ∧
    hostAccess (.write 32 0x08#32 w) s = .next { s with ie := w.getLsbD 0, response := some .written } ∧
    hostAccess (.write 32 0x0C#32 w) s = .next { s with
      done := s.done && !w.getLsbD 1, overrun := s.overrun && !w.getLsbD 2, response := some .written } ∧
    ∀ offset, offset < 0x1000 → offset % 4 = 0 → offset ∉ [0x08, 0x0C, 0x10, 0x14, 0x18, 0x1C, 0x20] →
      hostAccess (.write 32 (BitVec.ofNat 32 offset) w) s = .next { s with response := some .written }

/-- R63, R64, R65: an access of another width, misaligned, outside its window or unmapped is answered ERR with
rdata 0 and has no effect; a legal one is never answered ERR. While BUSY = 1 an illegal buffer write falls under R240 too:
that it is answered ERR and keeps OVERRUN is the model's reading (log 13). -/
def Obligations.IllegalAccessesAreAnsweredErr : Prop :=
  ∀ (a : Access) (s : State), s.cap ≤ 2 ^ 28 →
    (¬ LegalAccess s.cap a.width a.addr.toNat → hostAccess a s = .next { s with response := some (.err 0#32) }) ∧
    (LegalAccess s.cap a.width a.addr.toNat → ∀ t, hostAccess a s = .next t →
      ∃ r, t.response = some r ∧ ∀ rdata, r ≠ .err rdata)

/-- R60, R65, R66, R241: buffer writes while BUSY = 0, and reads of a buffer while BUSY = 0 and of IN at any time, with
their byte lanes. That an 8-bit access carries its byte in bits [7:0] of a 32-bit value, the rest 0 in a read's, is the
model's choice: the spec gives it no place (log 9). -/
def Obligations.BufferAccessesUseLittleEndianLanes : Prop :=
  ∀ (s : State) (b : Buf) (i : Nat) (w : Word), s.cap ≤ 2 ^ 28 →
    (s.busy = false → i < s.bufSize b → ∃ t, hostAccess (.write 8 (BitVec.ofNat 32 (bufBase b + i)) w) s = .next t ∧
      t = { s.setBuffer b (t.buffer b) with response := some .written } ∧
      ∀ a, (t.buffer b).read a = if a = i then some (w.extractLsb' 0 8) else (s.buffer b).read a) ∧
    (s.busy = false ∨ b = .inBuf → i < s.bufSize b → ∀ v, (s.buffer b).read i = some v →
      hostAccess (.read 8 (BitVec.ofNat 32 (bufBase b + i))) s =
        .next { s with response := some (.data (v.setWidth 32)) }) ∧
    (s.busy = false → i % 4 = 0 → i + 3 < s.bufSize b →
      ∃ t, hostAccess (.write 32 (BitVec.ofNat 32 (bufBase b + i)) w) s = .next t ∧
        t = { s.setBuffer b (t.buffer b) with response := some .written } ∧
        ∀ a, (t.buffer b).read a =
          if i ≤ a ∧ a < i + 4 then some (w.extractLsb' (8 * (a - i)) 8) else (s.buffer b).read a) ∧
    (s.busy = false ∨ b = .inBuf → i % 4 = 0 → i + 3 < s.bufSize b →
      (∀ n, n < 4 → (s.buffer b).read (i + n) = some (w.extractLsb' (8 * n) 8)) →
      hostAccess (.read 32 (BitVec.ofNat 32 (bufBase b + i))) s = .next { s with response := some (.data w) })

/-- R85: a host read of an unwritten byte is UNINIT_READ, unless R241 leaves its value open. -/
def Obligations.HostReadOfUnwrittenByteFaults : Prop :=
  ∀ (s : State) (b : Buf) (i : Nat), s.cap ≤ 2 ^ 28 → (s.busy = false ∨ b = .inBuf) → i < s.bufSize b →
    (s.buffer b).read i = none →
    hostAccess (.read 8 (BitVec.ofNat 32 (bufBase b + i))) s = .fault (.uninitRead b i) ∧
    (∀ n, n < 4 → (i - n) % 4 = 0 → n ≤ i → i - n + 3 < s.bufSize b →
      ∃ a, (s.buffer b).read a = none ∧
        hostAccess (.read 32 (BitVec.ofNat 32 (bufBase b + (i - n)))) s = .fault (.uninitRead b a))

/-- R74: no host read has a side effect: it changes no register and no buffer. -/
def Obligations.HostReadsHaveNoSideEffect : Prop :=
  ∀ (width : Nat) (addr : Word) (s t : State), hostAccess (.read width addr) s = .next t →
    t = { s with response := t.response, draws := t.draws } ∧ (s.busy = false → t.draws = s.draws)

/-! ### The machine's steps -/

/-- A step runs the command the captured word decodes to, when it is the engine's turn (R200, R202, R211). Whose turn it
is, is the model's schedule (log 2), and `withFetchWord` is log 15. That an idle engine's turn keeps all but the pending moves
is read from R218 (log 20). -/
def Obligations.StepRunsTheCapturedCommand : Prop :=
  (∀ (s : State) (w : Word) (i : Instr), s.engine = some w → decode w = .ok i →
    (s.inputs = [] → step s = exec i s) ∧
    (∀ rest, s.inputs = .quiet :: rest → step s = exec i { s with inputs := rest })) ∧
  (∀ (s : State) (i : Instr), step (s.withFetchWord 32 (encode i).toNat) =
    exec i { s with engine := some (encode i), done := false }) ∧
  (∀ (s : State) (a : Access) (rest : List Input), s.inputs = .access a :: rest →
    step s = hostAccess a { s with inputs := rest }) ∧
  (∀ s : State, s.engine = none → s.engineMoves → step s = .next { s with inputs := s.inputs.tail })

/-- R48, R231, R232: the state after reset, as the host sees it. -/
def Obligations.ResetStateReads : Prop :=
  State.reset.regValue .id = 0x4C534231#32 ∧ State.reset.regValue .capr = BitVec.ofNat 32 Config.cap ∧
  (∀ r, r ∈ [Reg.ctrl, .status, .cmd, .clen, .plen, .hdr, .idx, .bitv, .reqLo, .reqHi, .avail, .pcapacity, .reserved] →
    State.reset.regValue r = 0#32) ∧
  (∀ b a, (State.reset.buffer b).read a = none) ∧ State.reset.engine = none ∧ State.reset.irq = false ∧
  32 ≤ Config.cap ∧ Config.cap ≤ 2 ^ 28

/-- R230, R231: the reset input, from any state, with any command in progress. What the outside world does next, the
record of host faults and the draw counter are the model's own and go on (log 11). That the last response is cleared to
none is the model's choice and no rule (log 9, log 11). -/
def Obligations.ResetInputDropsTheCommand : Prop :=
  ∀ (s : State) (rest : List Input), s.inputs = .reset :: rest →
    step s = .next { State.reset with cap := s.cap, inputs := rest, misuse := s.misuse, draws := s.draws }

/-- The invariant holds after reset. -/
def Obligations.ResetMeetsTheInvariant : Prop := State.reset.Inv

/-- Every step keeps the invariant: CAP in range, buffers canonical and inside their sizes, REQ within its largest value,
NP_REASON beside NO_PAYLOAD only, DONE 0 while BUSY. -/
def Obligations.EveryStepKeepsTheInvariant : Prop :=
  ∀ s t : State, s.Inv → step s = .next t → t.Inv

/-- R26, R200, R205: when BUSY rises and falls. Reset drops the command (R48, R230), and an access answered ERR issues none
(R63). That an idle engine's turn keeps BUSY 0 is read from R218 (log 20). -/
def Obligations.BusyRisesAndFalls : Prop :=
  State.reset.busy = false ∧ ∀ s t : State, step s = .next t →
    (s.busy = false → (t.busy = true ↔ ∃ w rest, s.inputs = .access (.write 32 0x10#32 w) :: rest)) ∧
    (s.busy = true → (t.busy = false ↔ s.engineMoves ∨ ∃ rest, s.inputs = .reset :: rest))

/-- R27, R200, R205: when DONE is set and cleared. Reset clears it (R48, R230), a refused write to CMD keeps it (R240), and
so does an access answered ERR or a read (R63, R74). That an idle engine's turn keeps it is read from R218 (log 20). -/
def Obligations.DoneFollowsItsRule : Prop :=
  ∀ s t : State, step s = .next t →
    (s.engineMoves → t.done = (s.busy || s.done)) ∧
    (∀ rest, s.inputs = .reset :: rest → t.done = false) ∧
    (∀ a rest, s.inputs = .access a :: rest →
      (∀ w, a.WritesReg 0x10 w → t.done = (s.busy && s.done)) ∧
      (∀ w, a.WritesReg 0x0C w → t.done = (s.done && !w.getLsbD 1)) ∧
      ((∀ w, ¬ a.WritesReg 0x10 w ∧ ¬ a.WritesReg 0x0C w) → t.done = s.done))

/-- R28: OVERRUN is set by exactly the refused accesses, stays until the host writes 1 to bit 2 of STATUS or until
reset, and no command clears it. That an illegal buffer write while BUSY = 1 keeps it is the model's reading (log 13),
and that an idle engine's turn keeps it is read from R218 (log 20). -/
def Obligations.OverrunIsSticky : Prop :=
  ∀ s t : State, s.cap ≤ 2 ^ 28 → step s = .next t →
    (s.engineMoves → t.overrun = s.overrun) ∧
    (∀ rest, s.inputs = .reset :: rest → t.overrun = false) ∧
    (∀ a rest, s.inputs = .access a :: rest →
      (∀ w, a.WritesReg 0x0C w → t.overrun = (s.overrun && !w.getLsbD 2)) ∧
      (s.busy = true → a.Refusable s.cap → t.overrun = true) ∧
      ((s.busy = false ∨ ¬ a.Refusable s.cap) → (∀ w, ¬ a.WritesReg 0x0C w) → t.overrun = s.overrun))

/-- R24, R34, R37, R45: IN, CLEN, IDX and CTRL.IE change only by a host write or by reset, and IN, CLEN and IDX only
while BUSY = 0 (R26, R240); CAP never (R23, R48). No read and no access answered ERR changes any of them (R63, R74), nor
does an idle engine's turn, which is read from R218 (log 20). -/
def Obligations.OnlyTheHostChangesInputs : Prop :=
  ∀ s t : State, step s = .next t → t.cap = s.cap ∧ ((∀ rest, s.inputs ≠ .reset :: rest) →
    (t.inBuf ≠ s.inBuf → s.busy = false ∧
      ∃ width addr w rest, s.inputs = .access (.write width addr w) :: rest ∧ 0x10000000 ≤ addr.toNat) ∧
    (t.clen ≠ s.clen → s.busy = false ∧ ∃ w rest, s.inputs = .access (.write 32 0x14#32 w) :: rest) ∧
    (t.idx ≠ s.idx → s.busy = false ∧ ∃ w rest, s.inputs = .access (.write 32 0x20#32 w) :: rest) ∧
    (t.ie ≠ s.ie → ∃ w rest, s.inputs = .access (.write 32 0x08#32 w) :: rest))

/-- R210: the interrupt output over a command's life and its clearing. -/
def Obligations.InterruptFollowsCompletion : Prop :=
  (∀ s : State, s.irq = (s.done && s.ie)) ∧
  (∀ (w : Word) (s t : State), runWord w s = .next t → t.irq = s.ie) ∧
  (∀ (w : Word) (s : State), s.busy = false →
    ∃ t, hostAccess (.write 32 0x10#32 w) s = .next t ∧ t.irq = false) ∧
  (∀ (w : Word) (s : State), w.getLsbD 1 = true →
    ∃ t, hostAccess (.write 32 0x0C#32 w) s = .next t ∧ t.irq = false)

/-- R211, R240: both orders of a host write to PLEN and a command's completion. Before it, the write is dropped and
OVERRUN set; after it, the write takes effect. In both, the command ran with the PLEN of its acceptance. The order is
the model's schedule (log 2). After DECODE with reason UTF8 both orders end with the same unspecified bytes of PBUF, which is the model's choice and no
rule (R186): both draw the same free bytes (log 5, log 19). -/
def Obligations.BothOrdersOfAWriteAndACompletion : Prop :=
  ∀ (s t : State) (w v : Word) (i : Instr), s.engine = some w → decode w = .ok i →
    exec i { s with inputs := [] } = .next t →
    Host.Core.run Sys2Proof.core 2 { s with inputs := [.access (.write 32 0x18#32 v), .quiet] } =
      .next { t with overrun := true, response := some .written } ∧
    Host.Core.run Sys2Proof.core 2 { s with inputs := [.quiet, .access (.write 32 0x18#32 v)] } =
      .next { t with plen := v, response := some .written }
end

