-- ==== Sys2Proof/Laws/Memory.lean ====
section
/-! SUPPORT. The laws of a buffer's bytes: what a write does to every read, that every operation keeps the canonical
form and the buffer's bound, and that equal reads of canonical buffers are equal data. -/

namespace Sys2Proof.Machine

@[simp] theorem Memory.read_nil (a : Nat) : Memory.read [] a = none := rfl

theorem Memory.read_write (m : Memory) (a b : Nat) (v : Byte) :
    (m.write a v).read b = if b = a then some v else m.read b := by
  by_cases hb : b = a
  · subst hb
    induction m with
    | nil => simp [Memory.write, Memory.read]
    | cons c rest ih =>
      simp only [Memory.write]
      split
      · simp [Memory.read]
      · split <;> simp_all [Memory.read]
  · have hab : a ≠ b := fun h => hb h.symm
    rw [if_neg hb]
    induction m with
    | nil => simp [Memory.write, Memory.read, hab]
    | cons c rest ih =>
      simp only [Memory.write]
      split
      · simp [Memory.read, hab]
      · split
        · rename_i hc
          simp [Memory.read, hab, hc]
        · simp [Memory.read, ih]

@[simp] theorem Memory.read_write_same (m : Memory) (a : Nat) (v : Byte) : (m.write a v).read a = some v := by
  simp [Memory.read_write]

theorem Memory.read_write_other (m : Memory) {a b : Nat} (v : Byte) (h : b ≠ a) : (m.write a v).read b = m.read b := by
  simp [Memory.read_write, h]

theorem Memory.mem_write {m : Memory} {a : Nat} {v : Byte} {c : Host.Cell} (h : c ∈ m.write a v) :
    c = (a, v) ∨ c ∈ m := by
  induction m with
  | nil => simpa [Memory.write] using h
  | cons d rest ih =>
    simp only [Memory.write] at h
    split at h
    · simpa using h
    · split at h
      · rcases List.mem_cons.1 h with h | h <;> simp [h]
      · rcases List.mem_cons.1 h with h | h
        · simp [h]
        · rcases ih h with h | h <;> simp [h]

theorem Memory.write_wf {m : Memory} (a : Nat) (v : Byte) (h : m.wf) : (m.write a v).wf := by
  induction m with
  | nil => simp [Memory.write, Memory.wf]
  | cons d rest ih =>
    obtain ⟨hd, hr⟩ := List.pairwise_cons.1 h
    simp only [Memory.write]
    split
    · rename_i hlt
      refine List.pairwise_cons.2 ⟨fun c hc => ?_, h⟩
      rcases List.mem_cons.1 hc with rfl | hc
      · exact hlt
      · exact lt_trans hlt (hd c hc)
    · split
      · rename_i heq
        exact List.pairwise_cons.2 ⟨fun c hc => by simpa [heq] using hd c hc, hr⟩
      · rename_i hlt hne
        refine List.pairwise_cons.2 ⟨fun c hc => ?_, ih hr⟩
        rcases Memory.mem_write hc with rfl | hc
        · exact lt_of_le_of_ne (not_lt.1 hlt) hne
        · exact hd c hc

theorem Memory.write_within {m : Memory} {a size : Nat} (v : Byte) (ha : a < size) (h : m.within size) :
    (m.write a v).within size := by
  intro c hc
  rcases Memory.mem_write hc with rfl | hc
  · exact ha
  · exact h c hc

theorem Memory.read_writeBytes (m : Memory) (a b : Nat) (vs : List Byte) :
    (m.writeBytes a vs).read b = if a ≤ b ∧ b < a + vs.length then vs[b - a]? else m.read b := by
  induction vs generalizing m a with
  | nil => simp [Memory.writeBytes]
  | cons v vs ih =>
    simp only [Memory.writeBytes, ih, Memory.read_write, List.length_cons]
    rcases Nat.lt_trichotomy b a with hlt | rfl | hgt
    · rw [if_neg (by omega), if_neg (by omega), if_neg (by omega)]
    · rw [if_neg (by omega), if_pos rfl, if_pos (by omega)]; simp
    · obtain ⟨k, rfl⟩ : ∃ k, b = a + 1 + k := ⟨b - (a + 1), by omega⟩
      have h1 : a + 1 + k - a = k + 1 := by omega
      rw [if_neg (by omega : ¬(a + 1 + k = a)), h1]
      by_cases hk : k < vs.length
      · rw [if_pos (by omega), if_pos (by omega)]; simp
      · rw [if_neg (by omega), if_neg (by omega)]

theorem Memory.writeBytes_wf {m : Memory} (a : Nat) (vs : List Byte) (h : m.wf) : (m.writeBytes a vs).wf := by
  induction vs generalizing m a with
  | nil => exact h
  | cons v vs ih => exact ih _ (Memory.write_wf a v h)

theorem Memory.writeBytes_within {m : Memory} {a size : Nat} (vs : List Byte) (ha : a + vs.length ≤ size)
    (h : m.within size) : (m.writeBytes a vs).within size := by
  induction vs generalizing m a with
  | nil => exact h
  | cons v vs ih =>
    simp only [List.length_cons] at ha
    exact ih (by omega) (Memory.write_within v (by omega) h)

theorem Memory.read_isSome_mem {m : Memory} {a : Nat} {v : Byte} (h : m.read a = some v) : (a, v) ∈ m := by
  induction m with
  | nil => simp at h
  | cons c rest ih =>
    simp only [Memory.read] at h
    split at h
    · rename_i hc
      simp only [Option.some.injEq] at h
      exact List.mem_cons.2 (.inl (by rw [← hc, ← h]))
    · exact List.mem_cons_of_mem _ (ih h)

/-- A byte that can be read lies inside the buffer. -/
theorem Memory.read_within {m : Memory} {a size : Nat} {v : Byte} (hw : m.within size) (h : m.read a = some v) :
    a < size := hw _ (Memory.read_isSome_mem h)

theorem Memory.read_of_mem {m : Memory} (h : m.wf) {c : Host.Cell} (hc : c ∈ m) : m.read c.1 = some c.2 := by
  induction m with
  | nil => simp at hc
  | cons d rest ih =>
    obtain ⟨hd, hr⟩ := List.pairwise_cons.1 h
    simp only [Memory.read]
    rcases List.mem_cons.1 hc with rfl | hc
    · simp
    · rw [if_neg (Nat.ne_of_lt (hd c hc)), ih hr hc]

/-- Canonical buffers with equal reads are equal data. -/
theorem Memory.ext_of_wf {m n : Memory} (hm : m.wf) (hn : n.wf) (h : ∀ a, m.read a = n.read a) : m = n := by
  have sub : ∀ {m n : Memory}, m.wf → (∀ a, m.read a = n.read a) → ∀ c ∈ m, c ∈ n := fun hm h c hc =>
    Memory.read_isSome_mem ((h c.1).symm.trans (Memory.read_of_mem hm hc))
  have nodup : ∀ {m : Memory}, m.wf → m.Nodup := fun hm =>
    List.Pairwise.imp (fun {a b} hab hEq => absurd hab (by simp [hEq])) hm
  have perm : List.Perm m n := (List.perm_ext_iff_of_nodup (nodup hm) (nodup hn)).2 fun c =>
    ⟨sub hm h c, sub hn (fun a => (h a).symm) c⟩
  exact List.Perm.eq_of_pairwise (le := fun x y : Host.Cell => x.1 < y.1)
    (fun a b _ _ hab hba => absurd hab (Nat.lt_asymm hba)) hm hn perm

/-- After reset every buffer has the canonical form, with nothing listed (R231). -/
theorem reset_buffer_wf (b : Buf) : (State.reset.buffer b).wf := by
  cases b <;> exact List.Pairwise.nil

end Sys2Proof.Machine
end

