-- ==== Sys2Proof/Laws/Ops.lean ====
section
/-! SUPPORT. What the shared operations answer: the pseudocode's loop, the carrier primitives, the header and payload
functions and the private copy. Each is said once, byte by byte, and cited from there. -/

namespace Sys2Proof.Machine

/-! ### The loop -/

@[simp] theorem loop_zero {α : Type} (f : Nat → α → Except Fault α) (a : α) : loop 0 f a = .ok a := rfl

theorem loop_succ {α : Type} (n : Nat) (f : Nat → α → Except Fault α) (a : α) :
    loop (n + 1) f a = (match loop n f a with | .ok x => f n x | .error e => .error e) := rfl

theorem loop_succ_ok {α : Type} {n : Nat} {f : Nat → α → Except Fault α} {a y : α}
    (h : loop (n + 1) f a = .ok y) : ∃ x, loop n f a = .ok x ∧ f n x = .ok y := by
  rw [loop_succ] at h
  split at h
  · exact ⟨_, ‹_›, h⟩
  · cases h

/-- An invariant that every round of a loop keeps holds at its end. -/
theorem loop_inv {α : Type} (P : Nat → α → Prop) {n : Nat} {f : Nat → α → Except Fault α} {a y : α} (h0 : P 0 a)
    (hs : ∀ i x z, i < n → P i x → f i x = .ok z → P (i + 1) z) (h : loop n f a = .ok y) : P n y := by
  induction n generalizing y with
  | zero => simp only [loop_zero, Except.ok.injEq] at h; exact h ▸ h0
  | succ n ih =>
    obtain ⟨x, hx, hy⟩ := loop_succ_ok h
    exact hs n x y (by omega) (ih (fun i x z hi => hs i x z (by omega)) hx) hy

/-- A loop all of whose rounds succeed from states that meet an invariant succeeds, and its end meets it. -/
theorem loop_total {α : Type} (P : Nat → α → Prop) {n : Nat} {f : Nat → α → Except Fault α} {a : α} (h0 : P 0 a)
    (hs : ∀ i x, i < n → P i x → ∃ z, f i x = .ok z ∧ P (i + 1) z) : ∃ y, loop n f a = .ok y ∧ P n y := by
  induction n with
  | zero => exact ⟨a, rfl, h0⟩
  | succ n ih =>
    obtain ⟨x, hx, hp⟩ := ih fun i x hi => hs i x (by omega)
    obtain ⟨z, hz, hp⟩ := hs n x (by omega) hp
    exact ⟨z, by rw [loop_succ, hx]; exact hz, hp⟩

theorem loop_congr {α : Type} {n : Nat} {f g : Nat → α → Except Fault α} (a : α)
    (h : ∀ i x, i < n → f i x = g i x) : loop n f a = loop n g a := by
  induction n with
  | zero => rfl
  | succ n ih =>
    rw [loop_succ, loop_succ, ih fun i x hi => h i x (by omega)]
    split
    · exact h n _ (by omega)
    · rfl

/-! ### One byte, one bit -/

theorem readByte_ok {b : Buf} {m : Memory} {a : Nat} {v : Byte} : readByte b m a = .ok v ↔ m.read a = some v := by
  unfold readByte
  split <;> simp_all

theorem readByte_error {b : Buf} {m : Memory} {a : Nat} {e : Fault} :
    readByte b m a = .error e ↔ m.read a = none ∧ e = .uninitRead b a := by
  unfold readByte
  cases m.read a <;> simp [eq_comm]

theorem withLsb_lsb (old v : Byte) : (withLsb old v).getLsbD 0 = v.getLsbD 0 := by
  simp [withLsb]

theorem withLsb_high (old v : Byte) {i : Nat} (h : i ≠ 0) : (withLsb old v).getLsbD i = old.getLsbD i := by
  rcases Nat.lt_or_ge i 8 with hi | hi
  · interval_cases i <;> simp_all [withLsb]
  · simp [hi]

theorem setbit_ok {m m' : Memory} {p : Nat} {v : Byte} :
    setbit m p v = .ok m' ↔ ∃ old, m.read p = some old ∧ m' = m.write p (withLsb old v) := by
  unfold setbit
  split
  · rename_i old h
    simp [readByte_ok.1 h, eq_comm]
  · rename_i e h
    simp [(readByte_error.1 h).1]

theorem getbit_ok {b : Buf} {m : Memory} {p : Nat} {v : Byte} :
    getbit b m p = .ok v ↔ ∃ x, m.read p = some x ∧ v = x &&& 0x01#8 := by
  unfold getbit
  split
  · rename_i x h
    simp [readByte_ok.1 h, eq_comm]
  · rename_i e h
    simp [(readByte_error.1 h).1]

theorem setbit_error {m : Memory} {p : Nat} {v : Byte} {e : Fault} :
    setbit m p v = .error e ↔ m.read p = none ∧ e = .uninitRead .outBuf p := by
  unfold setbit
  split
  · rename_i x h
    simp [readByte_ok.1 h]
  · rename_i e h
    obtain ⟨h1, rfl⟩ := readByte_error.1 h
    simp [h1, eq_comm]

theorem getbit_error {b : Buf} {m : Memory} {p : Nat} {e : Fault} :
    getbit b m p = .error e ↔ m.read p = none ∧ e = .uninitRead b p := by
  unfold getbit
  split
  · rename_i x h
    simp [readByte_ok.1 h]
  · rename_i e h
    obtain ⟨h1, rfl⟩ := readByte_error.1 h
    simp [h1, eq_comm]

/-! ### Runs of bit writes -/

/-- What `n` bit writes from position `p` leave at each index: bit 0 of a byte in the range comes from `f`. -/
def Memory.stripe (m : Memory) (p n : Nat) (f : Nat → Byte) (a : Nat) : Option Byte :=
  if p ≤ a ∧ a < p + n then (m.read a).map (fun old => withLsb old (f (a - p))) else m.read a

theorem setbitLoop_read {m m' : Memory} {p n : Nat} {f : Nat → Byte}
    (h : loop n (fun k x => setbit x (p + k) (f k)) m = .ok m') (a : Nat) : m'.read a = m.stripe p n f a := by
  refine loop_inv (P := fun k x => ∀ a, x.read a = m.stripe p k f a) ?_ ?_ h a
  · intro a
    rw [Memory.stripe, if_neg (by omega)]
  · intro i x z _ hx hz a
    obtain ⟨old, hold, rfl⟩ := setbit_ok.1 hz
    rw [hx, Memory.stripe, if_neg (by omega)] at hold
    rw [Memory.read_write]
    rcases eq_or_ne a (p + i) with rfl | ha
    · simp [Memory.stripe, hold]
    · rw [if_neg ha, hx a, Memory.stripe, Memory.stripe]
      by_cases hr : p ≤ a ∧ a < p + i
      · rw [if_pos hr, if_pos (by omega)]
      · rw [if_neg hr, if_neg (by omega)]

theorem setbitLoop_total {m : Memory} {p n : Nat} {f : Nat → Byte}
    (hw : ∀ a, p ≤ a → a < p + n → ∃ v, m.read a = some v) :
    ∃ m', loop n (fun k x => setbit x (p + k) (f k)) m = .ok m' := by
  obtain ⟨y, hy, -⟩ := loop_total (P := fun k x => ∀ a, p + k ≤ a → x.read a = m.read a) (n := n)
    (f := fun k x => setbit x (p + k) (f k)) (a := m) (fun _ _ => rfl) (by
      intro i x hi hx
      obtain ⟨v, hv⟩ := hw (p + i) (by omega) (by omega)
      refine ⟨_, setbit_ok.2 ⟨v, by rw [hx _ (le_refl _)]; exact hv, rfl⟩, fun a ha => ?_⟩
      rw [Memory.read_write_other _ _ (by omega)]
      exact hx a (by omega))
  exact ⟨y, hy⟩

/-- A run of bit writes that succeeds found every byte it wrote written before. -/
theorem setbitLoop_written {m m' : Memory} {p n : Nat} {f : Nat → Byte}
    (h : loop n (fun k x => setbit x (p + k) (f k)) m = .ok m') {a : Nat} (h1 : p ≤ a) (h2 : a < p + n) :
    ∃ v, m.read a = some v := by
  induction n generalizing m' with
  | zero => omega
  | succ n ih =>
    obtain ⟨x, hx, hy⟩ := loop_succ_ok h
    rcases Nat.lt_or_ge a (p + n) with ha | ha
    · exact ih hx ha
    · obtain rfl : a = p + n := by omega
      obtain ⟨old, hold, -⟩ := setbit_ok.1 hy
      rw [setbitLoop_read hx, Memory.stripe, if_neg (by omega)] at hold
      exact ⟨old, hold⟩

/-- A property of buffers that every write below a bound keeps is kept by a run of bit writes on written bytes. -/
theorem setbitLoop_keeps {P : Memory → Prop} (hP : ∀ m a v old, P m → m.read a = some old → P (m.write a v))
    {m m' : Memory} {p n : Nat} {f : Nat → Byte} (h0 : P m)
    (h : loop n (fun k x => setbit x (p + k) (f k)) m = .ok m') : P m' :=
  loop_inv (P := fun _ x => P x) h0 (fun i x z _ hx hz => by
    obtain ⟨old, hold, rfl⟩ := setbit_ok.1 hz
    exact hP _ _ _ old hx hold) h

/-! ### Runs of bit reads -/

/-- A run of `n ≤ w` bit reads from position `p` gathers the bits most significant first. -/
theorem getbitLoop_bits {w : Nat} {b : Buf} {m : Memory} {p n : Nat} {r : BitVec w} (hn : n ≤ w)
    (h : loop (α := BitVec w) n (fun k acc => match getbit b m (p + k) with
      | .ok v => .ok ((acc <<< 1) ||| v.setWidth w) | .error e => .error e) 0#w = .ok r) :
    (∀ k, k < n → ∃ x, m.read (p + k) = some x ∧ r.getLsbD (n - 1 - k) = x.getLsbD 0) ∧
      (∀ j, n ≤ j → r.getLsbD j = false) := by
  revert hn
  refine loop_inv (P := fun n (r : BitVec w) => n ≤ w →
    (∀ k, k < n → ∃ x, m.read (p + k) = some x ∧ r.getLsbD (n - 1 - k) = x.getLsbD 0) ∧
      (∀ j, n ≤ j → r.getLsbD j = false)) ?_ ?_ h
  · intro _
    exact ⟨fun k hk => absurd hk (by omega), fun j _ => by simp⟩
  · intro i acc z _ ih hz hw
    obtain ⟨h1, h2⟩ := ih (by omega)
    split at hz
    · rename_i v hv
      obtain ⟨x, hx, rfl⟩ := getbit_ok.1 hv
      simp only [Except.ok.injEq] at hz
      subst hz
      have hbit : ∀ j, (x &&& 0x01#8).getLsbD j = (decide (j = 0) && x.getLsbD 0) := by
        intro j
        rcases j with _ | j
        · simp
        · rcases Nat.lt_or_ge j 7 with hj | hj
          · interval_cases j <;> simp
          · simp [show 8 ≤ j + 1 by omega]
      refine ⟨fun k hk => ?_, fun j hj => ?_⟩
      · rcases Nat.lt_succ_iff_lt_or_eq.1 hk with hk | rfl
        · obtain ⟨y, hy, hr⟩ := h1 k hk
          refine ⟨y, hy, ?_⟩
          rw [← hr]
          have e : i + 1 - 1 - k = (i - 1 - k) + 1 := by omega
          rw [e]
          simp only [BitVec.getLsbD_or, BitVec.getLsbD_shiftLeft, BitVec.getLsbD_setWidth, hbit]
          simp [show i - 1 - k + 1 < w by omega]
        · refine ⟨x, hx, ?_⟩
          simp [show 0 < w by omega]
      · obtain ⟨j, rfl⟩ : ∃ t, j = t + 1 := ⟨j - 1, by omega⟩
        simp [h2 j (by omega)]
    · cases hz

theorem getbitLoop_total {w : Nat} {b : Buf} {m : Memory} {p n : Nat}
    (hw : ∀ k, k < n → ∃ v, m.read (p + k) = some v) :
    ∃ r, loop (α := BitVec w) n (fun k acc => match getbit b m (p + k) with
      | .ok v => .ok ((acc <<< 1) ||| v.setWidth w) | .error e => .error e) 0#w = .ok r := by
  obtain ⟨r, hr, -⟩ := loop_total (P := fun _ (_ : BitVec w) => True) (n := n)
    (f := fun k acc => match getbit b m (p + k) with
      | .ok v => .ok ((acc <<< 1) ||| v.setWidth w) | .error e => .error e) (a := 0#w) trivial (by
      intro i x hi _
      obtain ⟨v, hv⟩ := hw i hi
      exact ⟨_, by rw [getbit_ok.2 ⟨v, hv, rfl⟩], trivial⟩)
  exact ⟨r, hr⟩

end Sys2Proof.Machine
end

