-- ==== Sys2Proof/Laws/Codec.lean ====
section
/-! SUPPORT. What the header functions, the payload functions and the private copy leave at each index and give back
(the closed forms of R130, R150, R175), when they succeed, and that they keep the canonical form. -/

namespace Sys2Proof.Machine

/-! ### Header -/

/-- The bit of `h` that position `i` carries, as a byte (R67). -/
def hdrBit (h : Word) (i : Nat) : Byte := ((h >>> (31 - i)) &&& 1#32).setWidth 8

theorem hdrBit_lsb (h : Word) {i : Nat} (hi : i < 32) : (hdrBit h i).getLsbD 0 = h.getLsbD (31 - i) := by
  simp [hdrBit, BitVec.getLsbD_eq_getElem (show 31 - i < 32 by omega)]

theorem hdrWrite_eq (out : Memory) (h : Word) :
    hdrWrite out h = loop 32 (fun k x => setbit x (0 + k) (hdrBit h k)) out :=
  loop_congr out fun i x _ => by rw [Nat.zero_add]; rfl

theorem hdrWrite_read {out m : Memory} {h : Word} (e : hdrWrite out h = .ok m) (a : Nat) :
    m.read a = out.stripe 0 32 (hdrBit h) a := setbitLoop_read ((hdrWrite_eq out h).symm.trans e) a

theorem hdrWrite_total {out : Memory} (h : Word) (hw : ∀ a, a < 32 → ∃ v, out.read a = some v) :
    ∃ m, hdrWrite out h = .ok m := by
  rw [hdrWrite_eq]
  exact setbitLoop_total fun a _ ha => hw a (by omega)

theorem hdrWrite_written {out m : Memory} {h : Word} (e : hdrWrite out h = .ok m) {a : Nat} (ha : a < 32) :
    ∃ v, out.read a = some v :=
  setbitLoop_written ((hdrWrite_eq out h).symm.trans e) (Nat.zero_le a) (by omega)

theorem hdrRead_eq (b : Buf) (m : Memory) :
    hdrRead b m = loop (α := BitVec 32) 32 (fun k acc => match getbit b m (0 + k) with
      | .ok v => .ok ((acc <<< 1) ||| v.setWidth 32) | .error e => .error e) 0#32 :=
  loop_congr _ fun i x _ => by cases h : getbit b m i <;> simp [h]

/-- HDR's bit `31 - i` is bit 0 of carrier byte `i` (R67, R130). -/
theorem hdrRead_bits {b : Buf} {m : Memory} {h : Word} (e : hdrRead b m = .ok h) {i : Nat} (hi : i < 32) :
    ∃ x, m.read i = some x ∧ h.getLsbD (31 - i) = x.getLsbD 0 := by
  obtain ⟨x, hx, hb⟩ := (getbitLoop_bits (le_refl 32) ((hdrRead_eq b m).symm.trans e)).1 i hi
  exact ⟨x, by rwa [Nat.zero_add] at hx, hb⟩

theorem hdrRead_total {b : Buf} {m : Memory} (hw : ∀ a, a < 32 → ∃ v, m.read a = some v) :
    ∃ h, hdrRead b m = .ok h := by
  rw [hdrRead_eq]
  exact getbitLoop_total fun k hk => hw (0 + k) (by omega)

/-- A header value is fixed by the 32 carrier bits. -/
theorem hdrRead_unique {b : Buf} {m : Memory} {h : Word}
    (hb : ∀ i, i < 32 → ∃ x, m.read i = some x ∧ x.getLsbD 0 = h.getLsbD (31 - i)) : hdrRead b m = .ok h := by
  obtain ⟨r, hr⟩ := hdrRead_total (b := b) (m := m) fun i hi => (hb i hi).imp fun _ h => h.1
  rw [hr]
  congr 1
  refine BitVec.eq_of_getLsbD_eq fun j hj => ?_
  obtain ⟨x, hx, h1⟩ := hdrRead_bits hr (i := 31 - j) (by omega)
  obtain ⟨y, hy, h2⟩ := hb (31 - j) (by omega)
  rw [hx] at hy
  simp only [Option.some.injEq] at hy
  rw [show 31 - (31 - j) = j by omega] at h1 h2
  rw [h1, hy, h2]

/-! ### Payload -/

theorem byteWrite_read {out m : Memory} {p : Nat} {v : Byte} (e : byteWrite out p v = .ok m) (a : Nat) :
    m.read a = out.stripe p 8 (fun k => (v >>> (7 - k)) &&& 1#8) a := setbitLoop_read e a

theorem byteWrite_total {out : Memory} {p : Nat} (v : Byte)
    (hw : ∀ a, p ≤ a → a < p + 8 → ∃ x, out.read a = some x) : ∃ m, byteWrite out p v = .ok m :=
  setbitLoop_total hw

/-- The payload bit that offset `k` from the start position carries (R68): bit `7 - k % 8` of byte `k / 8`. -/
def payBit (pbuf : Memory) (k : Nat) : Byte := (((pbuf.read (k / 8)).getD 0#8) >>> (7 - k % 8)) &&& 1#8

theorem payBit_lsb {pbuf : Memory} {j : Nat} {v : Byte} (h : pbuf.read j = some v) {k : Nat} (hk : k < 8) :
    (payBit pbuf (8 * j + k)).getLsbD 0 = v.getLsbD (7 - k) := by
  have h1 : (8 * j + k) / 8 = j := by omega
  have h2 : (8 * j + k) % 8 = k := by omega
  simp [payBit, h1, h2, h, BitVec.getLsbD_eq_getElem (show 7 - k < 8 by omega)]

theorem payWrite_read {pbuf out m : Memory} {s n : Nat} (e : payWrite pbuf out s n = .ok m) (a : Nat) :
    m.read a = out.stripe s (8 * n) (payBit pbuf) a := by
  refine loop_inv (P := fun j x => ∀ a, x.read a = out.stripe s (8 * j) (payBit pbuf) a) ?_ ?_ e a
  · intro a
    rw [Memory.stripe, if_neg (by omega)]
  · intro j x z _ hx hz a
    split at hz
    · rename_i v hv
      rw [byteWrite_read hz a, Memory.stripe, Memory.stripe, hx a, Memory.stripe]
      by_cases h1 : s ≤ a ∧ a < s + 8 * j
      · rw [if_neg (by omega), if_pos h1, if_pos (by omega)]
      · rw [if_neg h1]
        by_cases h2 : s + 8 * j ≤ a ∧ a < s + 8 * j + 8
        · rw [if_pos h2, if_pos (by omega)]
          obtain ⟨k, rfl⟩ : ∃ k, a = s + 8 * j + k := ⟨a - (s + 8 * j), by omega⟩
          have e1 : s + 8 * j + k - (s + 8 * j) = k := by omega
          have e2 : s + 8 * j + k - s = 8 * j + k := by omega
          have e3 : (8 * j + k) / 8 = j := by omega
          have e4 : (8 * j + k) % 8 = k := by omega
          rw [e1, e2, payBit, e3, e4, readByte_ok.1 hv]
          rfl
        · rw [if_neg h2, if_neg (by omega)]
    · cases hz

theorem payWrite_total {pbuf out : Memory} {s n : Nat} (hp : ∀ j, j < n → ∃ v, pbuf.read j = some v)
    (hw : ∀ a, s ≤ a → a < s + 8 * n → ∃ v, out.read a = some v) : ∃ m, payWrite pbuf out s n = .ok m := by
  obtain ⟨y, hy, -⟩ := loop_total (P := fun j x => ∀ a, s + 8 * j ≤ a → x.read a = out.read a) (n := n)
    (f := fun j m => match readByte .pBuf pbuf j with
      | .ok v => byteWrite m (s + 8 * j) v | .error e => .error e) (a := out) (fun _ _ => rfl) (by
      intro j x hj hx
      obtain ⟨v, hv⟩ := hp j hj
      obtain ⟨z, hz⟩ := byteWrite_total (out := x) (p := s + 8 * j) v fun a h1 h2 => by
        rw [hx a h1]; exact hw a (by omega) (by omega)
      refine ⟨z, by rw [readByte_ok.2 hv]; exact hz, fun a ha => ?_⟩
      rw [byteWrite_read hz a, Memory.stripe, if_neg (by omega)]
      exact hx a (by omega))
  exact ⟨y, hy⟩

/-- A payload write that succeeds found every payload byte and every carrier byte it used written. -/
theorem payWrite_written {pbuf out m : Memory} {s n : Nat} (e : payWrite pbuf out s n = .ok m) :
    (∀ j, j < n → ∃ v, pbuf.read j = some v) ∧ ∀ a, s ≤ a → a < s + 8 * n → ∃ v, out.read a = some v := by
  induction n generalizing m with
  | zero => exact ⟨fun j hj => absurd hj (by omega), fun a h1 h2 => absurd h2 (by omega)⟩
  | succ n ih =>
    obtain ⟨x, hx, hy⟩ := loop_succ_ok e
    obtain ⟨h1, h2⟩ := ih hx
    split at hy
    · rename_i v hv
      refine ⟨fun j hj => ?_, fun a ha hb => ?_⟩
      · rcases Nat.lt_succ_iff_lt_or_eq.1 hj with hj | rfl
        · exact h1 j hj
        · exact ⟨v, readByte_ok.1 hv⟩
      · rcases Nat.lt_or_ge a (s + 8 * n) with hlt | hge
        · exact h2 a ha hlt
        · obtain ⟨old, hold⟩ := setbitLoop_written hy hge (by omega)
          rw [payWrite_read hx, Memory.stripe, if_neg (by omega)] at hold
          exact ⟨old, hold⟩
    · cases hy

theorem byteRead_eq (b : Buf) (m : Memory) (p : Nat) :
    byteRead b m p = loop (α := BitVec 8) 8 (fun k acc => match getbit b m (p + k) with
      | .ok v => .ok ((acc <<< 1) ||| v.setWidth 8) | .error e => .error e) 0#8 :=
  loop_congr _ fun i x _ => by cases getbit b m (p + i) <;> simp

theorem byteRead_bits {b : Buf} {m : Memory} {p : Nat} {v : Byte} (e : byteRead b m p = .ok v) {k : Nat} (hk : k < 8) :
    ∃ x, m.read (p + k) = some x ∧ v.getLsbD (7 - k) = x.getLsbD 0 :=
  (getbitLoop_bits (le_refl 8) ((byteRead_eq b m p).symm.trans e)).1 k hk

theorem byteRead_total {b : Buf} {m : Memory} {p : Nat} (hw : ∀ k, k < 8 → ∃ v, m.read (p + k) = some v) :
    ∃ v, byteRead b m p = .ok v := by
  rw [byteRead_eq]
  exact getbitLoop_total hw

/-- The bytes `payRead` gives: as many as asked, each bit bit 0 of its carrier byte (R68, R150). -/
theorem payRead_bits {b : Buf} {m : Memory} {s n : Nat} {bytes : List Byte} (e : payRead b m s n = .ok bytes) :
    bytes.length = n ∧ ∀ j, j < n → ∃ v, bytes[j]? = some v ∧ ∀ k, k < 8 →
      ∃ x, m.read (s + 8 * j + k) = some x ∧ v.getLsbD (7 - k) = x.getLsbD 0 := by
  refine loop_inv (P := fun n (bytes : List Byte) => bytes.length = n ∧ ∀ j, j < n →
    ∃ v, bytes[j]? = some v ∧ ∀ k, k < 8 → ∃ x, m.read (s + 8 * j + k) = some x ∧ v.getLsbD (7 - k) = x.getLsbD 0)
    ⟨rfl, fun j hj => absurd hj (by omega)⟩ ?_ e
  intro i x z _ hx hz
  obtain ⟨hl, hb⟩ := hx
  split at hz
  · rename_i v hv
    simp only [Except.ok.injEq] at hz
    subst hz
    refine ⟨by simp [hl], fun j hj => ?_⟩
    rcases Nat.lt_succ_iff_lt_or_eq.1 hj with hj | rfl
    · obtain ⟨y, hy, hk⟩ := hb j hj
      exact ⟨y, by rw [List.getElem?_append_left (by omega)]; exact hy, hk⟩
    · exact ⟨v, by rw [← hl]; simp, fun k hk => byteRead_bits hv hk⟩
  · cases hz

theorem payRead_total {b : Buf} {m : Memory} {s n : Nat} (hw : ∀ a, s ≤ a → a < s + 8 * n → ∃ v, m.read a = some v) :
    ∃ bytes, payRead b m s n = .ok bytes := by
  obtain ⟨r, hr, -⟩ := loop_total (P := fun _ (_ : List Byte) => True) (n := n)
    (f := fun j bytes => match byteRead b m (s + 8 * j) with
      | .ok v => .ok (bytes ++ [v]) | .error e => .error e) (a := []) trivial (by
      intro j x hj _
      obtain ⟨v, hv⟩ := byteRead_total (b := b) (m := m) (p := s + 8 * j) fun k hk => hw _ (by omega) (by omega)
      exact ⟨_, by rw [hv], trivial⟩)
  exact ⟨r, hr⟩

/-- The payload bytes are fixed by their carrier bits. -/
theorem payRead_unique {b : Buf} {m : Memory} {s : Nat} {bytes : List Byte}
    (hb : ∀ j v, bytes[j]? = some v → ∀ k, k < 8 →
      ∃ x, m.read (s + 8 * j + k) = some x ∧ x.getLsbD 0 = v.getLsbD (7 - k)) :
    payRead b m s bytes.length = .ok bytes := by
  obtain ⟨r, hr⟩ := payRead_total (b := b) (m := m) (s := s) (n := bytes.length) fun a h1 h2 => by
    obtain ⟨x, hx, -⟩ := hb ((a - s) / 8) bytes[(a - s) / 8] (List.getElem?_eq_getElem (by omega)) ((a - s) % 8) (by omega)
    exact ⟨x, by rwa [show s + 8 * ((a - s) / 8) + (a - s) % 8 = a by omega] at hx⟩
  obtain ⟨hl, h1⟩ := payRead_bits hr
  rw [hr]
  congr 1
  refine List.ext_getElem? fun j => ?_
  rcases Nat.lt_or_ge j bytes.length with hj | hj
  · obtain ⟨v, hv, hbits⟩ := h1 j hj
    rw [hv, List.getElem?_eq_getElem hj]
    congr 1
    refine BitVec.eq_of_getLsbD_eq fun i hi => ?_
    obtain ⟨x, hx, h2⟩ := hbits (7 - i) (by omega)
    obtain ⟨y, hy, h3⟩ := hb j bytes[j] (List.getElem?_eq_getElem hj) (7 - i) (by omega)
    rw [hx] at hy
    simp only [Option.some.injEq] at hy
    rw [show 7 - (7 - i) = i by omega] at h2 h3
    rw [h2, hy, h3]
  · rw [List.getElem?_eq_none (by omega), List.getElem?_eq_none (by omega)]

theorem hdrRead_written {b : Buf} {m : Memory} {h : Word} (e : hdrRead b m = .ok h) {a : Nat} (ha : a < 32) :
    ∃ v, m.read a = some v := by
  obtain ⟨x, hx, -⟩ := hdrRead_bits e ha
  exact ⟨x, hx⟩

theorem payRead_written {b : Buf} {m : Memory} {s n : Nat} {bytes : List Byte} (e : payRead b m s n = .ok bytes) {a : Nat}
    (h1 : s ≤ a) (h2 : a < s + 8 * n) : ∃ v, m.read a = some v := by
  obtain ⟨v, -, hk⟩ := (payRead_bits e).2 ((a - s) / 8) (by omega)
  obtain ⟨x, hx, -⟩ := hk ((a - s) % 8) (by omega)
  exact ⟨x, by rwa [show s + 8 * ((a - s) / 8) + (a - s) % 8 = a by omega] at hx⟩

/-! ### Writing and reading back -/

/-- A read of the header gives back what a write put there (R67, R130). -/
theorem hdrRead_of_hdrWrite {b : Buf} {out m : Memory} {h : Word} (e : hdrWrite out h = .ok m) : hdrRead b m = .ok h := by
  refine hdrRead_unique fun i hi => ?_
  obtain ⟨v, hv⟩ := hdrWrite_written e hi
  refine ⟨withLsb v (hdrBit h i), ?_, (withLsb_lsb _ _).trans (hdrBit_lsb _ hi)⟩
  rw [hdrWrite_read e, Memory.stripe, if_pos (by omega), hv]
  rfl

/-- A read of the payload region gives back the bytes a write striped there (R68, R150). -/
theorem payRead_of_payWrite {b : Buf} {pbuf out m : Memory} {s n : Nat} {p : List Byte}
    (e : payWrite pbuf out s n = .ok m) (hp : p.length = n) (hr : ∀ j v, p[j]? = some v → pbuf.read j = some v) :
    payRead b m s n = .ok p := by
  rw [← hp]
  refine payRead_unique fun j v hj k hk => ?_
  have hjn : j < n := by
    by_contra hn
    rw [List.getElem?_eq_none (by omega)] at hj
    cases hj
  obtain ⟨x, hx⟩ := (payWrite_written e).2 (s + 8 * j + k) (by omega) (by omega)
  refine ⟨withLsb x (payBit pbuf (8 * j + k)), ?_, (withLsb_lsb _ _).trans (payBit_lsb (hr j v hj) hk)⟩
  rw [payWrite_read e, Memory.stripe, if_pos (by omega), hx, show s + 8 * j + k - s = 8 * j + k by omega]
  rfl

/-- The first `n` bytes of a buffer, all written, as a list. -/
theorem exists_bytes {m : Memory} {n : Nat} (h : ∀ j, j < n → ∃ v, m.read j = some v) :
    ∃ p : List Byte, p.length = n ∧ ∀ j v, p[j]? = some v → m.read j = some v := by
  refine ⟨(List.range n).map fun j => (m.read j).getD 0#8, by simp, fun j v hj => ?_⟩
  rw [List.getElem?_map] at hj
  rcases Nat.lt_or_ge j n with hn | hn
  · rw [List.getElem?_range hn] at hj
    obtain ⟨x, hx⟩ := h j hn
    simp only [Option.map_some, hx, Option.getD_some, Option.some.injEq] at hj
    rw [hx, hj]
  · rw [List.getElem?_eq_none (by simpa using hn)] at hj
    cases hj

/-! ### A run of bit writes, in the statements' terms -/

theorem stripe_outside {m : Memory} {p n a : Nat} {f : Nat → Byte} (h : ¬ (p ≤ a ∧ a < p + n)) :
    m.stripe p n f a = m.read a := by
  rw [Memory.stripe, if_neg h]

theorem withLsb_eq_withDataBit {v x : Byte} {b : Bool} (h : x.getLsbD 0 = b) : withLsb v x = withDataBit v b := by
  have key : ∀ y : Byte, y &&& 1#8 = (BitVec.ofBool (y.getLsbD 0)).setWidth 8 := by decide +kernel
  rw [withLsb, withDataBit, key, h]

theorem stripe_inside {m : Memory} {p n a : Nat} {f : Nat → Byte} (hp : p ≤ a) (ha : a < p + n) {b : Bool}
    (hb : (f (a - p)).getLsbD 0 = b) : m.stripe p n f a = (m.read a).map (fun v => withDataBit v b) := by
  rw [Memory.stripe, if_pos ⟨hp, ha⟩]
  congr 1
  funext v
  exact withLsb_eq_withDataBit hb

/-- Bits [7:1] of every byte are kept (R71, R110). -/
theorem stripe_keeps (m : Memory) (p n a : Nat) (f : Nat → Byte) {i : Nat} (h : i ≠ 0) :
    (m.stripe p n f a).map (fun v => v.getLsbD i) = (m.read a).map (fun v => v.getLsbD i) := by
  unfold Memory.stripe
  split
  · rw [Option.map_map]
    congr 1
    funext v
    exact withLsb_high _ _ h
  · rfl

theorem stripe_keeps_high (m : Memory) (p n a : Nat) (f : Nat → Byte) :
    (m.stripe p n f a).map (fun v => v &&& 0xFE#8) = (m.read a).map (fun v => v &&& 0xFE#8) := by
  unfold Memory.stripe
  split
  · rw [Option.map_map]
    congr 1
    funext v
    refine BitVec.eq_of_getLsbD_eq fun i _ => ?_
    simp only [Function.comp, BitVec.getLsbD_and]
    rcases Nat.eq_zero_or_pos i with rfl | hi
    · simp
    · rw [withLsb_high _ _ (by omega)]
  · rfl

theorem setbit_read {m m' : Memory} {p : Nat} {v : Byte} (h : setbit m p v = .ok m') (a : Nat) :
    m'.read a = m.stripe p 1 (fun _ => v) a := by
  obtain ⟨old, h1, rfl⟩ := setbit_ok.1 h
  rw [Memory.read_write, Memory.stripe]
  split_ifs with h2 h3
  · rw [h2, h1]
    rfl
  · omega
  · omega
  · rfl

/-! ### What a read of bits depends on -/

/-- Bit 0 of a written byte. -/
def Memory.bit (m : Memory) (a : Nat) : Option Bool := (m.read a).map (fun v => v.getLsbD 0)

theorem getbit_congr {b : Buf} {m m' : Memory} {p : Nat} (h : m.bit p = m'.bit p) :
    getbit b m p = getbit b m' p := by
  have key : ∀ x y : Byte, x.getLsbD 0 = y.getLsbD 0 → x &&& 0x01#8 = y &&& 0x01#8 := by decide +kernel
  unfold Memory.bit at h
  unfold getbit readByte
  cases hx : m.read p <;> cases hy : m'.read p <;>
    simp only [hx, hy, Option.map_some, Option.map_none, Option.some.injEq, reduceCtorEq] at h ⊢
  rw [key _ _ h]

theorem hdrRead_congr {b : Buf} {m m' : Memory} (h : ∀ a, a < 32 → m.bit a = m'.bit a) :
    hdrRead b m = hdrRead b m' :=
  loop_congr _ fun i x hi => by rw [getbit_congr (h i hi)]

theorem byteRead_congr {b : Buf} {m m' : Memory} {p : Nat} (h : ∀ k, k < 8 → m.bit (p + k) = m'.bit (p + k)) :
    byteRead b m p = byteRead b m' p :=
  loop_congr _ fun i x hi => by rw [getbit_congr (h i hi)]

theorem payRead_congr {b : Buf} {m m' : Memory} {s n : Nat} (h : ∀ a, s ≤ a → a < s + 8 * n → m.bit a = m'.bit a) :
    payRead b m s n = payRead b m' s n :=
  loop_congr _ fun j x hj => by rw [byteRead_congr fun k hk => h _ (by omega) (by omega)]

/-! ### The private copy -/

theorem copyBytes_read {inb out m : Memory} {n : Nat} (e : copyBytes inb out n = .ok m) (a : Nat) :
    m.read a = if a < n then inb.read a else out.read a := by
  refine loop_inv (P := fun k x => ∀ a, Memory.read x a = if a < k then inb.read a else out.read a) ?_ ?_ e a
  · intro a; simp
  · intro i x z _ hx hz a
    split at hz
    · rename_i v hv
      simp only [Except.ok.injEq] at hz
      subst hz
      rw [Memory.read_write, hx a]
      rcases Nat.lt_trichotomy a i with h | rfl | h
      · rw [if_neg (by omega), if_pos h, if_pos (by omega)]
      · rw [if_pos rfl, if_pos (by omega), readByte_ok.1 hv]
      · rw [if_neg (by omega), if_neg (by omega), if_neg (by omega)]
    · cases hz

theorem copyBytes_total {inb out : Memory} {n : Nat} (hw : ∀ a, a < n → ∃ v, inb.read a = some v) :
    ∃ m, copyBytes inb out n = .ok m := by
  obtain ⟨r, hr, -⟩ := loop_total (P := fun _ (_ : Memory) => True) (n := n)
    (f := fun i m => match readByte .inBuf inb i with
      | .ok v => .ok (Memory.write m i v) | .error e => .error e) (a := out) trivial (by
      intro i x hi _
      obtain ⟨v, hv⟩ := hw i hi
      exact ⟨_, by rw [readByte_ok.2 hv], trivial⟩)
  exact ⟨r, hr⟩

theorem copyBytes_written {inb out m : Memory} {n : Nat} (e : copyBytes inb out n = .ok m) {a : Nat} (ha : a < n) :
    ∃ v, inb.read a = some v := by
  refine loop_inv (P := fun k _ => ∀ a, a < k → ∃ v, inb.read a = some v) (fun a ha => absurd ha (by omega)) ?_ e a ha
  intro i x z _ hx hz a ha
  split at hz
  · rename_i v hv
    rcases Nat.lt_succ_iff_lt_or_eq.1 ha with h | rfl
    · exact hx a h
    · exact ⟨v, readByte_ok.1 hv⟩
  · cases hz

/-! ### The canonical form is kept -/

/-- A buffer that is canonical and inside its size. -/
abbrev Memory.legal (size : Nat) (m : Memory) : Prop := m.wf ∧ m.within size

theorem Memory.write_legal {size : Nat} {m : Memory} {a : Nat} (v : Byte) (ha : a < size) (h : m.legal size) :
    (m.write a v).legal size := ⟨Memory.write_wf a v h.1, Memory.write_within v ha h.2⟩

theorem Memory.writeBytes_legal {size : Nat} {m : Memory} {a : Nat} (vs : List Byte) (ha : a + vs.length ≤ size)
    (h : m.legal size) : (m.writeBytes a vs).legal size :=
  ⟨Memory.writeBytes_wf a vs h.1, Memory.writeBytes_within vs ha h.2⟩

theorem setbit_legal {size : Nat} {m m' : Memory} {p : Nat} {v : Byte} (e : setbit m p v = .ok m') (h : m.legal size) :
    m'.legal size := by
  obtain ⟨old, hold, rfl⟩ := setbit_ok.1 e
  exact Memory.write_legal _ (Memory.read_within h.2 hold) h

theorem setbitLoop_legal {size : Nat} {m m' : Memory} {p n : Nat} {f : Nat → Byte} (h : m.legal size)
    (e : loop n (fun k x => setbit x (p + k) (f k)) m = .ok m') : m'.legal size :=
  setbitLoop_keeps (P := Memory.legal size) (fun _ _ v _ hm hr => Memory.write_legal v (Memory.read_within hm.2 hr) hm) h e

theorem hdrWrite_legal {size : Nat} {out m : Memory} {h : Word} (e : hdrWrite out h = .ok m) (hl : out.legal size) :
    m.legal size := setbitLoop_legal hl ((hdrWrite_eq out h).symm.trans e)

theorem payWrite_legal {size : Nat} {pbuf out m : Memory} {s n : Nat} (e : payWrite pbuf out s n = .ok m)
    (hl : out.legal size) : m.legal size :=
  loop_inv (P := fun _ x => Memory.legal size x) hl (fun j x z _ hx hz => by
    split at hz
    · exact setbitLoop_legal hx hz
    · cases hz) e

theorem copyBytes_legal {size : Nat} {inb out m : Memory} {n : Nat} (e : copyBytes inb out n = .ok m) (hn : n ≤ size)
    (hl : out.legal size) : m.legal size :=
  loop_inv (P := fun _ x => Memory.legal size x) hl (fun i x z hi hx hz => by
    split at hz
    · simp only [Except.ok.injEq] at hz
      exact hz ▸ Memory.write_legal _ (by omega) hx
    · cases hz) e

@[simp] theorem drawBytes_length (k n : Nat) : (drawBytes k n).length = n := by simp [drawBytes]

end Sys2Proof.Machine
end

