-- ==== Sys2Proof/Laws/Encoding.lean ====
section
/-! SUPPORT. The fields of a command word and the word of its fields are inverse to each other (R91). -/

namespace Sys2Proof

theorem CmdFields.word_getLsbD (f : CmdFields) (i : Nat) : f.word.getLsbD i =
    if i < 4 then f.op.getLsbD i else if i - 4 < 1 then f.sel.getLsbD (i - 4)
    else if i - 4 - 1 < 3 then f.rsv0.getLsbD (i - 4 - 1)
    else if i - 4 - 1 - 3 < 8 then f.val.getLsbD (i - 4 - 1 - 3) else f.rsv1.getLsbD (i - 4 - 1 - 3 - 8) := by
  change BitVec.getLsbD (w := 16 + 8 + 3 + 1 + 4) (f.rsv1 ++ f.val ++ f.rsv0 ++ f.sel ++ f.op) i = _
  simp only [BitVec.getLsbD_append]

@[simp] theorem CmdFields.ofWord_word (f : CmdFields) : CmdFields.ofWord f.word = f := by
  obtain ⟨op, sel, rsv0, val, rsv1⟩ := f
  simp only [CmdFields.ofWord, CmdFields.mk.injEq]
  refine ⟨?_, ?_, ?_, ?_, ?_⟩ <;> refine BitVec.eq_of_getLsbD_eq fun i hi => ?_ <;>
    simp only [BitVec.getLsbD_extractLsb', CmdFields.word_getLsbD, hi, decide_true, Bool.true_and]
  · rw [if_pos (by omega), Nat.zero_add]
  · rw [if_neg (by omega), if_pos (by omega), Nat.add_sub_cancel_left]
  · rw [if_neg (by omega), if_neg (by omega), if_pos (by omega)]
    congr 1; omega
  · rw [if_neg (by omega), if_neg (by omega), if_neg (by omega), if_pos (by omega)]
    congr 1; omega
  · rw [if_neg (by omega), if_neg (by omega), if_neg (by omega), if_neg (by omega)]
    congr 1; omega

@[simp] theorem CmdFields.word_ofWord (w : Word) : (CmdFields.ofWord w).word = w := by
  refine BitVec.eq_of_getLsbD_eq fun i hi => ?_
  rw [CmdFields.word_getLsbD]
  simp only [CmdFields.ofWord, BitVec.getLsbD_extractLsb']
  split_ifs with h1 h2 h3 h4
  · simp [h1]
  · rw [show i = 4 by omega]; simp
  · simp only [h3, decide_true, Bool.true_and]
    congr 1; omega
  · simp only [h4, decide_true, Bool.true_and]
    congr 1; omega
  · simp only [show i - 4 - 1 - 3 - 8 < 16 by omega, decide_true, Bool.true_and]
    congr 1; omega

theorem CmdFields.error?_none (f : CmdFields) : f.error? = none ↔
    f.reservedClear = true ∧ f.opLegal = true ∧ f.selLegal = true ∧ f.valLegal = true := by
  unfold CmdFields.error?
  cases f.reservedClear <;> cases f.opLegal <;> cases f.selLegal <;> cases f.valLegal <;> simp

end Sys2Proof
end

