-- ==== Sys2Proof/Laws/State.lean ====
section
/-! SUPPORT. What each update of State does to each field, one lemma per field, so that no proof unfolds a record
update. -/

namespace Sys2Proof.Machine

@[simp] theorem State.accept_cap (w : Word) (s : State) : (s.accept w).cap = s.cap := rfl
@[simp] theorem State.accept_ie (w : Word) (s : State) : (s.accept w).ie = s.ie := rfl
@[simp] theorem State.accept_done (w : Word) (s : State) : (s.accept w).done = false := rfl
@[simp] theorem State.accept_overrun (w : Word) (s : State) : (s.accept w).overrun = s.overrun := rfl
@[simp] theorem State.accept_result (w : Word) (s : State) : (s.accept w).result = s.result := rfl
@[simp] theorem State.accept_npReason (w : Word) (s : State) : (s.accept w).npReason = s.npReason := rfl
@[simp] theorem State.accept_lastOp (w : Word) (s : State) : (s.accept w).lastOp = s.lastOp := rfl
@[simp] theorem State.accept_clen (w : Word) (s : State) : (s.accept w).clen = s.clen := rfl
@[simp] theorem State.accept_plen (w : Word) (s : State) : (s.accept w).plen = s.plen := rfl
@[simp] theorem State.accept_hdr (w : Word) (s : State) : (s.accept w).hdr = s.hdr := rfl
@[simp] theorem State.accept_idx (w : Word) (s : State) : (s.accept w).idx = s.idx := rfl
@[simp] theorem State.accept_bitv (w : Word) (s : State) : (s.accept w).bitv = s.bitv := rfl
@[simp] theorem State.accept_req (w : Word) (s : State) : (s.accept w).req = s.req := rfl
@[simp] theorem State.accept_avail (w : Word) (s : State) : (s.accept w).avail = s.avail := rfl
@[simp] theorem State.accept_inBuf (w : Word) (s : State) : (s.accept w).inBuf = s.inBuf := rfl
@[simp] theorem State.accept_outBuf (w : Word) (s : State) : (s.accept w).outBuf = s.outBuf := rfl
@[simp] theorem State.accept_pBuf (w : Word) (s : State) : (s.accept w).pBuf = s.pBuf := rfl
@[simp] theorem State.accept_engine (w : Word) (s : State) : (s.accept w).engine = some w := rfl
@[simp] theorem State.accept_response (w : Word) (s : State) : (s.accept w).response = s.response := rfl
@[simp] theorem State.accept_inputs (w : Word) (s : State) : (s.accept w).inputs = s.inputs := rfl
@[simp] theorem State.accept_misuse (w : Word) (s : State) : (s.accept w).misuse = s.misuse := rfl
@[simp] theorem State.accept_draws (w : Word) (s : State) : (s.accept w).draws = s.draws := rfl

@[simp] theorem State.writeStatus_cap (w : Word) (s : State) : (s.writeStatus w).cap = s.cap := rfl
@[simp] theorem State.writeStatus_ie (w : Word) (s : State) : (s.writeStatus w).ie = s.ie := rfl
@[simp] theorem State.writeStatus_done (w : Word) (s : State) : (s.writeStatus w).done = (s.done && !w.getLsbD 1) := rfl
@[simp] theorem State.writeStatus_overrun (w : Word) (s : State) : (s.writeStatus w).overrun = (s.overrun && !w.getLsbD 2) := rfl
@[simp] theorem State.writeStatus_result (w : Word) (s : State) : (s.writeStatus w).result = s.result := rfl
@[simp] theorem State.writeStatus_npReason (w : Word) (s : State) : (s.writeStatus w).npReason = s.npReason := rfl
@[simp] theorem State.writeStatus_lastOp (w : Word) (s : State) : (s.writeStatus w).lastOp = s.lastOp := rfl
@[simp] theorem State.writeStatus_clen (w : Word) (s : State) : (s.writeStatus w).clen = s.clen := rfl
@[simp] theorem State.writeStatus_plen (w : Word) (s : State) : (s.writeStatus w).plen = s.plen := rfl
@[simp] theorem State.writeStatus_hdr (w : Word) (s : State) : (s.writeStatus w).hdr = s.hdr := rfl
@[simp] theorem State.writeStatus_idx (w : Word) (s : State) : (s.writeStatus w).idx = s.idx := rfl
@[simp] theorem State.writeStatus_bitv (w : Word) (s : State) : (s.writeStatus w).bitv = s.bitv := rfl
@[simp] theorem State.writeStatus_req (w : Word) (s : State) : (s.writeStatus w).req = s.req := rfl
@[simp] theorem State.writeStatus_avail (w : Word) (s : State) : (s.writeStatus w).avail = s.avail := rfl
@[simp] theorem State.writeStatus_inBuf (w : Word) (s : State) : (s.writeStatus w).inBuf = s.inBuf := rfl
@[simp] theorem State.writeStatus_outBuf (w : Word) (s : State) : (s.writeStatus w).outBuf = s.outBuf := rfl
@[simp] theorem State.writeStatus_pBuf (w : Word) (s : State) : (s.writeStatus w).pBuf = s.pBuf := rfl
@[simp] theorem State.writeStatus_engine (w : Word) (s : State) : (s.writeStatus w).engine = s.engine := rfl
@[simp] theorem State.writeStatus_response (w : Word) (s : State) : (s.writeStatus w).response = s.response := rfl
@[simp] theorem State.writeStatus_inputs (w : Word) (s : State) : (s.writeStatus w).inputs = s.inputs := rfl
@[simp] theorem State.writeStatus_misuse (w : Word) (s : State) : (s.writeStatus w).misuse = s.misuse := rfl
@[simp] theorem State.writeStatus_draws (w : Word) (s : State) : (s.writeStatus w).draws = s.draws := rfl

@[simp] theorem State.writeCtrl_cap (w : Word) (s : State) : (s.writeCtrl w).cap = s.cap := rfl
@[simp] theorem State.writeCtrl_ie (w : Word) (s : State) : (s.writeCtrl w).ie = w.getLsbD 0 := rfl
@[simp] theorem State.writeCtrl_done (w : Word) (s : State) : (s.writeCtrl w).done = s.done := rfl
@[simp] theorem State.writeCtrl_overrun (w : Word) (s : State) : (s.writeCtrl w).overrun = s.overrun := rfl
@[simp] theorem State.writeCtrl_result (w : Word) (s : State) : (s.writeCtrl w).result = s.result := rfl
@[simp] theorem State.writeCtrl_npReason (w : Word) (s : State) : (s.writeCtrl w).npReason = s.npReason := rfl
@[simp] theorem State.writeCtrl_lastOp (w : Word) (s : State) : (s.writeCtrl w).lastOp = s.lastOp := rfl
@[simp] theorem State.writeCtrl_clen (w : Word) (s : State) : (s.writeCtrl w).clen = s.clen := rfl
@[simp] theorem State.writeCtrl_plen (w : Word) (s : State) : (s.writeCtrl w).plen = s.plen := rfl
@[simp] theorem State.writeCtrl_hdr (w : Word) (s : State) : (s.writeCtrl w).hdr = s.hdr := rfl
@[simp] theorem State.writeCtrl_idx (w : Word) (s : State) : (s.writeCtrl w).idx = s.idx := rfl
@[simp] theorem State.writeCtrl_bitv (w : Word) (s : State) : (s.writeCtrl w).bitv = s.bitv := rfl
@[simp] theorem State.writeCtrl_req (w : Word) (s : State) : (s.writeCtrl w).req = s.req := rfl
@[simp] theorem State.writeCtrl_avail (w : Word) (s : State) : (s.writeCtrl w).avail = s.avail := rfl
@[simp] theorem State.writeCtrl_inBuf (w : Word) (s : State) : (s.writeCtrl w).inBuf = s.inBuf := rfl
@[simp] theorem State.writeCtrl_outBuf (w : Word) (s : State) : (s.writeCtrl w).outBuf = s.outBuf := rfl
@[simp] theorem State.writeCtrl_pBuf (w : Word) (s : State) : (s.writeCtrl w).pBuf = s.pBuf := rfl
@[simp] theorem State.writeCtrl_engine (w : Word) (s : State) : (s.writeCtrl w).engine = s.engine := rfl
@[simp] theorem State.writeCtrl_response (w : Word) (s : State) : (s.writeCtrl w).response = s.response := rfl
@[simp] theorem State.writeCtrl_inputs (w : Word) (s : State) : (s.writeCtrl w).inputs = s.inputs := rfl
@[simp] theorem State.writeCtrl_misuse (w : Word) (s : State) : (s.writeCtrl w).misuse = s.misuse := rfl
@[simp] theorem State.writeCtrl_draws (w : Word) (s : State) : (s.writeCtrl w).draws = s.draws := rfl

@[simp] theorem State.refuseWrite_cap (s : State) : (s.refuseWrite).cap = s.cap := rfl
@[simp] theorem State.refuseWrite_ie (s : State) : (s.refuseWrite).ie = s.ie := rfl
@[simp] theorem State.refuseWrite_done (s : State) : (s.refuseWrite).done = s.done := rfl
@[simp] theorem State.refuseWrite_overrun (s : State) : (s.refuseWrite).overrun = true := rfl
@[simp] theorem State.refuseWrite_result (s : State) : (s.refuseWrite).result = s.result := rfl
@[simp] theorem State.refuseWrite_npReason (s : State) : (s.refuseWrite).npReason = s.npReason := rfl
@[simp] theorem State.refuseWrite_lastOp (s : State) : (s.refuseWrite).lastOp = s.lastOp := rfl
@[simp] theorem State.refuseWrite_clen (s : State) : (s.refuseWrite).clen = s.clen := rfl
@[simp] theorem State.refuseWrite_plen (s : State) : (s.refuseWrite).plen = s.plen := rfl
@[simp] theorem State.refuseWrite_hdr (s : State) : (s.refuseWrite).hdr = s.hdr := rfl
@[simp] theorem State.refuseWrite_idx (s : State) : (s.refuseWrite).idx = s.idx := rfl
@[simp] theorem State.refuseWrite_bitv (s : State) : (s.refuseWrite).bitv = s.bitv := rfl
@[simp] theorem State.refuseWrite_req (s : State) : (s.refuseWrite).req = s.req := rfl
@[simp] theorem State.refuseWrite_avail (s : State) : (s.refuseWrite).avail = s.avail := rfl
@[simp] theorem State.refuseWrite_inBuf (s : State) : (s.refuseWrite).inBuf = s.inBuf := rfl
@[simp] theorem State.refuseWrite_outBuf (s : State) : (s.refuseWrite).outBuf = s.outBuf := rfl
@[simp] theorem State.refuseWrite_pBuf (s : State) : (s.refuseWrite).pBuf = s.pBuf := rfl
@[simp] theorem State.refuseWrite_engine (s : State) : (s.refuseWrite).engine = s.engine := rfl
@[simp] theorem State.refuseWrite_response (s : State) : (s.refuseWrite).response = s.response := rfl
@[simp] theorem State.refuseWrite_inputs (s : State) : (s.refuseWrite).inputs = s.inputs := rfl
@[simp] theorem State.refuseWrite_misuse (s : State) : (s.refuseWrite).misuse = s.misuse := rfl
@[simp] theorem State.refuseWrite_draws (s : State) : (s.refuseWrite).draws = s.draws := rfl

@[simp] theorem State.complete_cap (c : ResultCode) (r : NpReason) (o : BitVec 4) (s : State) : (s.complete c r o).cap = s.cap := rfl
@[simp] theorem State.complete_ie (c : ResultCode) (r : NpReason) (o : BitVec 4) (s : State) : (s.complete c r o).ie = s.ie := rfl
@[simp] theorem State.complete_done (c : ResultCode) (r : NpReason) (o : BitVec 4) (s : State) : (s.complete c r o).done = true := rfl
@[simp] theorem State.complete_overrun (c : ResultCode) (r : NpReason) (o : BitVec 4) (s : State) : (s.complete c r o).overrun = s.overrun := rfl
@[simp] theorem State.complete_result (c : ResultCode) (r : NpReason) (o : BitVec 4) (s : State) : (s.complete c r o).result = c := rfl
@[simp] theorem State.complete_npReason (c : ResultCode) (r : NpReason) (o : BitVec 4) (s : State) : (s.complete c r o).npReason = r := rfl
@[simp] theorem State.complete_lastOp (c : ResultCode) (r : NpReason) (o : BitVec 4) (s : State) : (s.complete c r o).lastOp = o := rfl
@[simp] theorem State.complete_clen (c : ResultCode) (r : NpReason) (o : BitVec 4) (s : State) : (s.complete c r o).clen = s.clen := rfl
@[simp] theorem State.complete_plen (c : ResultCode) (r : NpReason) (o : BitVec 4) (s : State) : (s.complete c r o).plen = s.plen := rfl
@[simp] theorem State.complete_hdr (c : ResultCode) (r : NpReason) (o : BitVec 4) (s : State) : (s.complete c r o).hdr = s.hdr := rfl
@[simp] theorem State.complete_idx (c : ResultCode) (r : NpReason) (o : BitVec 4) (s : State) : (s.complete c r o).idx = s.idx := rfl
@[simp] theorem State.complete_bitv (c : ResultCode) (r : NpReason) (o : BitVec 4) (s : State) : (s.complete c r o).bitv = s.bitv := rfl
@[simp] theorem State.complete_req (c : ResultCode) (r : NpReason) (o : BitVec 4) (s : State) : (s.complete c r o).req = s.req := rfl
@[simp] theorem State.complete_avail (c : ResultCode) (r : NpReason) (o : BitVec 4) (s : State) : (s.complete c r o).avail = s.avail := rfl
@[simp] theorem State.complete_inBuf (c : ResultCode) (r : NpReason) (o : BitVec 4) (s : State) : (s.complete c r o).inBuf = s.inBuf := rfl
@[simp] theorem State.complete_outBuf (c : ResultCode) (r : NpReason) (o : BitVec 4) (s : State) : (s.complete c r o).outBuf = s.outBuf := rfl
@[simp] theorem State.complete_pBuf (c : ResultCode) (r : NpReason) (o : BitVec 4) (s : State) : (s.complete c r o).pBuf = s.pBuf := rfl
@[simp] theorem State.complete_engine (c : ResultCode) (r : NpReason) (o : BitVec 4) (s : State) : (s.complete c r o).engine = none := rfl
@[simp] theorem State.complete_response (c : ResultCode) (r : NpReason) (o : BitVec 4) (s : State) : (s.complete c r o).response = s.response := rfl
@[simp] theorem State.complete_inputs (c : ResultCode) (r : NpReason) (o : BitVec 4) (s : State) : (s.complete c r o).inputs = s.inputs := rfl
@[simp] theorem State.complete_misuse (c : ResultCode) (r : NpReason) (o : BitVec 4) (s : State) : (s.complete c r o).misuse = s.misuse := rfl
@[simp] theorem State.complete_draws (c : ResultCode) (r : NpReason) (o : BitVec 4) (s : State) : (s.complete c r o).draws = s.draws := rfl

@[simp] theorem State.report_cap (n : Nat) (s : State) : (s.report n).cap = s.cap := rfl
@[simp] theorem State.report_ie (n : Nat) (s : State) : (s.report n).ie = s.ie := rfl
@[simp] theorem State.report_done (n : Nat) (s : State) : (s.report n).done = s.done := rfl
@[simp] theorem State.report_overrun (n : Nat) (s : State) : (s.report n).overrun = s.overrun := rfl
@[simp] theorem State.report_result (n : Nat) (s : State) : (s.report n).result = s.result := rfl
@[simp] theorem State.report_npReason (n : Nat) (s : State) : (s.report n).npReason = s.npReason := rfl
@[simp] theorem State.report_lastOp (n : Nat) (s : State) : (s.report n).lastOp = s.lastOp := rfl
@[simp] theorem State.report_clen (n : Nat) (s : State) : (s.report n).clen = s.clen := rfl
@[simp] theorem State.report_plen (n : Nat) (s : State) : (s.report n).plen = s.plen := rfl
@[simp] theorem State.report_hdr (n : Nat) (s : State) : (s.report n).hdr = s.hdr := rfl
@[simp] theorem State.report_idx (n : Nat) (s : State) : (s.report n).idx = s.idx := rfl
@[simp] theorem State.report_bitv (n : Nat) (s : State) : (s.report n).bitv = s.bitv := rfl
@[simp] theorem State.report_req (n : Nat) (s : State) : (s.report n).req = BitVec.ofNat 36 n := rfl
@[simp] theorem State.report_avail (n : Nat) (s : State) : (s.report n).avail = s.clen := rfl
@[simp] theorem State.report_inBuf (n : Nat) (s : State) : (s.report n).inBuf = s.inBuf := rfl
@[simp] theorem State.report_outBuf (n : Nat) (s : State) : (s.report n).outBuf = s.outBuf := rfl
@[simp] theorem State.report_pBuf (n : Nat) (s : State) : (s.report n).pBuf = s.pBuf := rfl
@[simp] theorem State.report_engine (n : Nat) (s : State) : (s.report n).engine = s.engine := rfl
@[simp] theorem State.report_response (n : Nat) (s : State) : (s.report n).response = s.response := rfl
@[simp] theorem State.report_inputs (n : Nat) (s : State) : (s.report n).inputs = s.inputs := rfl
@[simp] theorem State.report_misuse (n : Nat) (s : State) : (s.report n).misuse = s.misuse := rfl
@[simp] theorem State.report_draws (n : Nat) (s : State) : (s.report n).draws = s.draws := rfl

@[simp] theorem State.respond_cap (r : Response) (s : State) : (s.respond r).cap = s.cap := rfl
@[simp] theorem State.respond_ie (r : Response) (s : State) : (s.respond r).ie = s.ie := rfl
@[simp] theorem State.respond_done (r : Response) (s : State) : (s.respond r).done = s.done := rfl
@[simp] theorem State.respond_overrun (r : Response) (s : State) : (s.respond r).overrun = s.overrun := rfl
@[simp] theorem State.respond_result (r : Response) (s : State) : (s.respond r).result = s.result := rfl
@[simp] theorem State.respond_npReason (r : Response) (s : State) : (s.respond r).npReason = s.npReason := rfl
@[simp] theorem State.respond_lastOp (r : Response) (s : State) : (s.respond r).lastOp = s.lastOp := rfl
@[simp] theorem State.respond_clen (r : Response) (s : State) : (s.respond r).clen = s.clen := rfl
@[simp] theorem State.respond_plen (r : Response) (s : State) : (s.respond r).plen = s.plen := rfl
@[simp] theorem State.respond_hdr (r : Response) (s : State) : (s.respond r).hdr = s.hdr := rfl
@[simp] theorem State.respond_idx (r : Response) (s : State) : (s.respond r).idx = s.idx := rfl
@[simp] theorem State.respond_bitv (r : Response) (s : State) : (s.respond r).bitv = s.bitv := rfl
@[simp] theorem State.respond_req (r : Response) (s : State) : (s.respond r).req = s.req := rfl
@[simp] theorem State.respond_avail (r : Response) (s : State) : (s.respond r).avail = s.avail := rfl
@[simp] theorem State.respond_inBuf (r : Response) (s : State) : (s.respond r).inBuf = s.inBuf := rfl
@[simp] theorem State.respond_outBuf (r : Response) (s : State) : (s.respond r).outBuf = s.outBuf := rfl
@[simp] theorem State.respond_pBuf (r : Response) (s : State) : (s.respond r).pBuf = s.pBuf := rfl
@[simp] theorem State.respond_engine (r : Response) (s : State) : (s.respond r).engine = s.engine := rfl
@[simp] theorem State.respond_response (r : Response) (s : State) : (s.respond r).response = some r := rfl
@[simp] theorem State.respond_inputs (r : Response) (s : State) : (s.respond r).inputs = s.inputs := rfl
@[simp] theorem State.respond_misuse (r : Response) (s : State) : (s.respond r).misuse = s.misuse := rfl
@[simp] theorem State.respond_draws (r : Response) (s : State) : (s.respond r).draws = s.draws := rfl

@[simp] theorem State.setBuffer_inBuf_cap (s : State) (m : Memory) : (s.setBuffer .inBuf m).cap = s.cap := rfl
@[simp] theorem State.setBuffer_inBuf_ie (s : State) (m : Memory) : (s.setBuffer .inBuf m).ie = s.ie := rfl
@[simp] theorem State.setBuffer_inBuf_done (s : State) (m : Memory) : (s.setBuffer .inBuf m).done = s.done := rfl
@[simp] theorem State.setBuffer_inBuf_overrun (s : State) (m : Memory) : (s.setBuffer .inBuf m).overrun = s.overrun := rfl
@[simp] theorem State.setBuffer_inBuf_result (s : State) (m : Memory) : (s.setBuffer .inBuf m).result = s.result := rfl
@[simp] theorem State.setBuffer_inBuf_npReason (s : State) (m : Memory) : (s.setBuffer .inBuf m).npReason = s.npReason := rfl
@[simp] theorem State.setBuffer_inBuf_lastOp (s : State) (m : Memory) : (s.setBuffer .inBuf m).lastOp = s.lastOp := rfl
@[simp] theorem State.setBuffer_inBuf_clen (s : State) (m : Memory) : (s.setBuffer .inBuf m).clen = s.clen := rfl
@[simp] theorem State.setBuffer_inBuf_plen (s : State) (m : Memory) : (s.setBuffer .inBuf m).plen = s.plen := rfl
@[simp] theorem State.setBuffer_inBuf_hdr (s : State) (m : Memory) : (s.setBuffer .inBuf m).hdr = s.hdr := rfl
@[simp] theorem State.setBuffer_inBuf_idx (s : State) (m : Memory) : (s.setBuffer .inBuf m).idx = s.idx := rfl
@[simp] theorem State.setBuffer_inBuf_bitv (s : State) (m : Memory) : (s.setBuffer .inBuf m).bitv = s.bitv := rfl
@[simp] theorem State.setBuffer_inBuf_req (s : State) (m : Memory) : (s.setBuffer .inBuf m).req = s.req := rfl
@[simp] theorem State.setBuffer_inBuf_avail (s : State) (m : Memory) : (s.setBuffer .inBuf m).avail = s.avail := rfl
@[simp] theorem State.setBuffer_inBuf_inBuf (s : State) (m : Memory) : (s.setBuffer .inBuf m).inBuf = m := rfl
@[simp] theorem State.setBuffer_inBuf_outBuf (s : State) (m : Memory) : (s.setBuffer .inBuf m).outBuf = s.outBuf := rfl
@[simp] theorem State.setBuffer_inBuf_pBuf (s : State) (m : Memory) : (s.setBuffer .inBuf m).pBuf = s.pBuf := rfl
@[simp] theorem State.setBuffer_inBuf_engine (s : State) (m : Memory) : (s.setBuffer .inBuf m).engine = s.engine := rfl
@[simp] theorem State.setBuffer_inBuf_response (s : State) (m : Memory) : (s.setBuffer .inBuf m).response = s.response := rfl
@[simp] theorem State.setBuffer_inBuf_inputs (s : State) (m : Memory) : (s.setBuffer .inBuf m).inputs = s.inputs := rfl
@[simp] theorem State.setBuffer_inBuf_misuse (s : State) (m : Memory) : (s.setBuffer .inBuf m).misuse = s.misuse := rfl
@[simp] theorem State.setBuffer_inBuf_draws (s : State) (m : Memory) : (s.setBuffer .inBuf m).draws = s.draws := rfl

@[simp] theorem State.setBuffer_outBuf_cap (s : State) (m : Memory) : (s.setBuffer .outBuf m).cap = s.cap := rfl
@[simp] theorem State.setBuffer_outBuf_ie (s : State) (m : Memory) : (s.setBuffer .outBuf m).ie = s.ie := rfl
@[simp] theorem State.setBuffer_outBuf_done (s : State) (m : Memory) : (s.setBuffer .outBuf m).done = s.done := rfl
@[simp] theorem State.setBuffer_outBuf_overrun (s : State) (m : Memory) : (s.setBuffer .outBuf m).overrun = s.overrun := rfl
@[simp] theorem State.setBuffer_outBuf_result (s : State) (m : Memory) : (s.setBuffer .outBuf m).result = s.result := rfl
@[simp] theorem State.setBuffer_outBuf_npReason (s : State) (m : Memory) : (s.setBuffer .outBuf m).npReason = s.npReason := rfl
@[simp] theorem State.setBuffer_outBuf_lastOp (s : State) (m : Memory) : (s.setBuffer .outBuf m).lastOp = s.lastOp := rfl
@[simp] theorem State.setBuffer_outBuf_clen (s : State) (m : Memory) : (s.setBuffer .outBuf m).clen = s.clen := rfl
@[simp] theorem State.setBuffer_outBuf_plen (s : State) (m : Memory) : (s.setBuffer .outBuf m).plen = s.plen := rfl
@[simp] theorem State.setBuffer_outBuf_hdr (s : State) (m : Memory) : (s.setBuffer .outBuf m).hdr = s.hdr := rfl
@[simp] theorem State.setBuffer_outBuf_idx (s : State) (m : Memory) : (s.setBuffer .outBuf m).idx = s.idx := rfl
@[simp] theorem State.setBuffer_outBuf_bitv (s : State) (m : Memory) : (s.setBuffer .outBuf m).bitv = s.bitv := rfl
@[simp] theorem State.setBuffer_outBuf_req (s : State) (m : Memory) : (s.setBuffer .outBuf m).req = s.req := rfl
@[simp] theorem State.setBuffer_outBuf_avail (s : State) (m : Memory) : (s.setBuffer .outBuf m).avail = s.avail := rfl
@[simp] theorem State.setBuffer_outBuf_inBuf (s : State) (m : Memory) : (s.setBuffer .outBuf m).inBuf = s.inBuf := rfl
@[simp] theorem State.setBuffer_outBuf_outBuf (s : State) (m : Memory) : (s.setBuffer .outBuf m).outBuf = m := rfl
@[simp] theorem State.setBuffer_outBuf_pBuf (s : State) (m : Memory) : (s.setBuffer .outBuf m).pBuf = s.pBuf := rfl
@[simp] theorem State.setBuffer_outBuf_engine (s : State) (m : Memory) : (s.setBuffer .outBuf m).engine = s.engine := rfl
@[simp] theorem State.setBuffer_outBuf_response (s : State) (m : Memory) : (s.setBuffer .outBuf m).response = s.response := rfl
@[simp] theorem State.setBuffer_outBuf_inputs (s : State) (m : Memory) : (s.setBuffer .outBuf m).inputs = s.inputs := rfl
@[simp] theorem State.setBuffer_outBuf_misuse (s : State) (m : Memory) : (s.setBuffer .outBuf m).misuse = s.misuse := rfl
@[simp] theorem State.setBuffer_outBuf_draws (s : State) (m : Memory) : (s.setBuffer .outBuf m).draws = s.draws := rfl

@[simp] theorem State.setBuffer_pBuf_cap (s : State) (m : Memory) : (s.setBuffer .pBuf m).cap = s.cap := rfl
@[simp] theorem State.setBuffer_pBuf_ie (s : State) (m : Memory) : (s.setBuffer .pBuf m).ie = s.ie := rfl
@[simp] theorem State.setBuffer_pBuf_done (s : State) (m : Memory) : (s.setBuffer .pBuf m).done = s.done := rfl
@[simp] theorem State.setBuffer_pBuf_overrun (s : State) (m : Memory) : (s.setBuffer .pBuf m).overrun = s.overrun := rfl
@[simp] theorem State.setBuffer_pBuf_result (s : State) (m : Memory) : (s.setBuffer .pBuf m).result = s.result := rfl
@[simp] theorem State.setBuffer_pBuf_npReason (s : State) (m : Memory) : (s.setBuffer .pBuf m).npReason = s.npReason := rfl
@[simp] theorem State.setBuffer_pBuf_lastOp (s : State) (m : Memory) : (s.setBuffer .pBuf m).lastOp = s.lastOp := rfl
@[simp] theorem State.setBuffer_pBuf_clen (s : State) (m : Memory) : (s.setBuffer .pBuf m).clen = s.clen := rfl
@[simp] theorem State.setBuffer_pBuf_plen (s : State) (m : Memory) : (s.setBuffer .pBuf m).plen = s.plen := rfl
@[simp] theorem State.setBuffer_pBuf_hdr (s : State) (m : Memory) : (s.setBuffer .pBuf m).hdr = s.hdr := rfl
@[simp] theorem State.setBuffer_pBuf_idx (s : State) (m : Memory) : (s.setBuffer .pBuf m).idx = s.idx := rfl
@[simp] theorem State.setBuffer_pBuf_bitv (s : State) (m : Memory) : (s.setBuffer .pBuf m).bitv = s.bitv := rfl
@[simp] theorem State.setBuffer_pBuf_req (s : State) (m : Memory) : (s.setBuffer .pBuf m).req = s.req := rfl
@[simp] theorem State.setBuffer_pBuf_avail (s : State) (m : Memory) : (s.setBuffer .pBuf m).avail = s.avail := rfl
@[simp] theorem State.setBuffer_pBuf_inBuf (s : State) (m : Memory) : (s.setBuffer .pBuf m).inBuf = s.inBuf := rfl
@[simp] theorem State.setBuffer_pBuf_outBuf (s : State) (m : Memory) : (s.setBuffer .pBuf m).outBuf = s.outBuf := rfl
@[simp] theorem State.setBuffer_pBuf_pBuf (s : State) (m : Memory) : (s.setBuffer .pBuf m).pBuf = m := rfl
@[simp] theorem State.setBuffer_pBuf_engine (s : State) (m : Memory) : (s.setBuffer .pBuf m).engine = s.engine := rfl
@[simp] theorem State.setBuffer_pBuf_response (s : State) (m : Memory) : (s.setBuffer .pBuf m).response = s.response := rfl
@[simp] theorem State.setBuffer_pBuf_inputs (s : State) (m : Memory) : (s.setBuffer .pBuf m).inputs = s.inputs := rfl
@[simp] theorem State.setBuffer_pBuf_misuse (s : State) (m : Memory) : (s.setBuffer .pBuf m).misuse = s.misuse := rfl
@[simp] theorem State.setBuffer_pBuf_draws (s : State) (m : Memory) : (s.setBuffer .pBuf m).draws = s.draws := rfl

@[simp] theorem applyReset_cap (s : State) : (applyReset s).cap = s.cap := rfl
@[simp] theorem applyReset_ie (s : State) : (applyReset s).ie = false := rfl
@[simp] theorem applyReset_done (s : State) : (applyReset s).done = false := rfl
@[simp] theorem applyReset_overrun (s : State) : (applyReset s).overrun = false := rfl
@[simp] theorem applyReset_result (s : State) : (applyReset s).result = .none := rfl
@[simp] theorem applyReset_npReason (s : State) : (applyReset s).npReason = .none := rfl
@[simp] theorem applyReset_lastOp (s : State) : (applyReset s).lastOp = 0#4 := rfl
@[simp] theorem applyReset_clen (s : State) : (applyReset s).clen = 0#32 := rfl
@[simp] theorem applyReset_plen (s : State) : (applyReset s).plen = 0#32 := rfl
@[simp] theorem applyReset_hdr (s : State) : (applyReset s).hdr = 0#32 := rfl
@[simp] theorem applyReset_idx (s : State) : (applyReset s).idx = 0#32 := rfl
@[simp] theorem applyReset_bitv (s : State) : (applyReset s).bitv = 0#1 := rfl
@[simp] theorem applyReset_req (s : State) : (applyReset s).req = 0#36 := rfl
@[simp] theorem applyReset_avail (s : State) : (applyReset s).avail = 0#32 := rfl
@[simp] theorem applyReset_inBuf (s : State) : (applyReset s).inBuf = [] := rfl
@[simp] theorem applyReset_outBuf (s : State) : (applyReset s).outBuf = [] := rfl
@[simp] theorem applyReset_pBuf (s : State) : (applyReset s).pBuf = [] := rfl
@[simp] theorem applyReset_engine (s : State) : (applyReset s).engine = none := rfl
@[simp] theorem applyReset_response (s : State) : (applyReset s).response = none := rfl
@[simp] theorem applyReset_inputs (s : State) : (applyReset s).inputs = s.inputs := rfl
@[simp] theorem applyReset_misuse (s : State) : (applyReset s).misuse = s.misuse := rfl
@[simp] theorem applyReset_draws (s : State) : (applyReset s).draws = s.draws := rfl

@[simp] theorem State.buffer_inBuf (s : State) : s.buffer .inBuf = s.inBuf := rfl
@[simp] theorem State.buffer_outBuf (s : State) : s.buffer .outBuf = s.outBuf := rfl
@[simp] theorem State.buffer_pBuf (s : State) : s.buffer .pBuf = s.pBuf := rfl
@[simp] theorem State.bufSize_inBuf (s : State) : s.bufSize .inBuf = s.cap := rfl
@[simp] theorem State.bufSize_outBuf (s : State) : s.bufSize .outBuf = s.cap := rfl
@[simp] theorem State.bufSize_pBuf (s : State) : s.bufSize .pBuf = s.cap / 8 := rfl

@[simp] theorem State.buffer_setBuffer_same (s : State) (b : Buf) (m : Memory) : (s.setBuffer b m).buffer b = m := by
  cases b <;> rfl

theorem State.buffer_setBuffer_other (s : State) {b c : Buf} (m : Memory) (h : c ≠ b) :
    (s.setBuffer b m).buffer c = s.buffer c := by
  cases b <;> cases c <;> first | rfl | exact absurd rfl h

@[simp] theorem State.busy_complete (c : ResultCode) (r : NpReason) (o : BitVec 4) (s : State) :
    (s.complete c r o).busy = false := rfl

@[simp] theorem State.busy_accept (w : Word) (s : State) : (s.accept w).busy = true := rfl

@[simp] theorem State.busy_respond (r : Response) (s : State) : (s.respond r).busy = s.busy := rfl

theorem State.busy_iff (s : State) : s.busy = true ↔ ∃ w, s.engine = some w := by
  simp [State.busy, Option.isSome_iff_exists]

end Sys2Proof.Machine
end

