-- ==== Sys2Proof/Laws/Exec.lean ====
section
/-! SUPPORT. What each command can do, said once: if its meaning answers a next state, then one of the listed cases
holds. Later proofs cite these lemmas and never unfold a meaning. -/

namespace Sys2Proof.Machine

/-! ### The shared ends -/

/-- The state in which a command ends with a recorded host fault. -/
def State.endMisuse (m : Misuse) (op : BitVec 4) (s : State) : State :=
  { s.complete m.code .none op with misuse := m :: s.misuse }

@[simp] theorem raiseMisuse_eq (m : Misuse) (op : BitVec 4) (s : State) :
    raiseMisuse m op s = .next (s.endMisuse m op) := rfl

@[simp] theorem finishOk_eq (op : BitVec 4) (s : State) : finishOk op s = .next (s.complete .ok .none op) := rfl

@[simp] theorem raiseCapacity_eq (op : BitVec 4) (s : State) :
    raiseCapacity op s = .next (s.complete .capacityExceeded .none op) := rfl

@[simp] theorem raiseNoPayload_eq (r : NpReason) (op : BitVec 4) (s : State) :
    raiseNoPayload r op s = .next (s.complete .noPayload r op) := rfl

theorem onOk_next {α : Type} {x : Except Fault α} {k : α → Result} {t : State} (h : onOk x k = .next t) :
    ∃ a, x = .ok a ∧ k a = .next t := by
  cases x with
  | ok a => exact ⟨a, rfl, h⟩
  | error e => cases h

@[simp] theorem onOk_ok {α : Type} (a : α) (k : α → Result) : onOk (.ok a) k = k a := rfl

@[simp] theorem onOk_error {α : Type} (e : Fault) (k : α → Result) : onOk (.error e) k = .fault e := rfl

theorem checkLength_bad {op : BitVec 4} {s : State} {body : Result} (h : s.cap < s.clen.toNat) :
    checkLength op s body = .next (s.endMisuse (.badLength s.clen) op) := by
  simp [checkLength, h]

theorem checkLength_good {op : BitVec 4} {s : State} {body : Result} (h : s.clen.toNat ≤ s.cap) :
    checkLength op s body = body := by
  simp [checkLength, Nat.not_lt.2 h]

theorem checkLength_next {op : BitVec 4} {s t : State} {body : Result} (h : checkLength op s body = .next t) :
    (s.cap < s.clen.toNat ∧ t = s.endMisuse (.badLength s.clen) op) ∨ (s.clen.toNat ≤ s.cap ∧ body = .next t) := by
  rcases Nat.lt_or_ge s.cap s.clen.toNat with hc | hc
  · rw [checkLength_bad hc] at h
    exact .inl ⟨hc, (Host.Outcome.next.inj h).symm⟩
  · rw [checkLength_good hc] at h
    exact .inr ⟨hc, h⟩

/-! ### The nine commands -/

theorem execSetbit_next {val : Byte} {s t : State} (h : execSetbit val s = .next t) :
    (s.cap < s.clen.toNat ∧ t = s.endMisuse (.badLength s.clen) 0x1#4) ∨
    (s.clen.toNat ≤ s.cap ∧ s.clen.toNat ≤ s.idx.toNat ∧
      t = (s.report (s.idx.toNat + 1)).endMisuse (.indexRange s.idx s.clen) 0x1#4) ∨
    (s.clen.toNat ≤ s.cap ∧ s.idx.toNat < s.clen.toNat ∧ ∃ out, setbit s.outBuf s.idx.toNat (val &&& 1#8) = .ok out ∧
      t = State.complete .ok .none 0x1#4 (State.report (s.idx.toNat + 1) { s with outBuf := out })) := by
  rcases checkLength_next h with hb | ⟨hc, h⟩
  · exact .inl hb
  · split at h
    · exact .inr (.inl ⟨hc, ‹_›, (Host.Outcome.next.inj h).symm⟩)
    · obtain ⟨out, ho, h⟩ := onOk_next h
      exact .inr (.inr ⟨hc, Nat.lt_of_not_le ‹_›, out, ho, (Host.Outcome.next.inj h).symm⟩)

theorem execGetbit_next {sel : Sel} {s t : State} (h : execGetbit sel s = .next t) :
    (s.cap < s.clen.toNat ∧ t = s.endMisuse (.badLength s.clen) 0x2#4) ∨
    (s.clen.toNat ≤ s.cap ∧ s.clen.toNat ≤ s.idx.toNat ∧
      t = (s.report (s.idx.toNat + 1)).endMisuse (.indexRange s.idx s.clen) 0x2#4) ∨
    (s.clen.toNat ≤ s.cap ∧ s.idx.toNat < s.clen.toNat ∧
      ∃ b, getbit (carrier sel) (s.buffer (carrier sel)) s.idx.toNat = .ok b ∧
      t = State.complete .ok .none 0x2#4 (State.report (s.idx.toNat + 1) { s with bitv := b.setWidth 1 })) := by
  rcases checkLength_next h with hb | ⟨hc, h⟩
  · exact .inl hb
  · split at h
    · exact .inr (.inl ⟨hc, ‹_›, (Host.Outcome.next.inj h).symm⟩)
    · obtain ⟨out, ho, h⟩ := onOk_next h
      exact .inr (.inr ⟨hc, Nat.lt_of_not_le ‹_›, out, ho, (Host.Outcome.next.inj h).symm⟩)

theorem execHdrEnc_next {s t : State} (h : execHdrEnc s = .next t) :
    (s.cap < s.clen.toNat ∧ t = s.endMisuse (.badLength s.clen) 0x3#4) ∨
    (s.clen.toNat ≤ s.cap ∧ s.clen.toNat < 32 ∧ t = (s.report 32).complete .capacityExceeded .none 0x3#4) ∨
    (s.clen.toNat ≤ s.cap ∧ 32 ≤ s.clen.toNat ∧ ∃ out, hdrWrite s.outBuf s.hdr = .ok out ∧
      t = State.complete .ok .none 0x3#4 (State.report 32 { s with outBuf := out })) := by
  rcases checkLength_next h with hb | ⟨hc, h⟩
  · exact .inl hb
  · split at h
    · exact .inr (.inl ⟨hc, ‹_›, (Host.Outcome.next.inj h).symm⟩)
    · obtain ⟨out, ho, h⟩ := onOk_next h
      exact .inr (.inr ⟨hc, Nat.le_of_not_lt ‹_›, out, ho, (Host.Outcome.next.inj h).symm⟩)

theorem execHdrDec_next {sel : Sel} {s t : State} (h : execHdrDec sel s = .next t) :
    (s.cap < s.clen.toNat ∧ t = s.endMisuse (.badLength s.clen) 0x4#4) ∨
    (s.clen.toNat ≤ s.cap ∧ s.clen.toNat < 32 ∧ t = (s.report 32).complete .noPayload .short 0x4#4) ∨
    (s.clen.toNat ≤ s.cap ∧ 32 ≤ s.clen.toNat ∧ ∃ v, hdrRead (carrier sel) (s.buffer (carrier sel)) = .ok v ∧
      t = State.complete .ok .none 0x4#4 (State.report 32 { s with hdr := v })) := by
  rcases checkLength_next h with hb | ⟨hc, h⟩
  · exact .inl hb
  · split at h
    · exact .inr (.inl ⟨hc, ‹_›, (Host.Outcome.next.inj h).symm⟩)
    · obtain ⟨out, ho, h⟩ := onOk_next h
      exact .inr (.inr ⟨hc, Nat.le_of_not_lt ‹_›, out, ho, (Host.Outcome.next.inj h).symm⟩)

theorem execPayEnc_next {s t : State} (h : execPayEnc s = .next t) :
    (s.cap < s.clen.toNat ∧ t = s.endMisuse (.badLength s.clen) 0x5#4) ∨
    (s.clen.toNat ≤ s.cap ∧ s.clen.toNat < s.idx.toNat + 8 * s.plen.toNat ∧
      t = (s.report (s.idx.toNat + 8 * s.plen.toNat)).complete .capacityExceeded .none 0x5#4) ∨
    (s.clen.toNat ≤ s.cap ∧ s.idx.toNat + 8 * s.plen.toNat ≤ s.clen.toNat ∧
      ∃ out, payWrite s.pBuf s.outBuf s.idx.toNat s.plen.toNat = .ok out ∧
      t = State.complete .ok .none 0x5#4 (State.report (s.idx.toNat + 8 * s.plen.toNat) { s with outBuf := out })) := by
  rcases checkLength_next h with hb | ⟨hc, h⟩
  · exact .inl hb
  · split at h
    · exact .inr (.inl ⟨hc, ‹_›, (Host.Outcome.next.inj h).symm⟩)
    · obtain ⟨out, ho, h⟩ := onOk_next h
      exact .inr (.inr ⟨hc, Nat.le_of_not_lt ‹_›, out, ho, (Host.Outcome.next.inj h).symm⟩)

theorem execPayDec_next {sel : Sel} {s t : State} (h : execPayDec sel s = .next t) :
    (s.cap < s.clen.toNat ∧ t = s.endMisuse (.badLength s.clen) 0x6#4) ∨
    (s.clen.toNat ≤ s.cap ∧ s.clen.toNat < s.idx.toNat + 8 * s.plen.toNat ∧
      t = (s.report (s.idx.toNat + 8 * s.plen.toNat)).complete .noPayload .length 0x6#4) ∨
    (s.clen.toNat ≤ s.cap ∧ s.idx.toNat + 8 * s.plen.toNat ≤ s.clen.toNat ∧
      ∃ bytes, payRead (carrier sel) (s.buffer (carrier sel)) s.idx.toNat s.plen.toNat = .ok bytes ∧
      t = State.complete .ok .none 0x6#4
        (State.report (s.idx.toNat + 8 * s.plen.toNat) { s with pBuf := s.pBuf.writeBytes 0 bytes })) := by
  rcases checkLength_next h with hb | ⟨hc, h⟩
  · exact .inl hb
  · split at h
    · exact .inr (.inl ⟨hc, ‹_›, (Host.Outcome.next.inj h).symm⟩)
    · obtain ⟨out, ho, h⟩ := onOk_next h
      exact .inr (.inr ⟨hc, Nat.le_of_not_lt ‹_›, out, ho, (Host.Outcome.next.inj h).symm⟩)

theorem execCopy_next {s t : State} (h : execCopy s = .next t) :
    (s.cap < s.clen.toNat ∧ t = s.endMisuse (.badLength s.clen) 0x7#4) ∨
    (s.clen.toNat ≤ s.cap ∧ ∃ out, copyBytes s.inBuf s.outBuf s.clen.toNat = .ok out ∧
      t = State.complete .ok .none 0x7#4 { s with outBuf := out }) := by
  rcases checkLength_next h with hb | ⟨hc, h⟩
  · exact .inl hb
  · obtain ⟨out, ho, h⟩ := onOk_next h
    exact .inr ⟨hc, out, ho, (Host.Outcome.next.inj h).symm⟩

/-- ENCODE's three buffer steps, each of which succeeded. -/
theorem encodeInto_ok {s : State} {out : Memory} (h : encodeInto s = .ok out) :
    ∃ copied headed, copyBytes s.inBuf s.outBuf s.clen.toNat = .ok copied ∧ hdrWrite copied s.plen = .ok headed ∧
      payWrite s.pBuf headed 32 s.plen.toNat = .ok out := by
  unfold encodeInto at h
  split at h
  · cases h
  · split at h
    · cases h
    · exact ⟨_, _, ‹_›, ‹_›, h⟩

theorem execEncode_next {s t : State} (h : execEncode s = .next t) :
    (s.cap < s.clen.toNat ∧ t = s.endMisuse (.badLength s.clen) 0x8#4) ∨
    (s.clen.toNat ≤ s.cap ∧ s.clen.toNat < 32 + 8 * s.plen.toNat ∧
      t = (s.report (32 + 8 * s.plen.toNat)).complete .capacityExceeded .none 0x8#4) ∨
    (s.clen.toNat ≤ s.cap ∧ 32 + 8 * s.plen.toNat ≤ s.clen.toNat ∧ ∃ out, encodeInto s = .ok out ∧
      t = State.complete .ok .none 0x8#4 (State.report (32 + 8 * s.plen.toNat) { s with outBuf := out })) := by
  rcases checkLength_next h with hb | ⟨hc, h⟩
  · exact .inl hb
  · split at h
    · exact .inr (.inl ⟨hc, ‹_›, (Host.Outcome.next.inj h).symm⟩)
    · obtain ⟨out, ho, h⟩ := onOk_next h
      exact .inr (.inr ⟨hc, Nat.le_of_not_lt ‹_›, out, ho, (Host.Outcome.next.inj h).symm⟩)

theorem execDecode_next {sel : Sel} {s t : State} (h : execDecode sel s = .next t) :
    (s.cap < s.clen.toNat ∧ t = s.endMisuse (.badLength s.clen) 0x9#4) ∨
    (s.clen.toNat ≤ s.cap ∧ s.clen.toNat < 32 ∧
      t = State.complete .noPayload .short 0x9#4 (State.report 32 { s with plen := 0#32 })) ∨
    (s.clen.toNat ≤ s.cap ∧ 32 ≤ s.clen.toNat ∧ ∃ len, hdrRead (carrier sel) (s.buffer (carrier sel)) = .ok len ∧
      ((s.clen.toNat < 32 + 8 * len.toNat ∧
          t = State.complete .noPayload .length 0x9#4
            (State.report (32 + 8 * len.toNat) { s with hdr := len, plen := 0#32 })) ∨
        (32 + 8 * len.toNat ≤ s.clen.toNat ∧
          ∃ bytes, payRead (carrier sel) (s.buffer (carrier sel)) 32 len.toNat = .ok bytes ∧
          ((utf8Valid bytes = true ∧ t = State.complete .ok .none 0x9#4
              (State.report (32 + 8 * len.toNat) { s with hdr := len, plen := len, pBuf := s.pBuf.writeBytes 0 bytes })) ∨
            (utf8Valid bytes = false ∧ t = State.complete .noPayload .utf8 0x9#4
              (State.report (32 + 8 * len.toNat)
                { s with
                  hdr := len, plen := 0#32, pBuf := s.pBuf.writeBytes 0 (drawBytes s.draws len.toNat),
                  draws := s.draws + len.toNat })))))) := by
  rcases checkLength_next h with hb | ⟨hc, h⟩
  · exact .inl hb
  · split at h
    · exact .inr (.inl ⟨hc, ‹_›, (Host.Outcome.next.inj h).symm⟩)
    · obtain ⟨len, hl, h⟩ := onOk_next h
      refine .inr (.inr ⟨hc, Nat.le_of_not_lt ‹_›, len, hl, ?_⟩)
      split at h
      · exact .inl ⟨‹_›, (Host.Outcome.next.inj h).symm⟩
      · rename_i hlen
        obtain ⟨bytes, hb, h⟩ := onOk_next h
        refine .inr ⟨Nat.le_of_not_lt hlen, bytes, hb, ?_⟩
        unfold decodeFinish at h
        split at h
        · rename_i hv
          exact .inl ⟨hv, (Host.Outcome.next.inj h).symm⟩
        · rename_i hv
          exact .inr ⟨by simpa using hv, (Host.Outcome.next.inj h).symm⟩

/-! ### The nine commands, from their conditions -/

theorem execSetbit_range {val : Byte} {s : State} (hc : s.clen.toNat ≤ s.cap) (h : s.clen.toNat ≤ s.idx.toNat) :
    execSetbit val s = .next ((s.report (s.idx.toNat + 1)).endMisuse (.indexRange s.idx s.clen) 0x1#4) := by
  rw [execSetbit, checkLength_good hc, if_pos h]; rfl

theorem execSetbit_run {val : Byte} {s : State} (hc : s.clen.toNat ≤ s.cap) (h : s.idx.toNat < s.clen.toNat) :
    execSetbit val s = onOk (setbit s.outBuf s.idx.toNat (val &&& 1#8)) fun out =>
      .next (State.complete .ok .none 0x1#4 (State.report (s.idx.toNat + 1) { s with outBuf := out })) := by
  rw [execSetbit, checkLength_good hc, if_neg (Nat.not_le.2 h)]; rfl

theorem execGetbit_range {sel : Sel} {s : State} (hc : s.clen.toNat ≤ s.cap) (h : s.clen.toNat ≤ s.idx.toNat) :
    execGetbit sel s = .next ((s.report (s.idx.toNat + 1)).endMisuse (.indexRange s.idx s.clen) 0x2#4) := by
  rw [execGetbit, checkLength_good hc, if_pos h]; rfl

theorem execGetbit_run {sel : Sel} {s : State} (hc : s.clen.toNat ≤ s.cap) (h : s.idx.toNat < s.clen.toNat) :
    execGetbit sel s = onOk (getbit (carrier sel) (s.buffer (carrier sel)) s.idx.toNat) fun b =>
      .next (State.complete .ok .none 0x2#4 (State.report (s.idx.toNat + 1) { s with bitv := b.setWidth 1 })) := by
  rw [execGetbit, checkLength_good hc, if_neg (Nat.not_le.2 h)]; rfl

theorem execHdrEnc_short {s : State} (hc : s.clen.toNat ≤ s.cap) (h : s.clen.toNat < 32) :
    execHdrEnc s = .next ((s.report 32).complete .capacityExceeded .none 0x3#4) := by
  rw [execHdrEnc, checkLength_good hc, if_pos (show _ < Config.headerBits from h)]; rfl

theorem execHdrEnc_run {s : State} (hc : s.clen.toNat ≤ s.cap) (h : 32 ≤ s.clen.toNat) :
    execHdrEnc s = onOk (hdrWrite s.outBuf s.hdr) fun out =>
      .next (State.complete .ok .none 0x3#4 (State.report 32 { s with outBuf := out })) := by
  rw [execHdrEnc, checkLength_good hc, if_neg (show ¬ _ < Config.headerBits from Nat.not_lt.2 h)]; rfl

theorem execHdrDec_short {sel : Sel} {s : State} (hc : s.clen.toNat ≤ s.cap) (h : s.clen.toNat < 32) :
    execHdrDec sel s = .next ((s.report 32).complete .noPayload .short 0x4#4) := by
  rw [execHdrDec, checkLength_good hc, if_pos (show _ < Config.headerBits from h)]; rfl

theorem execHdrDec_run {sel : Sel} {s : State} (hc : s.clen.toNat ≤ s.cap) (h : 32 ≤ s.clen.toNat) :
    execHdrDec sel s = onOk (hdrRead (carrier sel) (s.buffer (carrier sel))) fun v =>
      .next (State.complete .ok .none 0x4#4 (State.report 32 { s with hdr := v })) := by
  rw [execHdrDec, checkLength_good hc, if_neg (show ¬ _ < Config.headerBits from Nat.not_lt.2 h)]; rfl

theorem execPayEnc_range {s : State} (hc : s.clen.toNat ≤ s.cap) (h : s.clen.toNat < s.idx.toNat + 8 * s.plen.toNat) :
    execPayEnc s = .next ((s.report (s.idx.toNat + 8 * s.plen.toNat)).complete .capacityExceeded .none 0x5#4) := by
  rw [execPayEnc, checkLength_good hc, if_pos (show _ < s.reqPayload from h)]; rfl

theorem execPayEnc_run {s : State} (hc : s.clen.toNat ≤ s.cap) (h : s.idx.toNat + 8 * s.plen.toNat ≤ s.clen.toNat) :
    execPayEnc s = onOk (payWrite s.pBuf s.outBuf s.idx.toNat s.plen.toNat) fun out =>
      .next (State.complete .ok .none 0x5#4
        (State.report (s.idx.toNat + 8 * s.plen.toNat) { s with outBuf := out })) := by
  rw [execPayEnc, checkLength_good hc, if_neg (show ¬ _ < s.reqPayload from Nat.not_lt.2 h)]; rfl

theorem execPayDec_range {sel : Sel} {s : State} (hc : s.clen.toNat ≤ s.cap)
    (h : s.clen.toNat < s.idx.toNat + 8 * s.plen.toNat) :
    execPayDec sel s = .next ((s.report (s.idx.toNat + 8 * s.plen.toNat)).complete .noPayload .length 0x6#4) := by
  rw [execPayDec, checkLength_good hc, if_pos (show _ < s.reqPayload from h)]; rfl

theorem execPayDec_run {sel : Sel} {s : State} (hc : s.clen.toNat ≤ s.cap)
    (h : s.idx.toNat + 8 * s.plen.toNat ≤ s.clen.toNat) :
    execPayDec sel s = onOk (payRead (carrier sel) (s.buffer (carrier sel)) s.idx.toNat s.plen.toNat) fun bytes =>
      .next (State.complete .ok .none 0x6#4
        (State.report (s.idx.toNat + 8 * s.plen.toNat) { s with pBuf := s.pBuf.writeBytes 0 bytes })) := by
  rw [execPayDec, checkLength_good hc, if_neg (show ¬ _ < s.reqPayload from Nat.not_lt.2 h)]; rfl

theorem execCopy_run {s : State} (hc : s.clen.toNat ≤ s.cap) :
    execCopy s = onOk (copyBytes s.inBuf s.outBuf s.clen.toNat) fun out =>
      .next (State.complete .ok .none 0x7#4 { s with outBuf := out }) := by
  rw [execCopy, checkLength_good hc]; rfl

theorem execEncode_range {s : State} (hc : s.clen.toNat ≤ s.cap) (h : s.clen.toNat < 32 + 8 * s.plen.toNat) :
    execEncode s = .next ((s.report (32 + 8 * s.plen.toNat)).complete .capacityExceeded .none 0x8#4) := by
  rw [execEncode, checkLength_good hc, if_pos (show _ < reqMessage s.plen from h)]; rfl

theorem execEncode_run {s : State} (hc : s.clen.toNat ≤ s.cap) (h : 32 + 8 * s.plen.toNat ≤ s.clen.toNat) :
    execEncode s = onOk (encodeInto s) fun out =>
      .next (State.complete .ok .none 0x8#4 (State.report (32 + 8 * s.plen.toNat) { s with outBuf := out })) := by
  rw [execEncode, checkLength_good hc, if_neg (show ¬ _ < reqMessage s.plen from Nat.not_lt.2 h)]; rfl

theorem execDecode_short {sel : Sel} {s : State} (hc : s.clen.toNat ≤ s.cap) (h : s.clen.toNat < 32) :
    execDecode sel s = .next (State.complete .noPayload .short 0x9#4 (State.report 32 { s with plen := 0#32 })) := by
  rw [execDecode, checkLength_good hc, if_pos (show _ < Config.headerBits from h)]; rfl

theorem execDecode_unwritten {sel : Sel} {s : State} {e : Fault} (hc : s.clen.toNat ≤ s.cap) (h : 32 ≤ s.clen.toNat)
    (hr : hdrRead (carrier sel) (s.buffer (carrier sel)) = .error e) : execDecode sel s = .fault e := by
  rw [execDecode, checkLength_good hc, if_neg (show ¬ _ < Config.headerBits from Nat.not_lt.2 h), hr]; rfl

theorem execDecode_length {sel : Sel} {s : State} {len : Word} (hc : s.clen.toNat ≤ s.cap) (h : 32 ≤ s.clen.toNat)
    (hr : hdrRead (carrier sel) (s.buffer (carrier sel)) = .ok len) (hl : s.clen.toNat < 32 + 8 * len.toNat) :
    execDecode sel s = .next (State.complete .noPayload .length 0x9#4
      (State.report (32 + 8 * len.toNat) { s with hdr := len, plen := 0#32 })) := by
  rw [execDecode, checkLength_good hc, if_neg (show ¬ _ < Config.headerBits from Nat.not_lt.2 h), hr, onOk_ok,
    if_pos (show _ < reqMessage len from hl)]; rfl

theorem execDecode_run {sel : Sel} {s : State} {len : Word} (hc : s.clen.toNat ≤ s.cap) (h : 32 ≤ s.clen.toNat)
    (hr : hdrRead (carrier sel) (s.buffer (carrier sel)) = .ok len) (hl : 32 + 8 * len.toNat ≤ s.clen.toNat) :
    execDecode sel s = onOk (payRead (carrier sel) (s.buffer (carrier sel)) 32 len.toNat) fun bytes =>
      decodeFinish len bytes (State.report (32 + 8 * len.toNat) { s with hdr := len }) := by
  rw [execDecode, checkLength_good hc, if_neg (show ¬ _ < Config.headerBits from Nat.not_lt.2 h), hr, onOk_ok,
    if_neg (show ¬ _ < reqMessage len from Nat.not_lt.2 hl)]; rfl

/-! ### The commands that complete OK, from what their buffer operation gives -/

theorem execSetbit_ok {val : Byte} {s : State} {out : Memory} (hc : s.clen.toNat ≤ s.cap)
    (h : s.idx.toNat < s.clen.toNat) (ho : setbit s.outBuf s.idx.toNat (val &&& 1#8) = .ok out) :
    execSetbit val s =
      .next (State.complete .ok .none 0x1#4 (State.report (s.idx.toNat + 1) { s with outBuf := out })) := by
  rw [execSetbit_run hc h, ho, onOk_ok]

theorem execGetbit_ok {sel : Sel} {s : State} {b : Byte} (hc : s.clen.toNat ≤ s.cap) (h : s.idx.toNat < s.clen.toNat)
    (hb : getbit (carrier sel) (s.buffer (carrier sel)) s.idx.toNat = .ok b) :
    execGetbit sel s =
      .next (State.complete .ok .none 0x2#4 (State.report (s.idx.toNat + 1) { s with bitv := b.setWidth 1 })) := by
  rw [execGetbit_run hc h, hb, onOk_ok]

theorem execHdrEnc_ok {s : State} {out : Memory} (hc : s.clen.toNat ≤ s.cap) (h : 32 ≤ s.clen.toNat)
    (ho : hdrWrite s.outBuf s.hdr = .ok out) :
    execHdrEnc s = .next (State.complete .ok .none 0x3#4 (State.report 32 { s with outBuf := out })) := by
  rw [execHdrEnc_run hc h, ho, onOk_ok]

theorem execHdrDec_ok {sel : Sel} {s : State} {v : Word} (hc : s.clen.toNat ≤ s.cap) (h : 32 ≤ s.clen.toNat)
    (hr : hdrRead (carrier sel) (s.buffer (carrier sel)) = .ok v) :
    execHdrDec sel s = .next (State.complete .ok .none 0x4#4 (State.report 32 { s with hdr := v })) := by
  rw [execHdrDec_run hc h, hr, onOk_ok]

theorem execPayEnc_ok {s : State} {out : Memory} (hc : s.clen.toNat ≤ s.cap)
    (h : s.idx.toNat + 8 * s.plen.toNat ≤ s.clen.toNat)
    (ho : payWrite s.pBuf s.outBuf s.idx.toNat s.plen.toNat = .ok out) :
    execPayEnc s = .next (State.complete .ok .none 0x5#4
      (State.report (s.idx.toNat + 8 * s.plen.toNat) { s with outBuf := out })) := by
  rw [execPayEnc_run hc h, ho, onOk_ok]

theorem execPayDec_ok {sel : Sel} {s : State} {bytes : List Byte} (hc : s.clen.toNat ≤ s.cap)
    (h : s.idx.toNat + 8 * s.plen.toNat ≤ s.clen.toNat)
    (hp : payRead (carrier sel) (s.buffer (carrier sel)) s.idx.toNat s.plen.toNat = .ok bytes) :
    execPayDec sel s = .next (State.complete .ok .none 0x6#4
      (State.report (s.idx.toNat + 8 * s.plen.toNat) { s with pBuf := s.pBuf.writeBytes 0 bytes })) := by
  rw [execPayDec_run hc h, hp, onOk_ok]

theorem execCopy_ok {s : State} {out : Memory} (hc : s.clen.toNat ≤ s.cap)
    (ho : copyBytes s.inBuf s.outBuf s.clen.toNat = .ok out) :
    execCopy s = .next (State.complete .ok .none 0x7#4 { s with outBuf := out }) := by
  rw [execCopy_run hc, ho, onOk_ok]

theorem execEncode_ok {s : State} {out : Memory} (hc : s.clen.toNat ≤ s.cap) (h : 32 + 8 * s.plen.toNat ≤ s.clen.toNat)
    (ho : encodeInto s = .ok out) :
    execEncode s = .next (State.complete .ok .none 0x8#4
      (State.report (32 + 8 * s.plen.toNat) { s with outBuf := out })) := by
  rw [execEncode_run hc h, ho, onOk_ok]

theorem execDecode_ok {sel : Sel} {s : State} {len : Word} {bytes : List Byte} (hc : s.clen.toNat ≤ s.cap)
    (h : 32 ≤ s.clen.toNat) (hr : hdrRead (carrier sel) (s.buffer (carrier sel)) = .ok len)
    (hl : 32 + 8 * len.toNat ≤ s.clen.toNat)
    (hp : payRead (carrier sel) (s.buffer (carrier sel)) 32 len.toNat = .ok bytes) (hv : utf8Valid bytes = true) :
    execDecode sel s = .next (State.complete .ok .none 0x9#4
      (State.report (32 + 8 * len.toNat) { s with hdr := len, plen := len, pBuf := s.pBuf.writeBytes 0 bytes })) := by
  rw [execDecode_run hc h hr hl, hp, onOk_ok, decodeFinish, if_pos hv]; rfl

theorem execDecode_utf8 {sel : Sel} {s : State} {len : Word} {bytes : List Byte} (hc : s.clen.toNat ≤ s.cap)
    (h : 32 ≤ s.clen.toNat) (hr : hdrRead (carrier sel) (s.buffer (carrier sel)) = .ok len)
    (hl : 32 + 8 * len.toNat ≤ s.clen.toNat)
    (hp : payRead (carrier sel) (s.buffer (carrier sel)) 32 len.toNat = .ok bytes) (hv : utf8Valid bytes = false) :
    execDecode sel s = .next (State.complete .noPayload .utf8 0x9#4
      (State.report (32 + 8 * len.toNat)
        { s with
          hdr := len, plen := 0#32, pBuf := s.pBuf.writeBytes 0 (drawBytes s.draws len.toNat),
          draws := s.draws + len.toNat })) := by
  rw [execDecode_run hc h hr hl, hp, onOk_ok, decodeFinish, if_neg (by simp [hv])]; rfl

/-! ### Unwritten bytes: which fault a failed operation gives -/

theorem loop_error {α : Type} {n : Nat} {f : Nat → α → Except Fault α} {a : α} {e : Fault}
    (h : loop n f a = .error e) : ∃ i x, i < n ∧ loop i f a = .ok x ∧ f i x = .error e := by
  induction n with
  | zero => cases h
  | succ n ih =>
    rw [loop_succ] at h
    split at h
    · exact ⟨n, _, by omega, ‹_›, h⟩
    · rename_i e' he
      cases h
      obtain ⟨i, x, hi, h⟩ := ih he
      exact ⟨i, x, by omega, h⟩

theorem hdrWrite_error {out : Memory} {h : Word} {e : Fault} (he : hdrWrite out h = .error e) :
    ∃ a, a < 32 ∧ out.read a = none ∧ e = .uninitRead .outBuf a := by
  rw [hdrWrite_eq] at he
  obtain ⟨i, x, hi, hx, he⟩ := loop_error he
  obtain ⟨h1, rfl⟩ := setbit_error.1 he
  rw [setbitLoop_read hx, Memory.stripe, if_neg (by omega)] at h1
  exact ⟨0 + i, by omega, h1, rfl⟩

theorem hdrRead_error {b : Buf} {m : Memory} {e : Fault} (he : hdrRead b m = .error e) :
    ∃ a, a < 32 ∧ m.read a = none ∧ e = .uninitRead b a := by
  obtain ⟨i, x, hi, -, he⟩ := loop_error he
  split at he
  · cases he
  · cases he
    obtain ⟨h1, rfl⟩ := getbit_error.1 ‹_›
    exact ⟨i, hi, h1, rfl⟩

theorem byteWrite_error {out : Memory} {p : Nat} {v : Byte} {e : Fault} (he : byteWrite out p v = .error e) :
    ∃ a, p ≤ a ∧ a < p + 8 ∧ out.read a = none ∧ e = .uninitRead .outBuf a := by
  obtain ⟨i, x, hi, hx, he⟩ := loop_error he
  obtain ⟨h1, rfl⟩ := setbit_error.1 he
  rw [setbitLoop_read hx, Memory.stripe, if_neg (by omega)] at h1
  exact ⟨p + i, by omega, by omega, h1, rfl⟩

theorem payWrite_error {pbuf out : Memory} {s n : Nat} {e : Fault} (he : payWrite pbuf out s n = .error e) :
    (∃ j, j < n ∧ pbuf.read j = none ∧ e = .uninitRead .pBuf j) ∨
    (∃ a, s ≤ a ∧ a < s + 8 * n ∧ out.read a = none ∧ e = .uninitRead .outBuf a) := by
  obtain ⟨j, x, hj, hx, he⟩ := loop_error he
  split at he
  · obtain ⟨a, h1, h2, h3, rfl⟩ := byteWrite_error he
    rw [payWrite_read hx, Memory.stripe, if_neg (by omega)] at h3
    exact .inr ⟨a, by omega, by omega, h3, rfl⟩
  · cases he
    obtain ⟨h1, rfl⟩ := readByte_error.1 ‹_›
    exact .inl ⟨j, hj, h1, rfl⟩

theorem payRead_error {b : Buf} {m : Memory} {s n : Nat} {e : Fault} (he : payRead b m s n = .error e) :
    ∃ a, s ≤ a ∧ a < s + 8 * n ∧ m.read a = none ∧ e = .uninitRead b a := by
  obtain ⟨j, x, hj, -, he⟩ := loop_error he
  split at he
  · cases he
  · cases he
    rename_i hb
    obtain ⟨k, y, hk, -, hb⟩ := loop_error hb
    split at hb
    · cases hb
    · cases hb
      obtain ⟨h1, rfl⟩ := getbit_error.1 ‹_›
      exact ⟨s + 8 * j + k, by omega, by omega, h1, rfl⟩

theorem copyBytes_error {inb out : Memory} {n : Nat} {e : Fault} (he : copyBytes inb out n = .error e) :
    ∃ a, a < n ∧ inb.read a = none ∧ e = .uninitRead .inBuf a := by
  obtain ⟨i, x, hi, -, he⟩ := loop_error he
  split at he
  · cases he
  · cases he
    obtain ⟨h1, rfl⟩ := readByte_error.1 ‹_›
    exact ⟨i, hi, h1, rfl⟩

/-- ENCODE's buffer steps fail only on an unwritten byte of IN or of PBUF, when the message fits. -/
theorem encodeInto_error {s : State} {e : Fault} (h : 32 + 8 * s.plen.toNat ≤ s.clen.toNat)
    (he : encodeInto s = .error e) :
    (∃ a, a < s.clen.toNat ∧ s.inBuf.read a = none ∧ e = .uninitRead .inBuf a) ∨
    (∃ j, j < s.plen.toNat ∧ s.pBuf.read j = none ∧ e = .uninitRead .pBuf j) := by
  unfold encodeInto at he
  split at he
  · cases he
    exact .inl (copyBytes_error ‹_›)
  · rename_i copied hcopy
    have hread : ∀ a, a < s.clen.toNat → ∃ v, copied.read a = some v := fun a ha => by
      rw [copyBytes_read hcopy, if_pos ha]
      exact copyBytes_written hcopy ha
    split at he
    · rename_i e' hh
      cases he
      obtain ⟨a, ha, hn, -⟩ := hdrWrite_error hh
      obtain ⟨v, hv⟩ := hread a (by omega)
      rw [hv] at hn
      cases hn
    · rename_i headed hh
      rcases payWrite_error he with h1 | ⟨a, h1, h2, h3, -⟩
      · exact .inr h1
      · rw [hdrWrite_read hh, Memory.stripe, if_neg (by have : Config.startBit = 32 := rfl; omega)] at h3
        obtain ⟨v, hv⟩ := hread a (by have : Config.startBit = 32 := rfl; omega)
        rw [hv] at h3
        cases h3

theorem encodeInto_total {s : State} (h : 32 + 8 * s.plen.toNat ≤ s.clen.toNat)
    (hi : ∀ a, a < s.clen.toNat → ∃ v, s.inBuf.read a = some v)
    (hp : ∀ j, j < s.plen.toNat → ∃ v, s.pBuf.read j = some v) : ∃ out, encodeInto s = .ok out := by
  cases he : encodeInto s with
  | ok out => exact ⟨out, rfl⟩
  | error e =>
    rcases encodeInto_error h he with ⟨a, ha, hn, -⟩ | ⟨j, hj, hn, -⟩
    · obtain ⟨v, hv⟩ := hi a ha
      rw [hv] at hn
      cases hn
    · obtain ⟨v, hv⟩ := hp j hj
      rw [hv] at hn
      cases hn

/-- ENCODE's buffer, index by index: the header over IN, the payload over IN, then IN, then OUT as it was (R181). -/
theorem encodeInto_read {s : State} {out : Memory} (h : 32 + 8 * s.plen.toNat ≤ s.clen.toNat)
    (he : encodeInto s = .ok out) (a : Nat) : out.read a =
      if a < 32 then s.inBuf.stripe 0 32 (hdrBit s.plen) a
      else if a < s.clen.toNat then s.inBuf.stripe 32 (8 * s.plen.toNat) (payBit s.pBuf) a else s.outBuf.read a := by
  obtain ⟨copied, headed, h1, h2, h3⟩ := encodeInto_ok he
  rw [payWrite_read h3 a]
  unfold Memory.stripe
  rw [hdrWrite_read h2 a]
  unfold Memory.stripe
  rw [copyBytes_read h1 a]
  split_ifs <;> first | rfl | omega

/-! ### One move of the machine -/

/-- Everything a step can be (R211): the outside world's next entry, or the engine's turn. -/
theorem step_cases (s : State) :
    (s.inputs = [] ∧ step s = engineTurn s) ∨
    (∃ rest, s.inputs = .quiet :: rest ∧ step s = engineTurn { s with inputs := rest }) ∨
    (∃ a rest, s.inputs = .access a :: rest ∧ step s = hostAccess a { s with inputs := rest }) ∨
    (∃ rest, s.inputs = .reset :: rest ∧ step s = .next (applyReset { s with inputs := rest })) := by
  unfold step move
  split
  · exact .inl ⟨‹_›, rfl⟩
  · exact .inr (.inl ⟨_, ‹_›, rfl⟩)
  · exact .inr (.inr (.inl ⟨_, _, ‹_›, rfl⟩))
  · exact .inr (.inr (.inr ⟨_, ‹_›, rfl⟩))

theorem runWord_ok {w : Word} {i : Instr} (h : decode w = .ok i) (s : State) : runWord w s = exec i s := by
  simp [runWord, h]

theorem runWord_error {w : Word} {e : DecodeError} (h : decode w = .error e) (s : State) :
    runWord w s = .next (s.endMisuse (.illegalCmd w) (w.extractLsb' 0 4)) := by
  simp [runWord, h]

theorem engineTurn_some {w : Word} {s : State} (h : s.engine = some w) : engineTurn s = runWord w s := by
  simp [engineTurn, h]

theorem engineTurn_none {s : State} (h : s.engine = none) : engineTurn s = .next s := by
  simp [engineTurn, h]

end Sys2Proof.Machine
end

