-- ==== Sys2Proof/Laws/Ends.lean ====
section
/-! SUPPORT. Every way a command, an access and a step can end, as one list of cases each: the lemmas that later proofs
split on. -/

namespace Sys2Proof.Machine

/-- The twenty ways a command can end in a next state, each with its conditions (R202 to R209). -/
inductive CommandEnds (s : State) : Instr → State → Prop where
  | badLength (i : Instr) (h : s.cap < s.clen.toNat) : CommandEnds s i (s.endMisuse (.badLength s.clen) i.op)
  | setbitRange (val : Byte) (hc : s.clen.toNat ≤ s.cap) (h : s.clen.toNat ≤ s.idx.toNat) :
      CommandEnds s (.setbit val) ((s.report (s.idx.toNat + 1)).endMisuse (.indexRange s.idx s.clen) 0x1#4)
  | setbit (val : Byte) (out : Memory) (hc : s.clen.toNat ≤ s.cap) (h : s.idx.toNat < s.clen.toNat)
      (ho : setbit s.outBuf s.idx.toNat (val &&& 1#8) = .ok out) :
      CommandEnds s (.setbit val)
        (State.complete .ok .none 0x1#4 (State.report (s.idx.toNat + 1) { s with outBuf := out }))
  | getbitRange (sel : Sel) (hc : s.clen.toNat ≤ s.cap) (h : s.clen.toNat ≤ s.idx.toNat) :
      CommandEnds s (.getbit sel) ((s.report (s.idx.toNat + 1)).endMisuse (.indexRange s.idx s.clen) 0x2#4)
  | getbit (sel : Sel) (b : Byte) (hc : s.clen.toNat ≤ s.cap) (h : s.idx.toNat < s.clen.toNat)
      (hb : getbit (carrier sel) (s.buffer (carrier sel)) s.idx.toNat = .ok b) :
      CommandEnds s (.getbit sel)
        (State.complete .ok .none 0x2#4 (State.report (s.idx.toNat + 1) { s with bitv := b.setWidth 1 }))
  | hdrEncShort (hc : s.clen.toNat ≤ s.cap) (h : s.clen.toNat < 32) :
      CommandEnds s .hdrEnc ((s.report 32).complete .capacityExceeded .none 0x3#4)
  | hdrEnc (out : Memory) (hc : s.clen.toNat ≤ s.cap) (h : 32 ≤ s.clen.toNat) (ho : hdrWrite s.outBuf s.hdr = .ok out) :
      CommandEnds s .hdrEnc (State.complete .ok .none 0x3#4 (State.report 32 { s with outBuf := out }))
  | hdrDecShort (sel : Sel) (hc : s.clen.toNat ≤ s.cap) (h : s.clen.toNat < 32) :
      CommandEnds s (.hdrDec sel) ((s.report 32).complete .noPayload .short 0x4#4)
  | hdrDec (sel : Sel) (v : Word) (hc : s.clen.toNat ≤ s.cap) (h : 32 ≤ s.clen.toNat)
      (hr : hdrRead (carrier sel) (s.buffer (carrier sel)) = .ok v) :
      CommandEnds s (.hdrDec sel) (State.complete .ok .none 0x4#4 (State.report 32 { s with hdr := v }))
  | payEncRange (hc : s.clen.toNat ≤ s.cap) (h : s.clen.toNat < s.idx.toNat + 8 * s.plen.toNat) :
      CommandEnds s .payEnc ((s.report (s.idx.toNat + 8 * s.plen.toNat)).complete .capacityExceeded .none 0x5#4)
  | payEnc (out : Memory) (hc : s.clen.toNat ≤ s.cap) (h : s.idx.toNat + 8 * s.plen.toNat ≤ s.clen.toNat)
      (ho : payWrite s.pBuf s.outBuf s.idx.toNat s.plen.toNat = .ok out) :
      CommandEnds s .payEnc
        (State.complete .ok .none 0x5#4 (State.report (s.idx.toNat + 8 * s.plen.toNat) { s with outBuf := out }))
  | payDecRange (sel : Sel) (hc : s.clen.toNat ≤ s.cap) (h : s.clen.toNat < s.idx.toNat + 8 * s.plen.toNat) :
      CommandEnds s (.payDec sel) ((s.report (s.idx.toNat + 8 * s.plen.toNat)).complete .noPayload .length 0x6#4)
  | payDec (sel : Sel) (bytes : List Byte) (hc : s.clen.toNat ≤ s.cap)
      (h : s.idx.toNat + 8 * s.plen.toNat ≤ s.clen.toNat)
      (hp : payRead (carrier sel) (s.buffer (carrier sel)) s.idx.toNat s.plen.toNat = .ok bytes) :
      CommandEnds s (.payDec sel)
        (State.complete .ok .none 0x6#4
          (State.report (s.idx.toNat + 8 * s.plen.toNat) { s with pBuf := s.pBuf.writeBytes 0 bytes }))
  | copy (out : Memory) (hc : s.clen.toNat ≤ s.cap) (ho : copyBytes s.inBuf s.outBuf s.clen.toNat = .ok out) :
      CommandEnds s .copy (State.complete .ok .none 0x7#4 { s with outBuf := out })
  | encodeRange (hc : s.clen.toNat ≤ s.cap) (h : s.clen.toNat < 32 + 8 * s.plen.toNat) :
      CommandEnds s .encode ((s.report (32 + 8 * s.plen.toNat)).complete .capacityExceeded .none 0x8#4)
  | encode (out : Memory) (hc : s.clen.toNat ≤ s.cap) (h : 32 + 8 * s.plen.toNat ≤ s.clen.toNat)
      (ho : encodeInto s = .ok out) :
      CommandEnds s .encode
        (State.complete .ok .none 0x8#4 (State.report (32 + 8 * s.plen.toNat) { s with outBuf := out }))
  | decodeShort (sel : Sel) (hc : s.clen.toNat ≤ s.cap) (h : s.clen.toNat < 32) :
      CommandEnds s (.decode sel) (State.complete .noPayload .short 0x9#4 (State.report 32 { s with plen := 0#32 }))
  | decodeLength (sel : Sel) (len : Word) (hc : s.clen.toNat ≤ s.cap) (h : 32 ≤ s.clen.toNat)
      (hr : hdrRead (carrier sel) (s.buffer (carrier sel)) = .ok len) (hl : s.clen.toNat < 32 + 8 * len.toNat) :
      CommandEnds s (.decode sel)
        (State.complete .noPayload .length 0x9#4
          (State.report (32 + 8 * len.toNat) { s with hdr := len, plen := 0#32 }))
  | decode (sel : Sel) (len : Word) (bytes : List Byte) (hc : s.clen.toNat ≤ s.cap) (h : 32 ≤ s.clen.toNat)
      (hr : hdrRead (carrier sel) (s.buffer (carrier sel)) = .ok len) (hl : 32 + 8 * len.toNat ≤ s.clen.toNat)
      (hp : payRead (carrier sel) (s.buffer (carrier sel)) 32 len.toNat = .ok bytes) (hv : utf8Valid bytes = true) :
      CommandEnds s (.decode sel)
        (State.complete .ok .none 0x9#4
          (State.report (32 + 8 * len.toNat) { s with hdr := len, plen := len, pBuf := s.pBuf.writeBytes 0 bytes }))
  | decodeUtf8 (sel : Sel) (len : Word) (bytes : List Byte) (hc : s.clen.toNat ≤ s.cap) (h : 32 ≤ s.clen.toNat)
      (hr : hdrRead (carrier sel) (s.buffer (carrier sel)) = .ok len) (hl : 32 + 8 * len.toNat ≤ s.clen.toNat)
      (hp : payRead (carrier sel) (s.buffer (carrier sel)) 32 len.toNat = .ok bytes) (hv : utf8Valid bytes = false) :
      CommandEnds s (.decode sel)
        (State.complete .noPayload .utf8 0x9#4
          (State.report (32 + 8 * len.toNat)
            { s with
              hdr := len, plen := 0#32, pBuf := s.pBuf.writeBytes 0 (drawBytes s.draws len.toNat),
              draws := s.draws + len.toNat }))

theorem exec_ends {i : Instr} {s t : State} (h : exec i s = .next t) : CommandEnds s i t := by
  cases i with
  | setbit val =>
    rcases execSetbit_next h with ⟨a, rfl⟩ | ⟨a, b, rfl⟩ | ⟨a, b, _, c, rfl⟩
    exacts [.badLength _ a, .setbitRange _ a b, .setbit _ _ a b c]
  | getbit sel =>
    rcases execGetbit_next h with ⟨a, rfl⟩ | ⟨a, b, rfl⟩ | ⟨a, b, _, c, rfl⟩
    exacts [.badLength _ a, .getbitRange _ a b, .getbit _ _ a b c]
  | hdrEnc =>
    rcases execHdrEnc_next h with ⟨a, rfl⟩ | ⟨a, b, rfl⟩ | ⟨a, b, _, c, rfl⟩
    exacts [.badLength _ a, .hdrEncShort a b, .hdrEnc _ a b c]
  | hdrDec sel =>
    rcases execHdrDec_next h with ⟨a, rfl⟩ | ⟨a, b, rfl⟩ | ⟨a, b, _, c, rfl⟩
    exacts [.badLength _ a, .hdrDecShort _ a b, .hdrDec _ _ a b c]
  | payEnc =>
    rcases execPayEnc_next h with ⟨a, rfl⟩ | ⟨a, b, rfl⟩ | ⟨a, b, _, c, rfl⟩
    exacts [.badLength _ a, .payEncRange a b, .payEnc _ a b c]
  | payDec sel =>
    rcases execPayDec_next h with ⟨a, rfl⟩ | ⟨a, b, rfl⟩ | ⟨a, b, _, c, rfl⟩
    exacts [.badLength _ a, .payDecRange _ a b, .payDec _ _ a b c]
  | copy =>
    rcases execCopy_next h with ⟨a, rfl⟩ | ⟨a, _, c, rfl⟩
    exacts [.badLength _ a, .copy _ a c]
  | encode =>
    rcases execEncode_next h with ⟨a, rfl⟩ | ⟨a, b, rfl⟩ | ⟨a, b, _, c, rfl⟩
    exacts [.badLength _ a, .encodeRange a b, .encode _ a b c]
  | decode sel =>
    rcases execDecode_next h with ⟨a, rfl⟩ | ⟨a, b, rfl⟩ | ⟨a, b, len, c, ⟨f, rfl⟩ | ⟨f, bytes, g, ⟨k, rfl⟩ | ⟨k, rfl⟩⟩⟩
    exacts [.badLength _ a, .decodeShort _ a b, .decodeLength _ _ a b c f, .decode _ _ _ a b c f g k,
      .decodeUtf8 _ _ _ a b c f g k]

/-- A captured word ends with ILLEGAL_CMD, or as the command it decodes to ends. -/
theorem runWord_ends {w : Word} {s t : State} (h : runWord w s = .next t) :
    (∃ e, decode w = .error e ∧ t = s.endMisuse (.illegalCmd w) (w.extractLsb' 0 4)) ∨
      ∃ i, decode w = .ok i ∧ exec i s = .next t ∧ CommandEnds s i t := by
  cases hd : decode w with
  | error e =>
    rw [runWord_error hd] at h
    cases h
    exact .inl ⟨_, rfl, rfl⟩
  | ok i =>
    rw [runWord_ok hd] at h
    exact .inr ⟨i, rfl, h, exec_ends h⟩

/-! ### The carrier a command reads, in the statements' terms -/

theorem buffer_carrier (s : State) (sel : Sel) : s.buffer (carrier sel) = s.cb sel := by cases sel <;> rfl

theorem carrier_eq_cbBuf (sel : Sel) : carrier sel = cbBuf sel := by cases sel <;> rfl

theorem carrier_ne_pBuf (sel : Sel) : carrier sel ≠ .pBuf := by cases sel <;> decide

theorem carriesHeader_of_hdrRead {b : Buf} {m : Memory} {h : Word} (e : hdrRead b m = .ok h) : CarriesHeader m h :=
  fun i hi => by
    obtain ⟨x, h1, h2⟩ := hdrRead_bits e hi
    exact ⟨x, h1, h2.symm⟩

theorem hdrRead_of_carriesHeader {b : Buf} {m : Memory} {h : Word} (hc : CarriesHeader m h) : hdrRead b m = .ok h :=
  hdrRead_unique hc

theorem carriesPayload_of_payRead {b : Buf} {m : Memory} {s n : Nat} {p : List Byte} (e : payRead b m s n = .ok p) :
    p.length = n ∧ CarriesPayload m s p := by
  obtain ⟨h1, h2⟩ := payRead_bits e
  refine ⟨h1, fun j b hb k hk => ?_⟩
  have hj : j < n := by
    by_contra hn
    rw [List.getElem?_eq_none (by omega)] at hb
    cases hb
  obtain ⟨v, hv, h3⟩ := h2 j hj
  rw [hb] at hv
  cases hv
  obtain ⟨x, h4, h5⟩ := h3 k hk
  exact ⟨x, h4, h5.symm⟩

theorem payRead_of_carriesPayload {b : Buf} {m : Memory} {s : Nat} {p : List Byte} (hc : CarriesPayload m s p) :
    payRead b m s p.length = .ok p := payRead_unique hc

/-! ### The engine's turn -/

theorem engineTurn_ends {s t : State} (h : engineTurn s = .next t) :
    (s.engine = none ∧ t = s) ∨ ∃ w, s.engine = some w ∧ runWord w s = .next t := by
  cases he : s.engine with
  | none =>
    rw [engineTurn_none he] at h
    cases h
    exact .inl ⟨rfl, rfl⟩
  | some w =>
    rw [engineTurn_some he] at h
    exact .inr ⟨w, rfl, h⟩

end Sys2Proof.Machine
end

