-- ==== Sys2Proof/Laws/HostPort.lean ====
section
/-! SUPPORT. The host port: which target an address has, what STATUS reads, and which fields an access can change. -/

namespace Sys2Proof.Machine

/-! ### Targets -/

theorem target_reg {s : State} {addr : Word} (h : addr.toNat < 0x1000) : s.target addr = .reg addr.toNat := by
  simp [State.target, h]

theorem inWindow_iff {s : State} {b : Buf} {a : Nat} :
    s.inWindow b a = true ↔ bufBase b ≤ a ∧ a < bufBase b + s.bufSize b := by
  simp [State.inWindow]

/-- A buffer is no larger than its window's distance to the next window (R60). -/
theorem bufSize_le {s : State} (hc : s.cap ≤ 2 ^ 28) (b : Buf) : s.bufSize b ≤ 2 ^ 28 := by
  cases b <;> simp only [State.bufSize] <;> omega

/-- With `CAP ≤ 2^28` the windows are disjoint, so an address inside one names its byte (R60). -/
theorem target_byte {s : State} {addr : Word} {b : Buf} (hc : s.cap ≤ 2 ^ 28) (h1 : bufBase b ≤ addr.toNat)
    (h2 : addr.toNat < bufBase b + s.bufSize b) : s.target addr = .byte b (addr.toNat - bufBase b) := by
  have hs := bufSize_le hc
  have h0 := hs .inBuf
  have h3 := hs .outBuf
  have h4 := hs .pBuf
  have e0 : bufBase .inBuf = 0x10000000 := rfl
  have e1 : bufBase .outBuf = 0x20000000 := rfl
  have e2 : bufBase .pBuf = 0x30000000 := rfl
  unfold State.target
  simp only [inWindow_iff]
  cases b <;> split_ifs <;> first | rfl | omega

theorem target_byte_ofNat {s : State} {b : Buf} {i : Nat} (hc : s.cap ≤ 2 ^ 28) (h : i < s.bufSize b) :
    s.target (BitVec.ofNat 32 (bufBase b + i)) = .byte b i := by
  have hs := bufSize_le hc b
  have e0 : bufBase .inBuf = 0x10000000 := rfl
  have e1 : bufBase .outBuf = 0x20000000 := rfl
  have e2 : bufBase .pBuf = 0x30000000 := rfl
  have e : (BitVec.ofNat 32 (bufBase b + i)).toNat = bufBase b + i := by
    rw [BitVec.toNat_ofNat, Nat.mod_eq_of_lt]
    cases b <;> omega
  rw [target_byte hc (b := b) (by omega) (by omega), e, Nat.add_sub_cancel_left]

/-- What the target of an address says about it. -/
theorem target_cases (s : State) (addr : Word) :
    (addr.toNat < 0x1000 ∧ s.target addr = .reg addr.toNat) ∨
    (∃ b, bufBase b ≤ addr.toNat ∧ addr.toNat < bufBase b + s.bufSize b ∧
      s.target addr = .byte b (addr.toNat - bufBase b)) ∨
    (0x1000 ≤ addr.toNat ∧ (∀ b, ¬ (bufBase b ≤ addr.toNat ∧ addr.toNat < bufBase b + s.bufSize b)) ∧
      s.target addr = .unmapped) := by
  unfold State.target
  simp only [inWindow_iff]
  split_ifs with h h1 h2 h3
  · exact .inl ⟨h, rfl⟩
  · exact .inr (.inl ⟨_, h1.1, h1.2, rfl⟩)
  · exact .inr (.inl ⟨_, h2.1, h2.2, rfl⟩)
  · exact .inr (.inl ⟨_, h3.1, h3.2, rfl⟩)
  · refine .inr (.inr ⟨by omega, fun b => ?_, rfl⟩)
    cases b <;> assumption

theorem base_ge (b : Buf) : 0x10000000 ≤ bufBase b := by cases b <;> decide

theorem base_mod (b : Buf) : bufBase b % 4 = 0 := by cases b <;> decide

/-! ### Legal accesses -/

/-- An access to a buffer byte is legal exactly when `readBuffer` and `writeBuffer` carry it out (R65). -/
theorem legal_byte {s : State} {width a : Nat} {b : Buf} (hc : s.cap ≤ 2 ^ 28) (h1 : bufBase b ≤ a)
    (h2 : a < bufBase b + s.bufSize b) :
    LegalAccess s.cap width a ↔ width = 8 ∨ (width = 32 ∧ s.wordAccessOk b (a - bufBase b) = true) := by
  have hs := bufSize_le hc
  have h0 := hs .inBuf
  have h3 := hs .outBuf
  have h4 := hs .pBuf
  have e0 : bufBase .inBuf = 0x10000000 := rfl
  have e1 : bufBase .outBuf = 0x20000000 := rfl
  have e2 : bufBase .pBuf = 0x30000000 := rfl
  have s0 : s.bufSize .inBuf = s.cap := rfl
  have s1 : s.bufSize .outBuf = s.cap := rfl
  have s2 : s.bufSize .pBuf = s.cap / 8 := rfl
  have hb := base_ge b
  simp only [LegalAccess, State.wordAccessOk, List.mem_cons, List.not_mem_nil, or_false, Prod.mk.injEq, Bool.and_eq_true,
    beq_iff_eq, decide_eq_true_eq]
  constructor
  · rintro (h | ⟨base, size, ⟨rfl, rfl⟩ | ⟨rfl, rfl⟩ | ⟨rfl, rfl⟩, h5, h6, h7⟩)
    · omega
    all_goals cases b <;> omega
  · intro h
    right
    cases b
    · exact ⟨_, _, .inl ⟨rfl, rfl⟩, by omega, by omega, by omega⟩
    · exact ⟨_, _, .inr (.inl ⟨rfl, rfl⟩), by omega, by omega, by omega⟩
    · exact ⟨_, _, .inr (.inr ⟨rfl, rfl⟩), by omega, by omega, by omega⟩

theorem legal_reg {cap width a : Nat} (h : a < 0x1000) : LegalAccess cap width a ↔ regAccessOk width a = true := by
  simp only [LegalAccess, regAccessOk, List.mem_cons, List.not_mem_nil, or_false, Prod.mk.injEq, Bool.and_eq_true,
    beq_iff_eq]
  constructor
  · rintro (h | ⟨base, size, ⟨rfl, rfl⟩ | ⟨rfl, rfl⟩ | ⟨rfl, rfl⟩, h5, h6, h7⟩) <;> omega
  · intro h1
    exact .inl ⟨h, h1.1, h1.2⟩

theorem not_legal_unmapped {s : State} {width a : Nat} (h : 0x1000 ≤ a)
    (hb : ∀ b, ¬ (bufBase b ≤ a ∧ a < bufBase b + s.bufSize b)) : ¬ LegalAccess s.cap width a := by
  simp only [LegalAccess, List.mem_cons, List.not_mem_nil, or_false, Prod.mk.injEq]
  rintro (h | ⟨base, size, ⟨rfl, rfl⟩ | ⟨rfl, rfl⟩ | ⟨rfl, rfl⟩, h5, h6, h7⟩)
  · omega
  · exact hb .inBuf ⟨h5, h6⟩
  · exact hb .outBuf ⟨h5, h6⟩
  · exact hb .pBuf ⟨h5, h6⟩

/-! ### STATUS -/

theorem toNat_append_add {v w : Nat} (x : BitVec v) (y : BitVec w) : (x ++ y).toNat = x.toNat * 2 ^ w + y.toNat := by
  rw [BitVec.toNat_append, ← Nat.shiftLeft_add_eq_or_of_lt y.isLt, Nat.shiftLeft_eq]

/-- STATUS as a number, field by field (R25). -/
theorem statusWord_toNat (s : State) : s.statusWord.toNat =
    s.busy.toNat + 2 * s.done.toNat + 4 * s.overrun.toNat + 16 * s.result.code.toNat +
      256 * s.npReason.code.toNat + 4096 * s.lastOp.toNat := by
  have key : ∀ (l : BitVec 4) (n : BitVec 2) (r : BitVec 3) (o d b : Bool),
      BitVec.toNat (w := 16 + 4 + 2 + 2 + 1 + 3 + 1 + 1 + 1 + 1)
        (0#16 ++ l ++ 0#2 ++ n ++ 0#1 ++ r ++ 0#1 ++ BitVec.ofBool o ++ BitVec.ofBool d ++ BitVec.ofBool b) =
      b.toNat + 2 * d.toNat + 4 * o.toNat + 16 * r.toNat + 256 * n.toNat + 4096 * l.toNat := by
    intro l n r o d b
    simp only [toNat_append_add, BitVec.toNat_ofBool, BitVec.toNat_ofNat]
    omega
  exact key _ _ _ _ _ _

/-- The four lanes of a word, put together again, are the word (R66). -/
theorem laneWord_lane (w : Word) : laneWord (lane w 0) (lane w 1) (lane w 2) (lane w 3) = w := by
  refine BitVec.eq_of_getLsbD_eq fun i hi => ?_
  change BitVec.getLsbD (w := 8 + 8 + 8 + 8) (lane w 3 ++ lane w 2 ++ lane w 1 ++ lane w 0) i = _
  simp only [BitVec.getLsbD_append, lane, BitVec.getLsbD_extractLsb']
  split_ifs with h1 h2 h3
  · simp [h1]
  · simp only [h2, decide_true, Bool.true_and]
    congr 1; omega
  · simp only [h3, decide_true, Bool.true_and]
    congr 1; omega
  · simp only [show i - 8 - 8 - 8 < 8 by omega, decide_true, Bool.true_and]
    congr 1; omega

/-- A 32-bit buffer read gives the word whose lanes are the four bytes (R66). -/
theorem readWord_ok {b : Buf} {m : Memory} {a : Nat} {w : Word}
    (h : ∀ n, n < 4 → m.read (a + n) = some (lane w n)) : readWord b m a = .ok w := by
  have h0 : readByte b m a = .ok (lane w 0) := readByte_ok.2 (h 0 (by omega))
  rw [readWord, h0, readByte_ok.2 (h 1 (by omega)), readByte_ok.2 (h 2 (by omega)),
    readByte_ok.2 (h 3 (by omega))]
  exact congrArg _ (laneWord_lane w)

/-- What a 32-bit buffer write leaves at each index (R66). -/
theorem read_writeWord (m : Memory) (i : Nat) (w : Word) (a : Nat) :
    (writeWord m i w).read a = if i ≤ a ∧ a < i + 4 then some (lane w (a - i)) else m.read a := by
  rw [writeWord, Memory.read_writeBytes]
  simp only [List.length_cons, List.length_nil, Nat.zero_add, Nat.reduceAdd]
  split_ifs with h
  · obtain ⟨k, rfl⟩ : ∃ k, a = i + k := ⟨a - i, by omega⟩
    rw [Nat.add_sub_cancel_left]
    have : k < 4 := by omega
    interval_cases k <;> rfl
  · rfl

/-! ### Each legal access, and the illegal ones -/

theorem access_read_reg {s : State} {width : Nat} {addr : Word} (h : addr.toNat < 0x1000)
    (hl : LegalAccess s.cap width addr.toNat) : hostAccess (.read width addr) s =
      if s.busy && (regAt addr.toNat).engineWrites then answerFreeWord s
      else .next (s.respond (.data (s.regValue (regAt addr.toNat)))) := by
  simp [hostAccess, target_reg h, readRegister, (legal_reg h).1 hl]

theorem access_write_reg {s : State} {width : Nat} {addr w : Word} (h : addr.toNat < 0x1000)
    (hl : LegalAccess s.cap width addr.toNat) :
    hostAccess (.write width addr w) s = .next ((s.writeReg (regAt addr.toNat) w).respond .written) := by
  simp [hostAccess, target_reg h, writeRegister, (legal_reg h).1 hl]

theorem access_read8 {s : State} {addr : Word} {b : Buf} {i : Nat} (h : s.target addr = .byte b i) :
    hostAccess (.read 8 addr) s = if s.busy && b.engineWrites then answerFreeByte s
      else onOk (readByte b (s.buffer b) i) fun v => .next (s.respond (.data (v.setWidth 32))) := by
  rw [hostAccess, h]; rfl

theorem access_read32 {s : State} {addr : Word} {b : Buf} {i : Nat} (h : s.target addr = .byte b i)
    (ho : s.wordAccessOk b i = true) :
    hostAccess (.read 32 addr) s = if s.busy && b.engineWrites then answerFreeWord s
      else onOk (readWord b (s.buffer b) i) fun w => .next (s.respond (.data w)) := by
  rw [hostAccess, h]
  exact (if_neg (by decide)).trans (if_pos ⟨rfl, ho⟩)

/-- A read whose value R241 does not leave open: the block is idle, or the buffer is IN. -/
theorem not_engineWrites {s : State} {b : Buf} (h : s.busy = false ∨ b = .inBuf) :
    (s.busy && b.engineWrites) = false := by
  rcases h with h | rfl
  · rw [h, Bool.false_and]
  · exact Bool.and_false _

theorem access_write8 {s : State} {addr w : Word} {b : Buf} {i : Nat} (h : s.target addr = .byte b i) :
    hostAccess (.write 8 addr w) s =
      .next ((s.unlessBusy (s.setBuffer b ((s.buffer b).write i (lane w 0)))).respond .written) := by
  rw [hostAccess, h]; rfl

theorem access_write32 {s : State} {addr w : Word} {b : Buf} {i : Nat} (h : s.target addr = .byte b i)
    (ho : s.wordAccessOk b i = true) : hostAccess (.write 32 addr w) s =
      .next ((s.unlessBusy (s.setBuffer b (writeWord (s.buffer b) i w))).respond .written) := by
  rw [hostAccess, h]
  exact (if_neg (by decide)).trans (if_pos ⟨rfl, ho⟩)

/-- A legal access outside the register window is to a byte, or an aligned word, of one buffer (R65). -/
theorem legal_target {s : State} {addr : Word} {width : Nat} (hc : s.cap ≤ 2 ^ 28) (h : 0x1000 ≤ addr.toNat)
    (hl : LegalAccess s.cap width addr.toNat) :
    ∃ b i, bufBase b ≤ addr.toNat ∧ i = addr.toNat - bufBase b ∧ i < s.bufSize b ∧ s.target addr = .byte b i ∧
      (width = 8 ∨ (width = 32 ∧ s.wordAccessOk b i = true)) := by
  rcases target_cases s addr with ⟨h1, _⟩ | ⟨b, h1, h2, h3⟩ | ⟨h1, h2, _⟩
  · omega
  · exact ⟨b, _, h1, rfl, by omega, h3, (legal_byte hc h1 h2).1 hl⟩
  · exact absurd hl (not_legal_unmapped h1 h2)

theorem access_illegal {a : Access} {s : State} (hc : s.cap ≤ 2 ^ 28) (h : ¬ LegalAccess s.cap a.width a.addr.toNat) :
    hostAccess a s = answerErr s := by
  cases a with
  | read width addr =>
    simp only [Access.width, Access.addr] at h
    rcases target_cases s addr with ⟨h1, h2⟩ | ⟨b, h1, h2, h3⟩ | ⟨h1, h2, h3⟩
    · rw [legal_reg h1] at h
      rw [hostAccess, h2]
      exact if_pos (by simpa using h)
    · rw [legal_byte hc h1 h2, not_or] at h
      rw [hostAccess, h3]
      exact (if_neg h.1).trans (if_neg h.2)
    · rw [hostAccess, h3]
  | write width addr w =>
    simp only [Access.width, Access.addr] at h
    rcases target_cases s addr with ⟨h1, h2⟩ | ⟨b, h1, h2, h3⟩ | ⟨h1, h2, h3⟩
    · rw [legal_reg h1] at h
      rw [hostAccess, h2]
      exact if_pos (by simpa using h)
    · rw [legal_byte hc h1 h2, not_or] at h
      rw [hostAccess, h3]
      exact (if_neg h.1).trans (if_neg h.2)
    · rw [hostAccess, h3]

/-! ### What an access changes -/

theorem unlessBusy_true {s : State} (h : s.busy = true) (w : State) : s.unlessBusy w = s.refuseWrite := by
  simp [State.unlessBusy, h]

theorem unlessBusy_false {s : State} (h : s.busy = false) (w : State) : s.unlessBusy w = w := by
  simp [State.unlessBusy, h]

end Sys2Proof.Machine
end

