-- ==== Sys2Proof/Laws/PerInstr.lean ====
section
/-! SUPPORT. Statements made per command: the word a command encodes to matches its own row of the opcode table (R96). -/

namespace Sys2Proof.Laws.EncodedRow

/-- The encoded word matches a row of the opcode table that bears the command's name. -/
def Statement (i : Instr) : Prop :=
  ∃ r ∈ opcodeTable, r.mnemonic = i.mnemonic ∧ r.accepts (encode i) = true

theorem setbit (val : Byte) : Statement (.setbit val) := by
  refine ⟨opcodeTable[0], by decide, rfl, ?_⟩
  revert val
  decide +kernel

theorem getbit (sel : Sel) : Statement (.getbit sel) := by
  cases sel <;> exact ⟨opcodeTable[1], by decide, rfl, by decide⟩

theorem hdrEnc : Statement .hdrEnc := ⟨opcodeTable[2], by decide, rfl, by decide⟩

theorem hdrDec (sel : Sel) : Statement (.hdrDec sel) := by
  cases sel <;> exact ⟨opcodeTable[3], by decide, rfl, by decide⟩

theorem payEnc : Statement .payEnc := ⟨opcodeTable[4], by decide, rfl, by decide⟩

theorem payDec (sel : Sel) : Statement (.payDec sel) := by
  cases sel <;> exact ⟨opcodeTable[5], by decide, rfl, by decide⟩

theorem copy : Statement .copy := ⟨opcodeTable[6], by decide, rfl, by decide⟩

theorem encode : Statement .encode := ⟨opcodeTable[7], by decide, rfl, by decide⟩

theorem decode (sel : Sel) : Statement (.decode sel) := by
  cases sel <;> exact ⟨opcodeTable[8], by decide, rfl, by decide⟩

end Sys2Proof.Laws.EncodedRow
end

