-- ==== Sys2Proof/Tests/Slice0.lean ====
section
/-! SUPPORT. Tests against the vectors and words of the spec (95_test_vectors.md, with `CAP = 1024`), and for every
statement with hypotheses a witness that they can be met, clause by clause. -/

open Sys2Proof Sys2Proof.Machine

namespace Sys2Proof.Tests

set_option Elab.async false

/-! ### Ill-formed command words, one per check of WellFormed.lean (R95, R97) -/

theorem test_illformed_rsv0 : (CmdFields.mk 1#4 0#1 1#3 0#8 0#16).error? = some .reservedBits ∧
    decode 0x00000021#32 = .error .reservedBits := by decide

theorem test_illformed_rsv1 : (CmdFields.mk 9#4 0#1 0#3 0#8 0x8000#16).error? = some .reservedBits ∧
    decode 0x80000009#32 = .error .reservedBits := by decide

theorem test_illformed_op : (CmdFields.mk 0#4 0#1 0#3 0#8 0#16).error? = some .illegalOp ∧
    (CmdFields.mk 10#4 0#1 0#3 0#8 0#16).error? = some .illegalOp ∧
    decode 0x00000000#32 = .error .illegalOp ∧ decode 0x0000000A#32 = .error .illegalOp ∧
    decode 0x0000000F#32 = .error .illegalOp := by decide

theorem test_illformed_sel : (CmdFields.mk 8#4 1#1 0#3 0#8 0#16).error? = some .selNotTaken ∧
    (CmdFields.mk 1#4 1#1 0#3 0#8 0#16).error? = some .selNotTaken ∧
    decode 0x00000018#32 = .error .selNotTaken ∧ decode 0x00000011#32 = .error .selNotTaken := by decide

theorem test_illformed_val : (CmdFields.mk 2#4 0#1 0#3 1#8 0#16).error? = some .valNotTaken ∧
    decode 0x00000102#32 = .error .valNotTaken := by decide

/-! ### Decoding: words written from R91, R92 and R100 -/

theorem test_decode_setbit : decode 0x00000001#32 = .ok (.setbit 0x00#8) ∧
    decode 0x0000A501#32 = .ok (.setbit 0xA5#8) := by decide

theorem test_decode_getbit : decode 0x00000002#32 = .ok (.getbit .input) ∧
    decode 0x00000012#32 = .ok (.getbit .output) := by decide

theorem test_decode_hdrEnc : decode 0x00000003#32 = .ok .hdrEnc := by decide

theorem test_decode_hdrDec : decode 0x00000004#32 = .ok (.hdrDec .input) ∧
    decode 0x00000014#32 = .ok (.hdrDec .output) := by decide

theorem test_decode_payEnc : decode 0x00000005#32 = .ok .payEnc := by decide

theorem test_decode_payDec : decode 0x00000006#32 = .ok (.payDec .input) ∧
    decode 0x00000016#32 = .ok (.payDec .output) := by decide

theorem test_decode_copy : decode 0x00000007#32 = .ok .copy := by decide

theorem test_decode_encode : decode 0x00000008#32 = .ok .encode := by decide

theorem test_decode_decode : decode 0x00000009#32 = .ok (.decode .input) ∧
    decode 0x00000019#32 = .ok (.decode .output) := by decide

theorem test_encode_words : encode (.setbit 0xFF#8) = 0x0000FF01#32 ∧ encode (.getbit .output) = 0x00000012#32 ∧
    encode (.decode .input) = 0x00000009#32 := by decide

theorem test_decodeTableWord : decodeTableWord 32 0x00000014 = some (.hdrDec .output) ∧
    decodeTableWord 32 0x00000010 = none := by decide

/-! ### Small states -/

/-- The state after reset, with `CAP = 1024`. -/
def base : State := { State.reset with cap := 1024 }

/-- `n` bytes `v` from index `start` on. -/
def fill (start n : Nat) (v : Byte) : Memory := (List.range n).map (fun i => (start + i, v))

/-- The bytes of a list, from index `start` on. -/
def bytesFrom (start : Nat) (vs : List Byte) : Memory := vs.zipIdx.map (fun p => (start + p.2, p.1))

/-- The bytes `[lo, lo + n)` of a buffer. -/
def bytesOf (m : Memory) (lo n : Nat) : List (Option Byte) := (List.range n).map (fun i => m.read (lo + i))

/-- `n` times one byte, as `bytesOf` gives them. -/
def times (n : Nat) (v : Byte) : List (Option Byte) := List.replicate n (some v)

/-- The outcome is a next state. -/
def completes (r : Result) : Bool :=
  match r with
  | .next _ => true
  | _ => false

/-- The next state, where there is one. -/
def after (r : Result) : State :=
  match r with
  | .next t => t
  | _ => base

theorem next_after {r : Result} (h : completes r = true) : r = .next (after r) := by
  cases r <;> simp_all [completes, after]

/-- The step that runs the word `w` from `s` ends with this STATUS, REQ and AVAIL, and in a state that passes `p`. -/
def ends (w : Nat) (s : State) (status : Word) (req : Nat) (avail : Word) (p : State → Bool) : Bool :=
  match step (s.withFetchWord 32 w) with
  | .next t => t.regValue .status == status && t.req.toNat == req && t.avail == avail && p t
  | _ => false

/-! ### The commands, one step each (sections 1 and 2 of 95_test_vectors.md) -/

/-- S1 and S3. -/
theorem test_setbit :
    ends 0x00000001 { base with clen := 8, idx := 5, outBuf := fill 0 8 0xA7 } 0x1012#32 6 8
      (fun t => bytesOf t.outBuf 0 9 == times 5 0xA7 ++ [some 0xA6] ++ times 2 0xA7 ++ [none]) = true ∧
    ends 0x0000FF01 { base with clen := 8, idx := 5, outBuf := fill 0 8 0xA6 } 0x1012#32 6 8
      (fun t => bytesOf t.outBuf 4 3 == [some 0xA6, some 0xA7, some 0xA6]) = true := by decide +kernel

/-- S5 and S6. -/
theorem test_setbit_index_range :
    ends 0x00000101 { base with clen := 8, idx := 8, outBuf := fill 0 8 0x10 } 0x1042#32 9 8
      (fun t => bytesOf t.outBuf 0 9 == times 8 0x10 ++ [none] && t.misuse == [.indexRange 8 8]) = true ∧
    ends 0x00000101 { base with clen := 8, idx := 0xFFFFFFFF, outBuf := fill 0 8 0x10 } 0x1042#32 0x100000000 8
      (fun t => t.regValue .reqHi == 1 && t.regValue .reqLo == 0 && bytesOf t.outBuf 0 8 == times 8 0x10) = true := by
  decide +kernel

/-- G1, G2 and G3. -/
theorem test_getbit :
    ends 0x00000002 { base with clen := 4, idx := 3, inBuf := fill 0 4 0x81 } 0x2012#32 4 4
      (fun t => t.bitv == 1) = true ∧
    ends 0x00000002 { base with clen := 4, idx := 3, inBuf := fill 0 4 0xFE, bitv := 1 } 0x2012#32 4 4
      (fun t => t.bitv == 0) = true ∧
    ends 0x00000012 { base with clen := 4, idx := 3, inBuf := fill 0 4 0xFE, outBuf := fill 0 4 0x01 } 0x2012#32 4 4
      (fun t => t.bitv == 1) = true := by decide +kernel

/-- G4. -/
theorem test_getbit_index_range :
    ends 0x00000002 { base with clen := 4, idx := 4, bitv := 1, inBuf := fill 0 4 0x01 } 0x2042#32 5 4
      (fun t => t.bitv == 1) = true := by decide +kernel

/-- HE2. -/
theorem test_hdrEnc :
    ends 0x00000003 { base with clen := 32, hdr := 0x12345678, outBuf := fill 0 32 0xFF } 0x3012#32 32 32
      (fun t => bytesOf t.outBuf 0 32 ==
        [0xFE, 0xFE, 0xFE, 0xFF, 0xFE, 0xFE, 0xFF, 0xFE, 0xFE, 0xFE, 0xFF, 0xFF, 0xFE, 0xFF, 0xFE, 0xFE,
          0xFE, 0xFF, 0xFE, 0xFF, 0xFE, 0xFF, 0xFF, 0xFE, 0xFE, 0xFF, 0xFF, 0xFF, 0xFF, 0xFE, 0xFE, 0xFE].map some) =
      true := by decide +kernel

/-- HE3. -/
theorem test_hdrEnc_capacity :
    ends 0x00000003 { base with clen := 31, hdr := 5, outBuf := fill 0 31 0x00 } 0x3022#32 32 31
      (fun t => t.outBuf == fill 0 31 0x00) = true := by decide +kernel

/-- HD1 and HD2. -/
theorem test_hdrDec :
    ends 0x00000004 { base with clen := 32, inBuf := fill 0 32 0xFF } 0x4012#32 32 32
      (fun t => t.hdr == 0xFFFFFFFF) = true ∧
    ends 0x00000004 { base with clen := 32, inBuf := fill 0 30 0xFE ++ fill 30 2 0x01 } 0x4012#32 32 32
      (fun t => t.hdr == 3) = true := by decide +kernel

/-- HD3. -/
theorem test_hdrDec_short :
    ends 0x00000004 { base with clen := 31, hdr := 7, inBuf := fill 0 31 0xFF } 0x4132#32 32 31
      (fun t => t.hdr == 7) = true := by decide +kernel

/-- PE1 and PE2. -/
theorem test_payEnc :
    ends 0x00000005 { base with clen := 40, idx := 32, plen := 1, pBuf := [(0, 0xA5)], outBuf := fill 0 40 0x00 }
      0x5012#32 40 40 (fun t => bytesOf t.outBuf 30 10 ==
        [0x00, 0x00, 0x01, 0x00, 0x01, 0x00, 0x00, 0x01, 0x00, 0x01].map some) = true ∧
    ends 0x00000005 { base with clen := 16, plen := 2, pBuf := [(0, 0x0F), (1, 0xF0)], outBuf := fill 0 16 0x80 }
      0x5012#32 16 16 (fun t => bytesOf t.outBuf 0 16 == times 4 0x80 ++ times 8 0x81 ++ times 4 0x80) = true := by
  decide +kernel

/-- PE4 and PE6. -/
theorem test_payEnc_capacity :
    ends 0x00000005 { base with clen := 40, idx := 0xFFFFFFFF, plen := 0xFFFFFFFF } 0x5022#32 0x8FFFFFFF7 40
      (fun t => t.regValue .reqHi == 0x8 && t.regValue .reqLo == 0xFFFFFFF7) = true ∧
    ends 0x00000005 { base with clen := 40, idx := 41 } 0x5022#32 41 40 (fun _ => true) = true := by decide +kernel

/-- PD1. -/
theorem test_payDec :
    ends 0x00000006 { base with
        clen := 16, plen := 2, pBuf := fill 0 3 0x09,
        inBuf := fill 0 3 0x80 ++ [(3, 0x81)] ++ fill 4 11 0x80 ++ [(15, 0xFF)] } 0x6012#32 16 16
      (fun t => bytesOf t.pBuf 0 3 == [some 0x10, some 0x01, some 0x09] && t.plen == 2) = true := by decide +kernel

/-- PD3 and PD4. -/
theorem test_payDec_length :
    ends 0x00000006 { base with clen := 16, idx := 1, plen := 2, pBuf := fill 0 3 0x09, inBuf := fill 0 16 0x00 }
      0x6232#32 17 16 (fun t => t.pBuf == fill 0 3 0x09 && t.plen == 2) = true ∧
    ends 0x00000006 { base with clen := 40, idx := 41 } 0x6232#32 41 40 (fun _ => true) = true := by decide +kernel

/-- CP1. -/
theorem test_copy :
    ends 0x00000007 { base with clen := 2, req := 77, inBuf := [(0, 0x12), (1, 0x34)], outBuf := [(2, 0x99)] }
      0x7012#32 77 0 (fun t => bytesOf t.outBuf 0 3 == [some 0x12, some 0x34, some 0x99]) = true := by decide +kernel

/-- CP2. -/
theorem test_copy_nothing : ends 0x00000007 base 0x7012#32 0 0 (fun t => t.outBuf == []) = true := by decide +kernel

/-- E1 and E6. -/
theorem test_encode :
    ends 0x00000008 { base with
        clen := 64, plen := 1, hdr := 0x12345678, idx := 7, inBuf := fill 0 64 0xFF, pBuf := [(0, 0x41)] }
      0x8012#32 40 64
      (fun t => bytesOf t.outBuf 0 64 == times 31 0xFE ++ [some 0xFF] ++
          [0xFE, 0xFF, 0xFE, 0xFE, 0xFE, 0xFE, 0xFE, 0xFF].map some ++ times 24 0xFF &&
        t.hdr == 0x12345678 && t.idx == 7 && t.inBuf == fill 0 64 0xFF) = true := by decide +kernel

/-- V-SRC-2 and E3. -/
theorem test_encode_capacity :
    ends 0x00000008 { base with
        clen := 50, plen := 3, inBuf := fill 0 50 0x00, outBuf := fill 0 50 0x55, pBuf := bytesFrom 0 [0x78, 0x3D, 0x31] }
      0x8022#32 56 50 (fun t => t.outBuf == fill 0 50 0x55 && t.regValue .pcapacity == 2) = true ∧
    ends 0x00000008 { base with clen := 32, plen := 0xFFFFFFFF, inBuf := fill 0 32 0xFF }
      0x8022#32 0x800000018 32 (fun t => t.outBuf == []) = true := by decide +kernel

/-- An all-zero carrier with a header that says `n` (below 256), then the bits of `vs`. -/
def carrying (n : Byte) (vs : List Byte) : Memory :=
  fill 0 24 0x00 ++ bytesFrom 24 ((n :: vs).flatMap (fun v =>
    [7, 6, 5, 4, 3, 2, 1, 0].map (fun k => (BitVec.ofBool (v.getLsbD k)).setWidth 8)))

/-- D5, D14 (U+20AC) and D1 (an empty message). -/
theorem test_decode_ok :
    ends 0x00000009 { base with
        clen := 40, inBuf := fill 0 31 0x00 ++ bytesFrom 31 [0x01, 0x00, 0x01, 0x00, 0x00, 0x00, 0x00, 0x00, 0x01] }
      0x9012#32 40 40 (fun t => t.hdr == 1 && t.plen == 1 && bytesOf t.pBuf 0 2 == [some 0x41, none]) = true ∧
    ends 0x00000019 { base with clen := 56, outBuf := carrying 3 [0xE2, 0x82, 0xAC] } 0x9012#32 56 56
      (fun t => t.hdr == 3 && t.plen == 3 && bytesOf t.pBuf 0 3 == [some 0xE2, some 0x82, some 0xAC]) = true ∧
    ends 0x00000009 { base with clen := 64, plen := 9, inBuf := fill 0 64 0x00 } 0x9012#32 32 64
      (fun t => t.hdr == 0 && t.plen == 0) = true := by decide +kernel

/-- D3, D2 and D7: the three reasons. -/
theorem test_decode_no_payload :
    ends 0x00000009 { base with clen := 31, plen := 9, hdr := 5, inBuf := fill 0 31 0xFF } 0x9132#32 32 31
      (fun t => t.hdr == 5 && t.plen == 0) = true ∧
    ends 0x00000009 { base with clen := 64, plen := 9, inBuf := fill 0 64 0xFF } 0x9232#32 0x800000018 64
      (fun t => t.hdr == 0xFFFFFFFF && t.plen == 0) = true ∧
    ends 0x00000019 { base with clen := 40, plen := 9, pBuf := fill 0 2 0x09, outBuf := carrying 1 [0xFF] } 0x9332#32 40 40
      (fun t => t.hdr == 1 && t.plen == 0 && t.pBuf.read 1 == some 0x09 && t.draws == 1) = true := by decide +kernel

/-! ### UTF-8 (D8 to D18) -/

theorem test_utf8_refused :
    [[0xC0, 0x80], [0xE0, 0x80, 0x80], [0xED, 0xA0, 0x80], [0xF4, 0x90, 0x80, 0x80], [0xE2, 0x82], [0x80]].all
      (fun p => !utf8Valid p) = true := by decide

theorem test_utf8_accepted :
    [[], [0x00], [0x78, 0x3D, 0x31], [0xF0, 0x9F, 0x98, 0x80], [0xEF, 0xBB, 0xBF], [0xEF, 0xBF, 0xBF]].all
      utf8Valid = true := by decide

/-! ### Illegal words and the common checks (X1 to X12) -/

/-- The start of X1 to X12. -/
def xStart : State := { base with clen := 8, inBuf := fill 0 8 0x00, outBuf := fill 0 8 0x00 }

theorem test_illegal_words :
    [(0x00000000, 0x0062#32), (0x0000000A, 0xA062#32), (0x0000000F, 0xF062#32), (0x00000018, 0x8062#32),
      (0x00000013, 0x3062#32), (0x00000102, 0x2062#32), (0x00000021, 0x1062#32), (0x00010001, 0x1062#32),
      (0x80000009, 0x9062#32)].all (fun p => ends p.1 xStart p.2 0 0 (fun t =>
        { t with result := .none, lastOp := 0, done := false, misuse := [] } == xStart)) = true := by decide +kernel

theorem test_bad_length_after_legality :
    ends 0x00000008 { xStart with clen := 1025, req := 5 } 0x8052#32 5 0
      (fun t => t.outBuf == xStart.outBuf && t.misuse == [.badLength 1025]) = true ∧
    ends 0x0000000A { xStart with clen := 1025 } 0xA062#32 0 0 (fun _ => true) = true := by decide +kernel

/-! ### The host port (H1 to H10) and the registers -/

/-- The response to one access, and the state after it, pass a check. -/
def answers (a : Access) (s : State) (p : Response → State → Bool) : Bool :=
  match step { s with inputs := [.access a] } with
  | .next t =>
    match t.response with
    | some r => p r t
    | none => false
  | _ => false

/-- H1. -/
theorem test_host_lanes :
    answers (.write 32 0x10000004#32 0x44332211#32) base (fun r t =>
      r == .written && bytesOf t.inBuf 4 4 == [some 0x11, some 0x22, some 0x33, some 0x44]) = true ∧
    answers (.read 8 0x10000007#32) { base with inBuf := bytesFrom 4 [0x11, 0x22, 0x33, 0x44] } (fun r _ =>
      r == .data 0x44#32) = true := by decide +kernel

/-- H2, H3 and H5. -/
theorem test_host_err :
    answers (.write 32 0x10000005#32 0#32) base (fun r t => r == .err 0#32 && t.inBuf == []) = true ∧
    answers (.write 8 0x00000014#32 7#32) base (fun r t => r == .err 0#32 && t.clen == 0) = true ∧
    answers (.read 32 0x40000000#32) base (fun r _ => r == .err 0#32) = true := by decide +kernel

/-- H4, H6 and H9. -/
theorem test_host_registers :
    answers (.read 32 0x00000040#32) base (fun r _ => r == .data 0#32) = true ∧
    answers (.read 32 0x00000000#32) base (fun r _ => r == .data 0x4C534231#32) = true ∧
    answers (.read 32 0x00000004#32) base (fun r _ => r == .data 1024#32) = true ∧
    answers (.read 32 0x0000000C#32) base (fun r _ => r == .data 0#32) = true := by decide +kernel

/-- H7 and H8. -/
theorem test_host_busy :
    answers (.write 32 0x00000018#32 5#32) { base with engine := some 0x8#32 } (fun r t =>
      r == .written && t.plen == 0 && t.overrun) = true ∧
    answers (.write 32 0x0000000C#32 4#32) { base with engine := some 0x8#32, overrun := true } (fun r t =>
      r == .written && !t.overrun && t.busy) = true := by decide +kernel

/-- H10. -/
theorem test_host_uninit : step { base with inputs := [hostRB .outBuf 0] } = .fault (.uninitRead .outBuf 0) := by rfl

/-- V-SRC-4. -/
theorem test_pcapacity :
    [(1000, 121), (56, 3), (50, 2), (40, 1), (39, 0), (32, 0), (31, 0), (0, 0)].all (fun p =>
      State.regValue { base with clen := BitVec.ofNat 32 p.1 } .pcapacity == BitVec.ofNat 32 p.2) = true := by decide +kernel

/-! ### Witnesses: what the statements assume can be met -/

/-- Run one command. -/
def ran (i : Instr) (s : State) : State := after (exec i s)

theorem written_of_check {s : State} {b : Buf} {lo hi : Nat}
    (h : (List.range hi).all (fun a => a < lo || ((s.buffer b).read a).isSome) = true) : s.written b lo hi := by
  intro a h1 h2
  have := List.all_eq_true.mp h a (List.mem_range.mpr h2)
  rw [Bool.or_eq_true, decide_eq_true_eq, Option.isSome_iff_exists] at this
  exact this.resolve_left (by omega)

theorem not_written_of {s : State} {b : Buf} {lo hi : Nat} (a : Nat) (h1 : lo ≤ a) (h2 : a < hi)
    (h : (s.buffer b).read a = none) : ¬ s.written b lo hi := fun hw => by
  obtain ⟨v, hv⟩ := hw a h1 h2
  rw [h] at hv
  cases hv

theorem carriesHeader_of_check {m : Memory} {h : Word}
    (hc : (List.range 32).all (fun i => (m.read i).map (fun v => v.getLsbD 0) == some (h.getLsbD (31 - i))) = true) :
    CarriesHeader m h := by
  intro i hi
  have := List.all_eq_true.mp hc i (List.mem_range.mpr hi)
  rwa [beq_iff_eq, Option.map_eq_some_iff] at this

theorem carriesPayload_of_check {m : Memory} {start : Nat} {p : List Byte}
    (hc : p.zipIdx.all (fun q => (List.range 8).all (fun k =>
      (m.read (start + 8 * q.2 + k)).map (fun v => v.getLsbD 0) == some (q.1.getLsbD (7 - k)))) = true) :
    CarriesPayload m start p := by
  intro j b hj k hk
  have hm : (b, j) ∈ p.zipIdx := by rwa [List.mk_mem_zipIdx_iff_getElem?]
  have := List.all_eq_true.mp (List.all_eq_true.mp hc _ hm) k (List.mem_range.mpr hk)
  rwa [beq_iff_eq, Option.map_eq_some_iff] at this

theorem wellFormed_A : WellFormedUtf8 [0x41#8] :=
  ⟨[[0x41#8]], rfl, fun q hq => ⟨[(0x00#8, 0x7F#8)], by decide, by
    rw [List.mem_singleton.mp hq]
    exact .cons (by decide) .nil⟩⟩

theorem fitsRow_mem {row : List (Byte × Byte)} {q : List Byte} (h : FitsRow row q) :
    ∀ b ∈ q, ∃ r ∈ row, b ≤ r.2 := by
  induction h with
  | nil => simp
  | cons hb _ ih =>
    intro c hc
    rcases List.mem_cons.mp hc with rfl | hc
    · exact ⟨_, List.mem_cons_self, hb.2⟩
    · obtain ⟨r, hr, hle⟩ := ih c hc
      exact ⟨r, List.mem_cons_of_mem _ hr, hle⟩

theorem not_wellFormed_FF : ¬ WellFormedUtf8 [0xFF#8] := by
  rintro ⟨seqs, hp, hq⟩
  have hm : 0xFF#8 ∈ seqs.flatten := by rw [← hp]; exact List.mem_singleton_self _
  obtain ⟨q, hqm, hb⟩ := List.mem_flatten.mp hm
  obtain ⟨row, hrow, hf⟩ := hq q hqm
  obtain ⟨r, hr, hle⟩ := fitsRow_mem hf _ hb
  have h : utf8Rows.all (fun row => row.all (fun r => !decide (0xFF#8 ≤ r.2))) = true := by decide +kernel
  have := List.all_eq_true.mp (List.all_eq_true.mp h row hrow) r hr
  simp [hle] at this

/-- A carrier of exactly 40 positions that carries "A"; IN, OUT and PBUF are written. -/
def full : State := { base with
  clen := 40, plen := 1, idx := 32, hdr := 7, inBuf := carrying 1 [0x41], outBuf := carrying 1 [0x41], pBuf := [(0, 0x41)] }

/-- The same with the one payload byte FF, which is not UTF-8. -/
def fullFF : State := { full with inBuf := carrying 1 [0xFF], outBuf := carrying 1 [0xFF], pBuf := [(0, 0xFF)] }

theorem witness_LegalWordsMatchOneRow : ∃ (w : Word) (i : Instr), decode w = .ok i := ⟨1#32, .setbit 0#8, by decide⟩

theorem witness_IllegalWordsCompleteAtOnce : ∃ (w : Word) (s : State), (∃ e, decode w = .error e) ∧ s.engine = none ∧
    s.inputs = [.access (.write 32 0x10#32 w)] :=
  ⟨0#32, { base with inputs := [.access (.write 32 0x10#32 0#32)] }, ⟨.illegalOp, by decide⟩, rfl, rfl⟩

/-- `IDX = CLEN = CAP`; `IDX = CLEN - 1`, written and unwritten. -/
theorem witness_SetbitWritesOneDataBit : (0x0000FF01#32 &&& 0xFFFF00FF#32 = 0x00000001#32) ∧
    (∃ s : State, s.clen.toNat ≤ s.cap ∧ s.clen.toNat ≤ s.idx.toNat) ∧
    (∃ (s : State) (old : Byte), s.clen.toNat ≤ s.cap ∧ s.idx.toNat < s.clen.toNat ∧
      s.outBuf.read s.idx.toNat = some old) ∧
    (∃ s : State, s.clen.toNat ≤ s.cap ∧ s.idx.toNat < s.clen.toNat ∧ s.outBuf.read s.idx.toNat = none) :=
  ⟨by decide, ⟨{ base with clen := 1024, idx := 1024 }, by decide, by decide⟩,
    ⟨{ full with idx := 39 }, 1#8, by decide, by decide, by decide +kernel⟩,
    ⟨{ base with clen := 1024, idx := 1023 }, by decide, by decide, by decide⟩⟩

theorem witness_GetbitReadsOneDataBit : (0x00000012#32 &&& 0xFFFFFFEF#32 = 0x00000002#32) ∧
    (∃ s : State, s.clen.toNat ≤ s.cap ∧ s.clen.toNat ≤ s.idx.toNat) ∧
    (∀ sel, ∃ (s : State) (v : Byte), s.clen.toNat ≤ s.cap ∧ s.idx.toNat < s.clen.toNat ∧
      (s.cb sel).read s.idx.toNat = some v) ∧
    (∀ sel, ∃ s : State, s.clen.toNat ≤ s.cap ∧ s.idx.toNat < s.clen.toNat ∧ (s.cb sel).read s.idx.toNat = none) :=
  ⟨by decide, ⟨{ base with clen := 1024, idx := 1024 }, by decide, by decide⟩,
    fun sel => ⟨{ full with idx := 39 }, 1#8, by decide, by decide, by cases sel <;> decide +kernel⟩,
    fun sel => ⟨{ base with clen := 1024, idx := 1023 }, by decide, by decide, by cases sel <;> decide⟩⟩

/-- `CLEN = 31`; `CLEN = 32`, written and unwritten. -/
theorem witness_HdrEncWritesTheHeaderBits : (∃ s : State, s.clen.toNat ≤ s.cap ∧ s.clen.toNat < 32) ∧
    (∃ s : State, s.clen.toNat ≤ s.cap ∧ 32 ≤ s.clen.toNat ∧ s.written .outBuf 0 32) ∧
    (∃ s : State, s.clen.toNat ≤ s.cap ∧ 32 ≤ s.clen.toNat ∧ ¬ s.written .outBuf 0 32) :=
  ⟨⟨{ base with clen := 31 }, by decide, by decide⟩,
    ⟨{ full with clen := 32 }, by decide, by decide, written_of_check (by decide +kernel)⟩,
    ⟨{ base with clen := 32 }, by decide, by decide, not_written_of 0 (by decide) (by decide) rfl⟩⟩

theorem witness_HdrDecReadsTheHeaderBits : (0x00000014#32 &&& 0xFFFFFFEF#32 = 0x00000004#32) ∧
    (∃ s : State, s.clen.toNat ≤ s.cap ∧ s.clen.toNat < 32) ∧
    (∀ sel, ∃ s : State, s.clen.toNat ≤ s.cap ∧ 32 ≤ s.clen.toNat ∧ s.written (cbBuf sel) 0 32) ∧
    (∀ sel, ∃ s : State, s.clen.toNat ≤ s.cap ∧ 32 ≤ s.clen.toNat ∧ ¬ s.written (cbBuf sel) 0 32) :=
  ⟨by decide, ⟨{ base with clen := 31 }, by decide, by decide⟩,
    fun sel => ⟨{ full with clen := 32 }, by decide, by decide,
      by cases sel <;> exact written_of_check (by decide +kernel)⟩,
    fun sel => ⟨{ base with clen := 32 }, by decide, by decide,
      not_written_of 0 (by decide) (by decide) (by cases sel <;> rfl)⟩⟩

/-- `IDX + 8 * PLEN` one above CLEN, and equal to it, with the buffers written and unwritten. -/
theorem witness_PayEncStripesTheBytes :
    (∃ s : State, s.clen.toNat ≤ s.cap ∧ s.clen.toNat < s.idx.toNat + 8 * s.plen.toNat) ∧
    (∃ (s : State) (j k : Nat) (b old : Byte), s.clen.toNat ≤ s.cap ∧
      s.idx.toNat + 8 * s.plen.toNat ≤ s.clen.toNat ∧ s.written .pBuf 0 s.plen.toNat ∧
      s.written .outBuf s.idx.toNat (s.idx.toNat + 8 * s.plen.toNat) ∧ j < s.plen.toNat ∧ k < 8 ∧
      s.pBuf.read j = some b ∧ s.outBuf.read (s.idx.toNat + 8 * j + k) = some old) ∧
    (∃ s : State, s.clen.toNat ≤ s.cap ∧ s.idx.toNat + 8 * s.plen.toNat ≤ s.clen.toNat ∧
      ¬ (s.written .pBuf 0 s.plen.toNat ∧ s.written .outBuf s.idx.toNat (s.idx.toNat + 8 * s.plen.toNat))) :=
  ⟨⟨{ base with clen := 40, idx := 33, plen := 1 }, by decide, by decide⟩,
    ⟨full, 0, 7, 0x41#8, 1#8, by decide, by decide, written_of_check (by decide +kernel),
      written_of_check (by decide +kernel), by decide, by decide, by decide +kernel, by decide +kernel⟩,
    ⟨{ full with pBuf := [] }, by decide, by decide,
      fun h => not_written_of 0 (by decide) (by decide) rfl h.1⟩⟩

theorem witness_PayDecReadsTheBytes : (0x00000016#32 &&& 0xFFFFFFEF#32 = 0x00000006#32) ∧
    (∃ s : State, s.clen.toNat ≤ s.cap ∧ s.clen.toNat < s.idx.toNat + 8 * s.plen.toNat) ∧
    (∀ sel, ∃ s : State, s.clen.toNat ≤ s.cap ∧ s.idx.toNat + 8 * s.plen.toNat ≤ s.clen.toNat ∧
      s.written (cbBuf sel) s.idx.toNat (s.idx.toNat + 8 * s.plen.toNat)) ∧
    (∀ sel, ∃ s : State, s.clen.toNat ≤ s.cap ∧ s.idx.toNat + 8 * s.plen.toNat ≤ s.clen.toNat ∧
      ¬ s.written (cbBuf sel) s.idx.toNat (s.idx.toNat + 8 * s.plen.toNat)) :=
  ⟨by decide, ⟨{ base with clen := 40, idx := 33, plen := 1 }, by decide, by decide⟩,
    fun sel => ⟨full, by decide, by decide, by cases sel <;> exact written_of_check (by decide +kernel)⟩,
    fun sel => ⟨{ base with clen := 40, idx := 32, plen := 1 }, by decide, by decide,
      not_written_of 32 (by decide) (by decide) (by cases sel <;> rfl)⟩⟩

theorem witness_CopyFillsThePrivateCopy :
    (∃ s : State, s.clen.toNat ≤ s.cap ∧ 0 < s.clen.toNat ∧ s.written .inBuf 0 s.clen.toNat) ∧
    (∃ s : State, s.clen.toNat ≤ s.cap ∧ ¬ s.written .inBuf 0 s.clen.toNat) :=
  ⟨⟨full, by decide, by decide, written_of_check (by decide +kernel)⟩,
    ⟨{ base with clen := 1024 }, by decide, not_written_of 1023 (by decide) (by decide) rfl⟩⟩

/-- `CLEN = 32 + 8 * PLEN - 1`, and `CLEN = 32 + 8 * PLEN`, with the buffers written and unwritten. -/
theorem witness_EncodeEmbedsThePayload :
    (∃ s : State, s.clen.toNat ≤ s.cap ∧ s.clen.toNat < 32 + 8 * s.plen.toNat) ∧
    (∃ s : State, s.clen.toNat ≤ s.cap ∧ 32 + 8 * s.plen.toNat ≤ s.clen.toNat ∧ s.written .inBuf 0 s.clen.toNat ∧
      s.written .pBuf 0 s.plen.toNat ∧ s.inBuf.read 31 = some 1#8 ∧ s.pBuf.read 0 = some 0x41#8 ∧
      s.inBuf.read 39 = some 1#8) ∧
    (∃ s : State, s.clen.toNat ≤ s.cap ∧ 32 + 8 * s.plen.toNat ≤ s.clen.toNat ∧
      ¬ (s.written .inBuf 0 s.clen.toNat ∧ s.written .pBuf 0 s.plen.toNat)) :=
  ⟨⟨{ full with clen := 39 }, by decide, by decide⟩,
    ⟨full, by decide, by decide, written_of_check (by decide +kernel), written_of_check (by decide +kernel),
      by decide +kernel, by decide +kernel, by decide +kernel⟩,
    ⟨{ full with pBuf := [] }, by decide, by decide, fun h => not_written_of 0 (by decide) (by decide) rfl h.2⟩⟩

/-- SHORT at `CLEN = 31`; LENGTH at `CLEN = 32 + 8L - 1`; OK and UTF8 at `CLEN = 32 + 8L`; an unwritten header and an
unwritten payload. -/
theorem witness_DecodeFindsOrReportsAbsence : (0x00000019#32 &&& 0xFFFFFFEF#32 = 0x00000009#32) ∧
    (∃ s : State, s.clen.toNat ≤ s.cap ∧ s.clen.toNat < 32) ∧
    (∀ sel, ∃ (s : State) (len : Word), s.clen.toNat ≤ s.cap ∧ 32 ≤ s.clen.toNat ∧ CarriesHeader (s.cb sel) len ∧
      s.clen.toNat < 32 + 8 * len.toNat) ∧
    (∀ sel, ∃ (s : State) (len : Word) (p : List Byte), s.clen.toNat ≤ s.cap ∧ 32 ≤ s.clen.toNat ∧
      CarriesHeader (s.cb sel) len ∧ 32 + 8 * len.toNat ≤ s.clen.toNat ∧ p.length = len.toNat ∧
      CarriesPayload (s.cb sel) 32 p ∧ WellFormedUtf8 p) ∧
    (∀ sel, ∃ (s : State) (len : Word) (p : List Byte), s.clen.toNat ≤ s.cap ∧ 32 ≤ s.clen.toNat ∧
      CarriesHeader (s.cb sel) len ∧ 32 + 8 * len.toNat ≤ s.clen.toNat ∧ p.length = len.toNat ∧
      CarriesPayload (s.cb sel) 32 p ∧ ¬ WellFormedUtf8 p) ∧
    (∀ sel, ∃ (s : State) (len : Word), s.clen.toNat ≤ s.cap ∧ 32 ≤ s.clen.toNat ∧ CarriesHeader (s.cb sel) len ∧
      32 + 8 * len.toNat ≤ s.clen.toNat ∧ ¬ s.written (cbBuf sel) 32 (32 + 8 * len.toNat)) ∧
    (∀ sel, ∃ s : State, s.clen.toNat ≤ s.cap ∧ 32 ≤ s.clen.toNat ∧ ¬ s.written (cbBuf sel) 0 32) := by
  refine ⟨by decide, ⟨{ base with clen := 31 }, by decide, by decide⟩, fun sel => ?_, fun sel => ?_, fun sel => ?_,
    fun sel => ?_, fun sel => ⟨{ base with clen := 32 }, by decide, by decide,
      not_written_of 0 (by decide) (by decide) (by cases sel <;> rfl)⟩⟩
  · exact ⟨{ full with clen := 39 }, 1#32, by decide, by decide,
      by cases sel <;> exact carriesHeader_of_check (by decide +kernel), by decide⟩
  · exact ⟨full, 1#32, [0x41#8], by decide, by decide,
      by cases sel <;> exact carriesHeader_of_check (by decide +kernel), by decide, rfl,
      by cases sel <;> exact carriesPayload_of_check (by decide +kernel), wellFormed_A⟩
  · exact ⟨fullFF, 1#32, [0xFF#8], by decide, by decide,
      by cases sel <;> exact carriesHeader_of_check (by decide +kernel), by decide, rfl,
      by cases sel <;> exact carriesPayload_of_check (by decide +kernel), not_wellFormed_FF⟩
  · exact ⟨{ full with inBuf := carrying 1 [], outBuf := carrying 1 [] }, 1#32, by decide, by decide,
      by cases sel <;> exact carriesHeader_of_check (by decide +kernel), by decide,
      not_written_of 39 (by decide) (by decide) (by cases sel <;> decide +kernel)⟩

theorem witness_TooLongCarrierIsBadLength : ∃ s : State, s.cap < s.clen.toNat ∧ s.clen.toNat = s.cap + 1 :=
  ⟨{ base with clen := 1025 }, by decide, by decide⟩

/-- Each recorded fault, and an end with nothing to record. -/
theorem witness_HostFaultsAreRecorded :
    (∃ (w : Word) (s t : State), runWord w s = .next t ∧ t.result = .indexRange) ∧
    (∃ (w : Word) (s t : State), runWord w s = .next t ∧ t.result = .badLength) ∧
    (∃ (w : Word) (s t : State), runWord w s = .next t ∧ t.result = .illegalCmd) ∧
    (∃ (w : Word) (s t : State), runWord w s = .next t ∧ t.result = .ok) ∧
    (∃ (w : Word) (s t : State), runWord w s = .next t ∧ t.result = .capacityExceeded) ∧
    (∃ (w : Word) (s t : State), runWord w s = .next t ∧ t.result = .noPayload) :=
  ⟨⟨1#32, base, _, next_after (by decide +kernel), by decide +kernel⟩,
    ⟨1#32, { base with clen := 1025 }, _, next_after (by decide +kernel), by decide +kernel⟩,
    ⟨0#32, base, _, next_after (by decide +kernel), by decide +kernel⟩,
    ⟨7#32, base, _, next_after (by decide +kernel), by decide +kernel⟩,
    ⟨3#32, base, _, next_after (by decide +kernel), by decide +kernel⟩,
    ⟨4#32, base, _, next_after (by decide +kernel), by decide +kernel⟩⟩

/-- Each pair of the table of R204 is met, with `CLEN ≤ CAP`. -/
theorem witness_ResultsAreThoseOfTheTable :
    [(Instr.setbit 0, full, ResultCode.ok, NpReason.none), (.setbit 0, base, .indexRange, .none),
      (.getbit .output, full, .ok, .none), (.getbit .input, base, .indexRange, .none),
      (.hdrEnc, full, .ok, .none), (.hdrEnc, base, .capacityExceeded, .none),
      (.hdrDec .input, full, .ok, .none), (.hdrDec .output, base, .noPayload, .short),
      (.payEnc, full, .ok, .none), (.payEnc, { full with idx := 33 }, .capacityExceeded, .none),
      (.payDec .input, full, .ok, .none), (.payDec .input, { full with idx := 33 }, .noPayload, .length),
      (.copy, full, .ok, .none), (.encode, full, .ok, .none), (.encode, base, .capacityExceeded, .none),
      (.decode .input, full, .ok, .none), (.decode .input, base, .noPayload, .short),
      (.decode .output, { full with clen := 39 }, .noPayload, .length),
      (.decode .output, fullFF, .noPayload, .utf8)].all (fun p =>
        decide (p.2.1.clen.toNat ≤ p.2.1.cap) && completes (exec p.1 p.2.1) && (ran p.1 p.2.1).result == p.2.2.1 &&
          (ran p.1 p.2.1).npReason == p.2.2.2) = true := by decide +kernel

theorem witness_FailingChecksComeBeforeWrites :
    (∃ (w : Word) (s t : State), runWord w s = .next t ∧ t.result ≠ .ok ∧ t.npReason ≠ .utf8) ∧
    (∃ (w : Word) (s t : State) (a : Nat), runWord w s = .next t ∧ t.result ≠ .ok ∧ t.npReason = .utf8 ∧
      a = t.hdr.toNat) :=
  ⟨⟨8#32, base, _, next_after (by decide +kernel), by decide +kernel, by decide +kernel⟩,
    ⟨9#32, fullFF, _, _, next_after (by decide +kernel), by decide +kernel, by decide +kernel, rfl⟩⟩

theorem witness_CompletionWritesStatus : ∃ (w : Word) (s t : State), runWord w s = .next t ∧ s.overrun = true :=
  ⟨7#32, { full with overrun := true }, _, next_after (by decide +kernel), rfl⟩

theorem witness_NoCommandWritesIn : (∃ s t : State, exec .encode s = .next t ∧ t.result = .ok) ∧
    (∃ (sel : Sel) (s t : State), exec (.decode sel) s = .next t ∧ t.result = .ok) :=
  ⟨⟨full, _, next_after (by decide +kernel), by decide +kernel⟩,
    ⟨.output, full, _, next_after (by decide +kernel), by decide +kernel⟩⟩

theorem witness_CommandsKeepTheHostRegisters : ∃ (w : Word) (s t : State), runWord w s = .next t ∧ t ≠ s :=
  ⟨8#32, full, _, next_after (by decide +kernel), by decide +kernel⟩

/-- Each register and buffer of R99's writes column is changed by some command. -/
theorem witness_OnlyListedCommandsWrite :
    (∃ (i : Instr) (s t : State), exec i s = .next t ∧ t.bitv ≠ s.bitv) ∧
    (∃ (i : Instr) (s t : State), exec i s = .next t ∧ t.hdr ≠ s.hdr) ∧
    (∃ (i : Instr) (s t : State), exec i s = .next t ∧ t.plen ≠ s.plen) ∧
    (∃ (i : Instr) (s t : State), exec i s = .next t ∧ (t.req ≠ s.req ∨ t.avail ≠ s.avail)) ∧
    (∃ (i : Instr) (s t : State), exec i s = .next t ∧ t.outBuf ≠ s.outBuf) ∧
    (∃ (i : Instr) (s t : State), exec i s = .next t ∧ t.pBuf ≠ s.pBuf) :=
  ⟨⟨.getbit .input, { full with idx := 39 }, _, next_after (by decide +kernel), by decide +kernel⟩,
    ⟨.decode .input, full, _, next_after (by decide +kernel), by decide +kernel⟩,
    ⟨.decode .input, { full with plen := 9 }, _, next_after (by decide +kernel), by decide +kernel⟩,
    ⟨.hdrEnc, base, _, next_after (by decide +kernel), .inl (by decide +kernel)⟩,
    ⟨.setbit 1, { full with idx := 0 }, _, next_after (by decide +kernel), by decide +kernel⟩,
    ⟨.payDec .input, { full with pBuf := [] }, _, next_after (by decide +kernel), by decide +kernel⟩⟩

theorem witness_RequiredAndAvailableAreExact :
    (∃ (i : Instr) (s t : State), exec i s = .next t ∧ s.cap < s.clen.toNat) ∧
    (∃ s t : State, exec .copy s = .next t) ∧
    (∃ (i : Instr) (s t : State), exec i s = .next t ∧ s.clen.toNat ≤ s.cap ∧ i ≠ .copy ∧ 2 ^ 32 ≤ t.req.toNat) :=
  ⟨⟨.encode, { base with clen := 1025 }, _, next_after (by decide +kernel), by decide⟩,
    ⟨base, _, next_after (by decide +kernel)⟩,
    ⟨.payEnc, { base with idx := 0xFFFFFFFF, plen := 0xFFFFFFFF }, _, next_after (by decide +kernel), by decide,
      by decide, by decide +kernel⟩⟩

theorem witness_OnlyDataBitsOfOutChange :
    (∃ (i : Instr) (s t : State), exec i s = .next t ∧ i ≠ .copy ∧ i ≠ .encode ∧ t.outBuf ≠ s.outBuf) ∧
    (∃ (i : Instr) (s t : State) (a : Nat), exec i s = .next t ∧ (i = .copy ∨ i = .encode) ∧ t.result = .ok ∧
      a < s.clen.toNat) :=
  ⟨⟨.hdrEnc, full, _, next_after (by decide +kernel), by decide, by decide, by decide +kernel⟩,
    ⟨.encode, full, _, 39, next_after (by decide +kernel), .inr rfl, by decide +kernel, by decide⟩⟩

theorem witness_WrittenBuffersLetEveryWordComplete : ∃ (w : Word) (s : State), s.engine = some w ∧ s.engineMoves ∧
    s.written .inBuf 0 s.clen.toNat ∧ s.written .outBuf 0 s.clen.toNat ∧ s.written .pBuf 0 (s.cap / 8) :=
  ⟨8#32, { full with cap := 40, engine := some 8#32, pBuf := fill 0 5 0x41 }, rfl, .inl rfl,
    written_of_check (by decide +kernel), written_of_check (by decide +kernel), written_of_check (by decide +kernel)⟩

theorem witness_CommandsAreStateless : ∃ (i : Instr) (s t : State), exec i s = .next t ∧ t.result = .ok :=
  ⟨.decode .input, full, _, next_after (by decide +kernel), by decide +kernel⟩

theorem witness_BitAccessorLaws : ∃ (m m' n : Memory) (g w : Byte) (q : Nat), setbit m 3 1#8 = .ok m' ∧
    getbit .outBuf m 3 = .ok g ∧ setbit m' 3 w = .ok n ∧ q ≠ 3 :=
  ⟨[(3, 0x5A#8)], [(3, 0x5B#8)], [(3, 0x5A#8)], 0#8, 0#8, 4, by rfl, by rfl, by rfl, by decide⟩

theorem witness_HeaderRoundTrip : ∃ s t u : State, 32 ≤ s.clen.toNat ∧ s.clen.toNat ≤ s.cap ∧ s.written .outBuf 0 32 ∧
    exec .hdrEnc s = .next t ∧ u.outBuf = t.outBuf ∧ u.clen = s.clen ∧ u.cap = s.cap :=
  ⟨full, _, { ran .hdrEnc full with hdr := 0 }, by decide, by decide, written_of_check (by decide +kernel),
    next_after (by decide +kernel), rfl, by decide +kernel, by decide +kernel⟩

theorem witness_RawPayloadRoundTrip : ∃ s t u : State, s.idx.toNat + 8 * s.plen.toNat ≤ s.clen.toNat ∧
    s.clen.toNat ≤ s.cap ∧ s.written .pBuf 0 s.plen.toNat ∧
    s.written .outBuf s.idx.toNat (s.idx.toNat + 8 * s.plen.toNat) ∧ exec .payEnc s = .next t ∧
    u.outBuf = t.outBuf ∧ u.clen = s.clen ∧ u.cap = s.cap ∧ u.idx = s.idx ∧ u.plen = s.plen ∧ u.pBuf ≠ s.pBuf :=
  ⟨fullFF, _, { ran .payEnc fullFF with pBuf := [] }, by decide, by decide, written_of_check (by decide +kernel),
    written_of_check (by decide +kernel), next_after (by decide +kernel), rfl, by decide +kernel, by decide +kernel,
    by decide +kernel, by decide +kernel, by decide +kernel⟩

theorem witness_EncodeThenDecodeRoundTrip : ∃ (s t u : State) (p : List Byte), WellFormedUtf8 p ∧
    p.length = s.plen.toNat ∧ (∀ j b, p[j]? = some b → s.pBuf.read j = some b) ∧
    32 + 8 * s.plen.toNat ≤ s.clen.toNat ∧ s.clen.toNat ≤ s.cap ∧ s.written .inBuf 0 s.clen.toNat ∧
    exec .encode s = .next t ∧ u.outBuf = t.outBuf ∧ u.clen = s.clen ∧ u.cap = s.cap ∧ u.pBuf ≠ s.pBuf :=
  ⟨full, _, { ran .encode full with pBuf := [] }, [0x41#8], wellFormed_A, rfl,
    fun j b h => by
      cases j with
      | zero => simp_all [full]; rfl
      | succ j => simp at h,
    by decide, by decide, written_of_check (by decide +kernel), next_after (by decide +kernel), rfl,
    by decide +kernel, by decide +kernel, by decide +kernel⟩

theorem witness_EncodeIsCopyHeaderPayload : ∃ s t : State, 32 + 8 * s.plen.toNat ≤ s.clen.toNat ∧
    s.clen.toNat ≤ s.cap ∧ exec .encode s = .next t :=
  ⟨full, _, by decide, by decide, next_after (by decide +kernel)⟩

/-- LENGTH, OK and UTF8. -/
theorem witness_DecodeIsHeaderCheckPayload :
    (∃ (sel : Sel) (s t a : State), 32 ≤ s.clen.toNat ∧ s.clen.toNat ≤ s.cap ∧ exec (.decode sel) s = .next t ∧
      exec (.hdrDec sel) s = .next a ∧ s.clen.toNat < 32 + 8 * a.hdr.toNat) ∧
    (∃ (sel : Sel) (s t a : State), 32 ≤ s.clen.toNat ∧ s.clen.toNat ≤ s.cap ∧ exec (.decode sel) s = .next t ∧
      exec (.hdrDec sel) s = .next a ∧ 32 + 8 * a.hdr.toNat ≤ s.clen.toNat ∧ t.result = .ok) ∧
    (∃ (sel : Sel) (s t a : State), 32 ≤ s.clen.toNat ∧ s.clen.toNat ≤ s.cap ∧ exec (.decode sel) s = .next t ∧
      exec (.hdrDec sel) s = .next a ∧ 32 + 8 * a.hdr.toNat ≤ s.clen.toNat ∧ t.npReason = .utf8) :=
  ⟨⟨.input, { full with clen := 39 }, _, _, by decide, by decide, next_after (by decide +kernel),
      next_after (by decide +kernel), by decide +kernel⟩,
    ⟨.output, full, _, _, by decide, by decide, next_after (by decide +kernel), next_after (by decide +kernel),
      by decide +kernel, by decide +kernel⟩,
    ⟨.output, fullFF, _, _, by decide, by decide, next_after (by decide +kernel), next_after (by decide +kernel),
      by decide +kernel, by decide +kernel⟩⟩

/-- A longer carrier whose bits [7:1] and whose trailing bytes differ, with a valid payload (OK). -/
theorem witness_TrailingRegionDoesNotInterfere : ∃ (sel : Sel) (s t u : State), exec (.decode sel) s = .next t ∧
    t.result = .ok ∧ u = { s with inBuf := u.inBuf, outBuf := u.outBuf, clen := u.clen } ∧
    32 + 8 * t.hdr.toNat ≤ u.clen.toNat ∧ u.clen.toNat ≤ u.cap ∧
    (∀ a, a < 32 + 8 * t.hdr.toNat →
      ((u.cb sel).read a).map (fun v => v.getLsbD 0) = ((s.cb sel).read a).map (fun v => v.getLsbD 0)) ∧ u ≠ s :=
  ⟨.input, full, ran (.decode .input) full,
    { full with clen := 41, inBuf := (carrying 1 [0x41]).map (fun c => (c.1, c.2 ^^^ 0xFE)) ++ [(40, 0x77)] },
    next_after (by decide +kernel), by decide +kernel, rfl, by decide +kernel, by decide, by decide +kernel,
    by decide +kernel⟩

/-- The same with a payload that is not UTF-8 (reason UTF8), in OUT. -/
theorem witness_TrailingRegionDoesNotInterfere_utf8 : ∃ (sel : Sel) (s t u : State), exec (.decode sel) s = .next t ∧
    t.npReason = .utf8 ∧ u = { s with inBuf := u.inBuf, outBuf := u.outBuf, clen := u.clen } ∧
    32 + 8 * t.hdr.toNat ≤ u.clen.toNat ∧ u.clen.toNat ≤ u.cap ∧
    (∀ a, a < 32 + 8 * t.hdr.toNat →
      ((u.cb sel).read a).map (fun v => v.getLsbD 0) = ((s.cb sel).read a).map (fun v => v.getLsbD 0)) ∧ u ≠ s :=
  ⟨.output, fullFF, ran (.decode .output) fullFF,
    { fullFF with clen := 41, outBuf := (carrying 1 [0xFF]).map (fun c => (c.1, c.2 ^^^ 0xFE)) ++ [(40, 0x77)] },
    next_after (by decide +kernel), by decide +kernel, rfl, by decide +kernel, by decide, by decide +kernel,
    by decide +kernel⟩

theorem witness_DecodeTwiceReportsTheSame : ∃ (sel : Sel) (s t u : State) (j : Nat), s.clen.toNat ≤ s.cap ∧
    exec (.decode sel) s = .next t ∧ u.cb sel = t.cb sel ∧ u.clen = t.clen ∧ u.cap = t.cap ∧ u.hdr = t.hdr ∧
    t.result = .ok ∧ j < t.plen.toNat ∧ u.plen ≠ t.plen :=
  ⟨.output, full, _, { ran (.decode .output) full with plen := 0 }, 0, by decide, next_after (by decide +kernel),
    rfl, rfl, rfl, rfl, by decide +kernel, by decide +kernel, by decide +kernel⟩

theorem witness_EncodeCapacityBoundary :
    (∃ s : State, s.clen.toNat ≤ s.cap ∧ s.clen.toNat = 32 + 8 * s.plen.toNat ∧ s.written .inBuf 0 s.clen.toNat ∧
      s.written .pBuf 0 s.plen.toNat) ∧
    (∃ s : State, s.clen.toNat ≤ s.cap ∧ s.clen.toNat + 1 = 32 + 8 * s.plen.toNat) :=
  ⟨⟨full, by decide, by decide, written_of_check (by decide +kernel), written_of_check (by decide +kernel)⟩,
    ⟨{ full with clen := 39 }, by decide, by decide⟩⟩

/-! #### The host port and the steps -/

/-- The engine holds ENCODE. -/
def busyFull : State := { full with engine := some 8#32 }

theorem witness_AcceptanceCapturesTheWord : (∃ s : State, s.busy = false) ∧ (∃ s : State, s.busy = true) :=
  ⟨⟨full, rfl⟩, ⟨busyFull, rfl⟩⟩

/-- The lowest and the highest refused register, both ends of a buffer, STATUS, CTRL and a register that is neither. -/
theorem witness_BusyRefusesWrites : busyFull.busy = true ∧ busyFull.cap ≤ 2 ^ 28 ∧
    LegalAccess busyFull.cap 32 0x10 ∧ LegalAccess busyFull.cap 32 0x20 ∧ LegalAccess busyFull.cap 8 0x10000000 ∧
    LegalAccess busyFull.cap 8 0x3000007F ∧ LegalAccess busyFull.cap 32 0x0C ∧ LegalAccess busyFull.cap 32 0x08 ∧
    LegalAccess busyFull.cap 32 0x00 ∧ LegalAccess busyFull.cap 32 0xFFC :=
  ⟨rfl, by decide, .inl (by decide), .inl (by decide), .inr ⟨0x10000000, 1024, by decide, by decide, by decide, .inl rfl⟩,
    .inr ⟨0x30000000, 128, by decide, by decide, by decide, .inl rfl⟩, .inl (by decide), .inl (by decide),
    .inl (by decide), .inl (by decide)⟩

theorem witness_BusyReadsTellNothing : (∃ s : State, s.busy = true ∧ s.cap = 1024 ∧ s.draws = 0) ∧
    LegalAccess 1024 32 0x18 ∧ LegalAccess 1024 32 0x30 ∧ LegalAccess 1024 8 0x20000000 ∧
    LegalAccess 1024 32 0x3000007C :=
  ⟨⟨busyFull, rfl, rfl, rfl⟩, .inl (by decide), .inl (by decide),
    .inr ⟨0x20000000, 1024, by decide, by decide, by decide, .inl rfl⟩,
    .inr ⟨0x30000000, 128, by decide, by decide, by decide, .inr (by decide)⟩⟩

/-- Offsets 0 and 0xFFC, idle; STATUS and the highest register a busy block answers. -/
theorem witness_RegisterReadsAnswer :
    [(full, 0x00), (full, 0x30), (full, 0x34), (full, 0xFFC), (busyFull, 0x0C), (busyFull, 0x34)].all (fun p =>
      decide (p.2 < 0x1000) && p.2 % 4 == 0 && (!p.1.busy || !(List.contains [0x18, 0x1C, 0x24, 0x28, 0x2C, 0x30] p.2))) = true := by
  decide

theorem witness_RegisterWritesTakeEffect : ∃ (s : State) (offset : Nat), s.busy = false ∧ offset < 0x1000 ∧
    offset % 4 = 0 ∧ offset ∉ [0x08, 0x0C, 0x10, 0x14, 0x18, 0x1C, 0x20] :=
  ⟨full, 0xFFC, rfl, by decide, by decide, by decide⟩

/-- A register written with 8 bits, the byte after IN, a word across the end of PBUF; and legal ones. -/
theorem witness_IllegalAccessesAreAnsweredErr : full.cap ≤ 2 ^ 28 ∧ ¬ LegalAccess full.cap 8 0x14 ∧
    ¬ LegalAccess full.cap 8 0x10000400 ∧ ¬ LegalAccess full.cap 32 0x3000007E ∧ LegalAccess full.cap 32 0x14 ∧
    (∃ t, hostAccess (.read 8 0x100003FF#32) { full with inBuf := [(1023, 1)] } = .next t ∧
      LegalAccess full.cap 8 0x100003FF) := by
  refine ⟨by decide, ?_, ?_, ?_, .inl (by decide), _, next_after (by decide +kernel),
    .inr ⟨0x10000000, 1024, by decide, by decide, by decide, .inl rfl⟩⟩ <;>
  · rintro (h | ⟨base, size, hm, h⟩)
    · simp at h
    · simp only [List.mem_cons, List.not_mem_nil, or_false, Prod.mk.injEq, show full.cap = 1024 from rfl] at hm
      rcases hm with ⟨rfl, rfl⟩ | ⟨rfl, rfl⟩ | ⟨rfl, rfl⟩ <;> omega

/-- The last byte and the last word of a buffer: of OUT and PBUF while idle, of IN while the engine holds ENCODE. -/
theorem witness_BufferAccessesUseLittleEndianLanes :
    (∃ s : State, s.cap ≤ 2 ^ 28 ∧ s.busy = false ∧ 127 < s.bufSize .pBuf ∧ 1020 % 4 = 0 ∧
      1020 + 3 < s.bufSize .outBuf ∧ s.outBuf.read 1023 = some 0x44#8 ∧
      (∀ n, n < 4 → s.outBuf.read (1020 + n) = some ((0x44332211#32).extractLsb' (8 * n) 8))) ∧
    (∃ s : State, s.cap ≤ 2 ^ 28 ∧ s.busy = true ∧ 1020 % 4 = 0 ∧ 1020 + 3 < s.bufSize .inBuf ∧
      s.inBuf.read 1023 = some 0x44#8 ∧
      (∀ n, n < 4 → s.inBuf.read (1020 + n) = some ((0x44332211#32).extractLsb' (8 * n) 8))) :=
  ⟨⟨{ base with outBuf := bytesFrom 1020 [0x11, 0x22, 0x33, 0x44] }, by decide, rfl, by decide, by decide, by decide,
      by decide +kernel, by decide +kernel⟩,
    ⟨{ busyFull with inBuf := bytesFrom 1020 [0x11, 0x22, 0x33, 0x44] }, by decide, rfl, by decide, by decide,
      by decide +kernel, by decide +kernel⟩⟩

theorem witness_HostReadOfUnwrittenByteFaults :
    (∃ (s : State) (b : Buf), s.cap ≤ 2 ^ 28 ∧ s.busy = false ∧ 127 < s.bufSize b ∧ (s.buffer b).read 127 = none ∧
      (127 - 3) % 4 = 0 ∧ 127 - 3 + 3 < s.bufSize b) ∧
    (∃ s : State, s.cap ≤ 2 ^ 28 ∧ s.busy = true ∧ 1023 < s.bufSize .inBuf ∧ (s.buffer .inBuf).read 1023 = none) :=
  ⟨⟨base, .pBuf, by decide, rfl, by decide, rfl, by decide, by decide⟩,
    ⟨busyFull, by decide, rfl, by decide, by decide +kernel⟩⟩

theorem witness_HostReadsHaveNoSideEffect : ∃ (s t : State), hostAccess (.read 32 0x0C#32) s = .next t ∧ s.busy = false :=
  ⟨full, _, next_after (by decide +kernel), rfl⟩

theorem witness_StepRunsTheCapturedCommand :
    (∃ (s : State) (w : Word) (i : Instr), s.engine = some w ∧ decode w = .ok i ∧ s.inputs = []) ∧
    (∃ (s : State) (w : Word) (i : Instr) (rest : List Input), s.engine = some w ∧ decode w = .ok i ∧
      s.inputs = .quiet :: rest) ∧
    (∃ (s : State) (a : Access) (rest : List Input), s.inputs = .access a :: rest) ∧
    (∃ s : State, s.engine = none ∧ s.engineMoves) :=
  ⟨⟨busyFull, 8#32, .encode, rfl, by decide, rfl⟩,
    ⟨{ busyFull with inputs := [.quiet] }, 8#32, .encode, [], rfl, by decide, rfl⟩,
    ⟨{ full with inputs := [.access (.read 32 0#32)] }, _, [], rfl⟩, ⟨full, rfl, .inl rfl⟩⟩

theorem witness_ResetInputDropsTheCommand : ∃ (s : State) (rest : List Input), s.inputs = .reset :: rest ∧ s.busy = true :=
  ⟨{ busyFull with inputs := [.reset] }, [], rfl, rfl⟩

theorem full_Inv : busyFull.Inv := by
  constructor <;> decide +kernel

theorem witness_EveryStepKeepsTheInvariant : ∃ s t : State, s.Inv ∧ step s = .next t ∧ t ≠ s :=
  ⟨busyFull, _, full_Inv, next_after (by decide +kernel), by decide +kernel⟩

theorem witness_BusyRisesAndFalls : (∃ s t : State, step s = .next t ∧ s.busy = false ∧ t.busy = true) ∧
    (∃ s t : State, step s = .next t ∧ s.busy = true ∧ t.busy = false) :=
  ⟨⟨{ full with inputs := [hostCmd .copy] }, _, next_after (by decide +kernel), rfl, by decide +kernel⟩,
    ⟨busyFull, _, next_after (by decide +kernel), rfl, by decide +kernel⟩⟩

/-- The engine's turn, reset, a CMD write, a STATUS write that clears DONE, and an access that is neither. -/
theorem witness_DoneFollowsItsRule :
    (∃ s t : State, step s = .next t ∧ s.engineMoves) ∧
    (∃ (s t : State) (rest : List Input), step s = .next t ∧ s.inputs = .reset :: rest) ∧
    (∃ (s t : State) (a : Access) (rest : List Input) (w : Word), step s = .next t ∧ s.inputs = .access a :: rest ∧
      a.WritesReg 0x10 w) ∧
    (∃ (s t : State) (a : Access) (rest : List Input) (w : Word), step s = .next t ∧ s.inputs = .access a :: rest ∧
      a.WritesReg 0x0C w ∧ s.done = true ∧ t.done = false) ∧
    (∃ (s t : State) (a : Access) (rest : List Input), step s = .next t ∧ s.inputs = .access a :: rest ∧
      ∀ w, ¬ a.WritesReg 0x10 w ∧ ¬ a.WritesReg 0x0C w) :=
  ⟨⟨busyFull, _, next_after (by decide +kernel), .inl rfl⟩,
    ⟨{ busyFull with inputs := [.reset] }, _, [], next_after (by decide +kernel), rfl⟩,
    ⟨{ busyFull with inputs := [.access (.write 32 0x10#32 7#32)] }, _, _, [], 7#32, next_after (by decide +kernel), rfl, rfl⟩,
    ⟨{ full with done := true, inputs := [.access (.write 32 0x0C#32 2#32)] }, _, _, [], 2#32,
      next_after (by decide +kernel), rfl, rfl, rfl, by decide +kernel⟩,
    ⟨{ full with inputs := [.access (.read 32 0x10#32)] }, _, _, [], next_after (by decide +kernel), rfl,
      fun w => ⟨nofun, nofun⟩⟩⟩

/-- The engine's turn, reset, a STATUS write, a refused write, an idle write and a busy read. -/
theorem witness_OverrunIsSticky :
    (∃ s t : State, s.cap ≤ 2 ^ 28 ∧ step s = .next t ∧ s.engineMoves ∧ s.overrun = true) ∧
    (∃ (s t : State) (rest : List Input), s.cap ≤ 2 ^ 28 ∧ step s = .next t ∧ s.inputs = .reset :: rest) ∧
    (∃ (s t : State) (a : Access) (rest : List Input) (w : Word), s.cap ≤ 2 ^ 28 ∧ step s = .next t ∧
      s.inputs = .access a :: rest ∧ a.WritesReg 0x0C w) ∧
    (∃ (s t : State) (a : Access) (rest : List Input), s.cap ≤ 2 ^ 28 ∧ step s = .next t ∧
      s.inputs = .access a :: rest ∧ s.busy = true ∧ a.Refusable s.cap) ∧
    (∃ (s t : State) (a : Access) (rest : List Input), s.cap ≤ 2 ^ 28 ∧ step s = .next t ∧
      s.inputs = .access a :: rest ∧ s.busy = false ∧ ∀ w, ¬ a.WritesReg 0x0C w) ∧
    (∃ (s t : State) (a : Access) (rest : List Input), s.cap ≤ 2 ^ 28 ∧ step s = .next t ∧
      s.inputs = .access a :: rest ∧ s.busy = true ∧ ¬ a.Refusable s.cap ∧ ∀ w, ¬ a.WritesReg 0x0C w) :=
  ⟨⟨{ busyFull with overrun := true }, _, by decide, next_after (by decide +kernel), .inl rfl, rfl⟩,
    ⟨{ busyFull with inputs := [.reset] }, _, [], by decide, next_after (by decide +kernel), rfl⟩,
    ⟨{ full with inputs := [.access (.write 32 0x0C#32 4#32)] }, _, _, [], 4#32, by decide, next_after (by decide +kernel),
      rfl, rfl⟩,
    ⟨{ busyFull with inputs := [.access (.write 32 0x10#32 7#32)] }, _, _, [], by decide, next_after (by decide +kernel),
      rfl, rfl, 32, 0x10#32, 7#32, rfl, .inl (by decide), .inl (by decide)⟩,
    ⟨{ full with inputs := [.access (.write 32 0x14#32 7#32)] }, _, _, [], by decide, next_after (by decide +kernel),
      rfl, rfl, fun w h => by simp [Access.WritesReg] at h⟩,
    ⟨{ busyFull with inputs := [.access (.read 32 0x14#32)] }, _, _, [], by decide, next_after (by decide +kernel),
      rfl, rfl, nofun, nofun⟩⟩

/-- A reset, and a step that changes each of IN, CLEN, IDX and IE. -/
theorem witness_OnlyTheHostChangesInputs :
    (∃ (s t : State) (rest : List Input), step s = .next t ∧ s.inputs = .reset :: rest) ∧
    (∃ s t : State, step s = .next t ∧ (∀ rest, s.inputs ≠ .reset :: rest) ∧ t.inBuf ≠ s.inBuf) ∧
    (∃ s t : State, step s = .next t ∧ (∀ rest, s.inputs ≠ .reset :: rest) ∧ t.clen ≠ s.clen) ∧
    (∃ s t : State, step s = .next t ∧ (∀ rest, s.inputs ≠ .reset :: rest) ∧ t.idx ≠ s.idx) ∧
    (∃ s t : State, step s = .next t ∧ (∀ rest, s.inputs ≠ .reset :: rest) ∧ t.ie ≠ s.ie) :=
  ⟨⟨{ busyFull with inputs := [.reset] }, _, [], next_after (by decide +kernel), rfl⟩,
    ⟨{ base with inputs := [hostWB .inBuf 0 7] }, _, next_after (by decide +kernel), nofun, by decide +kernel⟩,
    ⟨{ base with inputs := [hostWR .clen 7] }, _, next_after (by decide +kernel), nofun, by decide +kernel⟩,
    ⟨{ base with inputs := [hostWR .idx 7] }, _, next_after (by decide +kernel), nofun, by decide +kernel⟩,
    ⟨{ base with inputs := [hostWR .ctrl 1] }, _, next_after (by decide +kernel), nofun, by decide +kernel⟩⟩

theorem witness_InterruptFollowsCompletion :
    (∃ (w : Word) (s t : State), runWord w s = .next t ∧ t.irq = true) ∧
    (∃ (w : Word) (s : State), s.busy = false ∧ s.irq = true ∧ w.getLsbD 1 = true) :=
  ⟨⟨7#32, { base with ie := true }, _, next_after (by decide +kernel), by decide +kernel⟩,
    ⟨2#32, { base with ie := true, done := true }, rfl, rfl, by decide⟩⟩

theorem witness_BothOrdersOfAWriteAndACompletion : ∃ (s t : State) (w : Word) (i : Instr), s.engine = some w ∧
    decode w = .ok i ∧ exec i { s with inputs := [] } = .next t :=
  ⟨busyFull, _, 8#32, .encode, rfl, by decide, next_after (by decide +kernel)⟩

end Sys2Proof.Tests
end

section
/-! PROOFS. The state of the block (10_state.md): the state after reset, and the buffers that commands leave alone. -/

namespace Sys2Proof.Machine

/-! ### The state after reset -/

/-- CAP's range (R7, D3), which the bound of `Config.capAboveMin` carries. -/
theorem configCap_range : 32 ≤ Config.cap ∧ Config.cap ≤ 2 ^ 28 := by
  have hlt := Config.capAboveMin.isLt
  unfold Config.cap
  omega

@[simp] theorem reset_read (b : Buf) (a : Nat) : (State.reset.buffer b).read a = none := by
  cases b <;> rfl

/-- Every register but the two constants ID and CAPR reads 0 after reset; PCAPACITY does because CLEN is 0 (R33). -/
theorem reset_regValue {r : Reg} (hid : r ≠ .id) (hcapr : r ≠ .capr) : State.reset.regValue r = 0#32 := by
  cases r with
  | id => exact absurd rfl hid
  | capr => exact absurd rfl hcapr
  | ctrl | status | cmd | clen | plen | hdr | idx | bitv | reqLo | reqHi | avail | pcapacity | reserved => rfl

/-- Settles O47, from the value of each register after reset and the range of CAP. -/
theorem resetStateReads : Obligations.ResetStateReads := by
  unfold Obligations.ResetStateReads
  refine ⟨rfl, rfl, fun r hr => ?_, reset_read, rfl, rfl, configCap_range⟩
  exact reset_regValue (by rintro rfl; simp at hr) (by rintro rfl; simp at hr)

/-! ### The buffers a command leaves alone -/

@[simp] theorem State.endMisuse_inBuf (m : Misuse) (op : BitVec 4) (s : State) : (s.endMisuse m op).inBuf = s.inBuf :=
  rfl

@[simp] theorem State.endMisuse_outBuf (m : Misuse) (op : BitVec 4) (s : State) :
    (s.endMisuse m op).outBuf = s.outBuf := rfl

/-- No end of a command replaces IN (R45): the updates are of OUT, PBUF and registers. -/
theorem CommandEnds.inBuf_eq {i : Instr} {s t : State} (h : CommandEnds s i t) : t.inBuf = s.inBuf := by
  cases h <;> simp

/-- No end of DECODE replaces OUT (R45), whichever carrier it reads. -/
theorem CommandEnds.decode_outBuf_eq {sel : Sel} {s t : State} (h : CommandEnds s (.decode sel) t) :
    t.outBuf = s.outBuf := by
  cases h with
  | badLength => exact State.endMisuse_outBuf ..
  | decodeShort | decodeLength | decode | decodeUtf8 => simp

/-- Settles O19, by the list of the ways a command can end. -/
theorem noCommandWritesIn : Obligations.NoCommandWritesIn := by
  unfold Obligations.NoCommandWritesIn
  intro i s t h
  have hends : CommandEnds s i t := exec_ends h
  refine ⟨hends.inBuf_eq, ?_⟩
  rintro sel rfl
  exact hends.decode_outBuf_eq

end Sys2Proof.Machine
end

section
/-! PROOFS. Encoding (30_encoding.md): the checks of a command word, the rows of the opcode table by their OP, and the
completion of an illegal word. -/

namespace Sys2Proof

/-! ### The checks of a command word -/

theorem CmdFields.reservedClear_iff (f : CmdFields) : f.reservedClear = true ↔ f.rsv0 = 0#3 ∧ f.rsv1 = 0#16 := by
  simp [CmdFields.reservedClear]

theorem CmdFields.opLegal_iff (f : CmdFields) : f.opLegal = true ↔ 1 ≤ f.op.toNat ∧ f.op.toNat ≤ 9 := by
  simp [CmdFields.opLegal]

theorem CmdFields.takesSel_iff (f : CmdFields) : f.takesSel = true ↔ f.op.toNat ∈ [2, 4, 6, 9] := by
  simp [CmdFields.takesSel, BitVec.toNat_eq, or_assoc]

theorem CmdFields.selLegal_iff (f : CmdFields) : f.selLegal = true ↔ f.sel = 0#1 ∨ f.takesSel = true := by
  simp [CmdFields.selLegal]

theorem CmdFields.valLegal_iff (f : CmdFields) : f.valLegal = true ↔ f.val = 0#8 ∨ f.op = 1#4 := by
  simp [CmdFields.valLegal]

/-! ### The decoder -/

/-- The command that fields spell has the fields' OP (R92). -/
theorem CmdFields.op_of_instr {f : CmdFields} {i : Instr} (h : f.instr = .ok i) : i.op = f.op := by
  unfold CmdFields.instr at h
  split at h <;> cases h <;> exact BitVec.eq_of_toNat_eq (Eq.symm ‹_›)

theorem CmdFields.instr_ok_of_opLegal {f : CmdFields} (h : f.opLegal = true) : ∃ i, f.instr = .ok i := by
  obtain ⟨hlo, hhi⟩ := f.opLegal_iff.1 h
  unfold CmdFields.instr
  interval_cases f.op.toNat <;> exact ⟨_, rfl⟩

theorem decode_ok {w : Word} {i : Instr} (h : decode w = .ok i) :
    (CmdFields.ofWord w).error? = none ∧ (CmdFields.ofWord w).instr = .ok i := by
  unfold decode at h
  split at h
  · cases h
  · exact ⟨‹_›, h⟩

/-- A word is legal exactly when its fields pass every check (R97). -/
theorem exists_decode_ok_iff (w : Word) : (∃ i, decode w = .ok i) ↔ (CmdFields.ofWord w).error? = none := by
  refine ⟨fun ⟨i, h⟩ => (decode_ok h).1, fun h => ?_⟩
  obtain ⟨-, hop, -, -⟩ := (CmdFields.error?_none _).1 h
  obtain ⟨i, hi⟩ := CmdFields.instr_ok_of_opLegal hop
  exact ⟨i, by rw [decode, h]; exact hi⟩

theorem exists_decode_error_iff (w : Word) : (∃ e, decode w = .error e) ↔ (CmdFields.ofWord w).error? ≠ none := by
  rw [Ne, ← exists_decode_ok_iff]
  cases decode w <;> simp

/-! ### The rows of the opcode table -/

/-- OP of a row's match. -/
def OpcodeRow.op (r : OpcodeRow) : BitVec 4 := r.wordMatch.extractLsb' 0 4

/-- The bits a command with the OP of `f` fixes (R93 to R95): all but SEL where it takes SEL, and all but VAL in
SETBIT. -/
def CmdFields.fixedBits (f : CmdFields) : CmdFields :=
  { op := BitVec.allOnes 4, sel := if f.takesSel then 0#1 else BitVec.allOnes 1, rsv0 := BitVec.allOnes 3,
    val := if f.op = 1#4 then 0#8 else BitVec.allOnes 8, rsv1 := BitVec.allOnes 16 }

/-- The bitwise and of two command words' fields. -/
def CmdFields.and (f g : CmdFields) : CmdFields :=
  { op := f.op &&& g.op, sel := f.sel &&& g.sel, rsv0 := f.rsv0 &&& g.rsv0, val := f.val &&& g.val,
    rsv1 := f.rsv1 &&& g.rsv1 }

theorem CmdFields.ofWord_and (w v : Word) :
    CmdFields.ofWord (w &&& v) = (CmdFields.ofWord w).and (CmdFields.ofWord v) := by
  simp [CmdFields.ofWord, CmdFields.and, BitVec.extractLsb'_and]

theorem CmdFields.ofWord_inj {w v : Word} : CmdFields.ofWord w = CmdFields.ofWord v ↔ w = v :=
  ⟨fun h => by rw [← CmdFields.word_ofWord w, h, CmdFields.word_ofWord], congrArg _⟩

/-- The fields in which only OP is set. -/
def CmdFields.bare (op : BitVec 4) : CmdFields := { op := op, sel := 0#1, rsv0 := 0#3, val := 0#8, rsv1 := 0#16 }

/-- Every row of the table has a legal OP alone as its match, and the bits fixed for that OP as its mask (R96). -/
theorem opcodeTable_rows : ∀ r ∈ opcodeTable, (CmdFields.bare r.op).opLegal = true ∧
    CmdFields.ofWord r.wordMatch = .bare r.op ∧ CmdFields.ofWord r.wordMask = (CmdFields.bare r.op).fixedBits := by
  decide

theorem CmdFields.sel_and_fixedBits (f : CmdFields) : f.sel &&& f.fixedBits.sel = 0#1 ↔ f.selLegal = true := by
  change f.sel &&& (if f.takesSel then 0#1 else BitVec.allOnes 1) = 0#1 ↔ _
  rw [CmdFields.selLegal_iff]
  split_ifs with h
  · simp [h]
  · rw [BitVec.and_allOnes, or_iff_left h]

theorem CmdFields.val_and_fixedBits (f : CmdFields) : f.val &&& f.fixedBits.val = 0#8 ↔ f.valLegal = true := by
  change f.val &&& (if f.op = 1#4 then 0#8 else BitVec.allOnes 8) = 0#8 ↔ _
  rw [CmdFields.valLegal_iff]
  split_ifs with h
  · simp [h]
  · rw [BitVec.and_allOnes, or_iff_left h]

theorem CmdFields.and_fixedBits (f : CmdFields) :
    f.and f.fixedBits = ⟨f.op, f.sel &&& f.fixedBits.sel, f.rsv0, f.val &&& f.fixedBits.val, f.rsv1⟩ := by
  simp only [CmdFields.and, fixedBits, BitVec.and_allOnes]

/-- Fields show a legal OP alone among the bits fixed for it exactly when they have that OP and pass every check. -/
theorem CmdFields.and_fixedBits_eq_bare_iff (f : CmdFields) {op : BitVec 4} (h : (bare op).opLegal = true) :
    f.and (bare op).fixedBits = bare op ↔ f.error? = none ∧ f.op = op := by
  by_cases hop : f.op = op
  · subst hop
    have hfixed : (bare f.op).fixedBits = f.fixedBits := rfl
    have hlegal : f.opLegal = true := h
    rw [hfixed, and_fixedBits, bare, CmdFields.mk.injEq, sel_and_fixedBits, val_and_fixedBits, error?_none,
      reservedClear_iff]
    tauto
  · have hne : f.and (bare op).fixedBits ≠ bare op := fun he =>
      hop ((BitVec.and_allOnes (x := f.op)).symm.trans (congrArg CmdFields.op he))
    exact iff_of_false hne fun he => hop he.2

/-- A row of the table accepts a word exactly when the word passes every check and has the row's OP (R96). -/
theorem OpcodeRow.accepts_iff {r : OpcodeRow} (hr : r ∈ opcodeTable) (w : Word) :
    r.accepts w = true ↔ (CmdFields.ofWord w).error? = none ∧ (CmdFields.ofWord w).op = r.op := by
  obtain ⟨hop, hmatch, hmask⟩ := opcodeTable_rows r hr
  rw [OpcodeRow.accepts, beq_iff_eq, ← CmdFields.ofWord_inj, CmdFields.ofWord_and, hmatch, hmask]
  exact CmdFields.and_fixedBits_eq_bare_iff _ hop

/-- The rows that accept a legal word are the rows with its OP. -/
theorem filter_accepts_of_legal {w : Word} (h : (CmdFields.ofWord w).error? = none) :
    opcodeTable.filter (fun r => r.accepts w) = opcodeTable.filter (fun r => r.op == (CmdFields.ofWord w).op) :=
  List.filter_congr fun r hr => by
    rw [Bool.eq_iff_iff, OpcodeRow.accepts_iff hr, beq_iff_eq, eq_comm (a := r.op)]
    exact and_iff_right h

theorem filter_accepts_of_illegal {w : Word} (h : (CmdFields.ofWord w).error? ≠ none) :
    opcodeTable.filter (fun r => r.accepts w) = [] :=
  List.filter_eq_nil_iff.2 fun _ hr hacc => h ((OpcodeRow.accepts_iff hr w).1 hacc).1

/-- The table has one row for the OP of each command, and it bears the command's name (R92, R96). -/
theorem mnemonics_with_op (i : Instr) :
    (opcodeTable.filter (fun r => r.op == i.op)).map (fun r => r.mnemonic) = [i.mnemonic] := by
  cases i <;> rfl

/-- The rows that accept a word bear one name, that of the command it decodes to. -/
theorem mnemonics_of_decode_ok {w : Word} {i : Instr} (h : decode w = .ok i) :
    (opcodeTable.filter (fun r => r.accepts w)).map (fun r => r.mnemonic) = [i.mnemonic] := by
  obtain ⟨hlegal, hinstr⟩ := decode_ok h
  rw [filter_accepts_of_legal hlegal, ← CmdFields.op_of_instr hinstr]
  exact mnemonics_with_op i

/-- One row accepts a legal word, and none an illegal one. -/
theorem length_filter_accepts (w : Word) :
    (opcodeTable.filter (fun r => r.accepts w)).length = if (CmdFields.ofWord w).error? = none then 1 else 0 := by
  split_ifs with h
  · obtain ⟨i, hi⟩ := (exists_decode_ok_iff w).2 h
    simpa using congrArg List.length (mnemonics_of_decode_ok hi)
  · rw [filter_accepts_of_illegal h, List.length_nil]

/-- Settles O2: a row accepts the legal words that have its OP, and the table has one row for each OP. -/
theorem legalWordsMatchOneRow : Obligations.LegalWordsMatchOneRow := by
  unfold Obligations.LegalWordsMatchOneRow
  refine ⟨fun w => ?_, fun w => ?_, fun _ _ => mnemonics_of_decode_ok⟩
  · rw [exists_decode_ok_iff, length_filter_accepts]
    simp
  · rw [length_filter_accepts]
    split_ifs <;> decide

/-! ### The words that are illegal -/

/-- The causes of an illegal word (R97): the failure of each check, field by field. -/
theorem CmdFields.error?_ne_none_iff (f : CmdFields) : f.error? ≠ none ↔
    f.op.toNat = 0 ∨ 10 ≤ f.op.toNat ∨ f.rsv0 ≠ 0#3 ∨ f.rsv1 ≠ 0#16 ∨
      (f.sel = 1#1 ∧ f.op.toNat ∉ [2, 4, 6, 9]) ∨ (f.val ≠ 0#8 ∧ f.op.toNat ≠ 1) := by
  have hsel : f.sel ≠ 0#1 ↔ f.sel = 1#1 := by
    rcases f.sel.eq_zero_or_eq_one with h | h <;> simp [h]
  have hop : f.op = 1#4 ↔ f.op.toNat = 1 := BitVec.toNat_eq
  have hrange : ¬ (1 ≤ f.op.toNat ∧ f.op.toNat ≤ 9) ↔ f.op.toNat = 0 ∨ 10 ≤ f.op.toNat := by omega
  rw [Ne, error?_none, reservedClear_iff, opLegal_iff, selLegal_iff, takesSel_iff, valLegal_iff, hop, ← hsel]
  tauto

end Sys2Proof

namespace Sys2Proof.Machine

/-! ### A command written to an idle block -/

theorem State.busy_false_iff (s : State) : s.busy = false ↔ s.engine = none := by
  simp [State.busy]

theorem step_access {s : State} {a : Access} {rest : List Input} (h : s.inputs = .access a :: rest) :
    step s = hostAccess a { s with inputs := rest } := by
  simp [step, move, h]

theorem step_no_inputs {s : State} (h : s.inputs = []) : step s = engineTurn s := by
  simp [step, move, h]

/-- A write to CMD while BUSY = 0 is answered OK and accepted (R200). -/
theorem access_write_cmd_idle {s : State} (h : s.engine = none) (w : Word) :
    hostAccess (.write 32 0x10#32 w) s = .next ((s.accept w).respond .written) := by
  rw [access_write_reg (by decide) (.inl (by decide))]
  exact congrArg (fun t : State => Host.Outcome.next (t.respond .written)) (unlessBusy_false (s.busy_false_iff.2 h) _)

/-- The engine's turn completes an illegal word with ILLEGAL_CMD (R201). -/
theorem engineTurn_illegal {w : Word} {e : DecodeError} {s : State} (hw : s.engine = some w)
    (h : decode w = .error e) : engineTurn s = .next (s.endMisuse (.illegalCmd w) (w.extractLsb' 0 4)) := by
  rw [engineTurn_some hw, runWord_error h]

/-- Settles O3: the causes are the checks of the decoder, and the two steps are the acceptance and the engine's turn. -/
theorem illegalWordsCompleteAtOnce : Obligations.IllegalWordsCompleteAtOnce := by
  unfold Obligations.IllegalWordsCompleteAtOnce
  refine ⟨fun w => (exists_decode_error_iff w).trans (CmdFields.error?_ne_none_iff _), ?_⟩
  rintro w s ⟨e, he⟩ hidle hin
  refine ⟨State.respond .written (State.accept w { s with inputs := [] }), .illegalCmd w :: s.misuse, ?_, rfl, ?_⟩
  · rw [step_access hin]
    exact access_write_cmd_idle (s := { s with inputs := [] }) hidle w
  · rw [step_no_inputs rfl, engineTurn_illegal rfl he]
    rfl

end Sys2Proof.Machine
end

section
/-! PROOFS. The LSB bit accessor (40_bit_accessor.md): the words of SETBIT and GETBIT, and the ends of each command. -/

namespace Sys2Proof

/-! ### Decoding by the opcode table -/

/-- A word that matches a row of the table decodes to the command its fields spell, which has the row's OP (R96). -/
theorem decode_of_matches_row {r : OpcodeRow} (hr : r ∈ opcodeTable) {w : Word} (h : w &&& r.wordMask = r.wordMatch) :
    decode w = (CmdFields.ofWord w).instr ∧ (CmdFields.ofWord w).op = r.op := by
  obtain ⟨hlegal, hop⟩ := (OpcodeRow.accepts_iff hr w).1 (beq_iff_eq.2 h)
  exact ⟨by rw [decode, hlegal], hop⟩

theorem CmdFields.instr_of_op_setbit {f : CmdFields} (h : f.op = 0x1#4) : f.instr = .ok (.setbit f.val) := by
  simp [CmdFields.instr, h]

theorem CmdFields.instr_of_op_getbit {f : CmdFields} (h : f.op = 0x2#4) :
    f.instr = .ok (.getbit (Sel.ofBit f.sel)) := by
  simp [CmdFields.instr, h]

theorem Sel.ofBit_eq (b : BitVec 1) : Sel.ofBit b = if b.getLsbD 0 then .output else .input := by
  rcases b.eq_zero_or_eq_one with rfl | rfl <;> rfl

/-- The SEL of a command word is its bit 4 (R91, R93). -/
theorem Sel.ofBit_ofWord_sel (w : Word) :
    Sel.ofBit (CmdFields.ofWord w).sel = if w.getLsbD 4 then .output else .input := by
  have hbit : (CmdFields.ofWord w).sel.getLsbD 0 = w.getLsbD 4 := by simp [CmdFields.ofWord]
  rw [Sel.ofBit_eq, hbit]

/-- The words `0x0000vv01` are SETBIT's (R112). -/
theorem decode_setbit_word {w : Word} (h : w &&& 0xFFFF00FF#32 = 0x00000001#32) :
    decode w = .ok (.setbit (w.extractLsb' 8 8)) := by
  obtain ⟨hdec, hop⟩ := decode_of_matches_row (r := opcodeTable[0]) (by decide) h
  rw [hdec, CmdFields.instr_of_op_setbit hop]
  rfl

/-- The words `0x00000002` and `0x00000012` are GETBIT's (R113). -/
theorem decode_getbit_word {w : Word} (h : w &&& 0xFFFFFFEF#32 = 0x00000002#32) :
    decode w = .ok (.getbit (if w.getLsbD 4 then .output else .input)) := by
  obtain ⟨hdec, hop⟩ := decode_of_matches_row (r := opcodeTable[1]) (by decide) h
  rw [hdec, CmdFields.instr_of_op_getbit hop, Sel.ofBit_ofWord_sel]

end Sys2Proof

namespace Sys2Proof.Machine

/-! ### SETBIT -/

theorem exec_setbit (val : Byte) (s : State) : exec (.setbit val) s = execSetbit val s := rfl

/-- Only bit 0 of the byte written counts (R71, R94). -/
theorem withLsb_and_one (old v : Byte) : withLsb old (v &&& 1#8) = withLsb old v := by
  simp [withLsb, BitVec.and_assoc]

theorem execSetbit_unwritten {val : Byte} {s : State} (hc : s.clen.toNat ≤ s.cap) (h : s.idx.toNat < s.clen.toNat)
    (hr : s.outBuf.read s.idx.toNat = none) :
    execSetbit val s = .fault (.uninitRead .outBuf s.idx.toNat) := by
  rw [execSetbit_run hc h, setbit_error.2 ⟨hr, rfl⟩, onOk_error]

/-- Settles O5, by the three ends of SETBIT: the index range, the bit written, the byte unwritten. -/
theorem setbitWritesOneDataBit : Obligations.SetbitWritesOneDataBit := by
  unfold Obligations.SetbitWritesOneDataBit
  refine ⟨fun _ => decode_setbit_word, fun val s hc => ?_⟩
  rw [exec_setbit]
  refine ⟨fun hrange => ⟨_, execSetbit_range hc hrange⟩, fun hidx old hold => ?_, execSetbit_unwritten hc⟩
  refine ⟨_, execSetbit_ok hc hidx (setbit_ok.2 ⟨old, hold, rfl⟩), rfl, fun a => ?_⟩
  rw [State.complete_outBuf, State.report_outBuf, Memory.read_write, withLsb_and_one, withLsb]

/-! ### GETBIT -/

theorem exec_getbit (sel : Sel) (s : State) : exec (.getbit sel) s = execGetbit sel s := rfl

/-- BITV takes bit 0 of the carrier byte (R38, R113). -/
theorem setWidth_and_one (v : Byte) : (v &&& 1#8).setWidth 1 = BitVec.ofBool (v.getLsbD 0) := by
  refine BitVec.eq_of_getLsbD_eq fun i hi => ?_
  obtain rfl : i = 0 := by omega
  simp

theorem execGetbit_read {sel : Sel} {s : State} {v : Byte} (hc : s.clen.toNat ≤ s.cap)
    (h : s.idx.toNat < s.clen.toNat) (hr : (s.cb sel).read s.idx.toNat = some v) :
    execGetbit sel s = .next (State.complete .ok .none 0x2#4
      (State.report (s.idx.toNat + 1) { s with bitv := BitVec.ofBool (v.getLsbD 0) })) := by
  rw [← buffer_carrier] at hr
  rw [execGetbit_ok hc h (getbit_ok.2 ⟨v, hr, rfl⟩), setWidth_and_one]

theorem execGetbit_unwritten {sel : Sel} {s : State} (hc : s.clen.toNat ≤ s.cap) (h : s.idx.toNat < s.clen.toNat)
    (hr : (s.cb sel).read s.idx.toNat = none) :
    execGetbit sel s = .fault (.uninitRead (cbBuf sel) s.idx.toNat) := by
  rw [← buffer_carrier] at hr
  rw [execGetbit_run hc h, getbit_error.2 ⟨hr, rfl⟩, onOk_error, carrier_eq_cbBuf]

/-- Settles O6, by the three ends of GETBIT: the index range, the bit read, the byte unwritten. -/
theorem getbitReadsOneDataBit : Obligations.GetbitReadsOneDataBit := by
  unfold Obligations.GetbitReadsOneDataBit
  refine ⟨fun _ => decode_getbit_word, fun sel s hc => ?_⟩
  rw [exec_getbit]
  exact ⟨fun hrange => ⟨_, execGetbit_range hc hrange⟩, fun hidx _ => execGetbit_read hc hidx,
    execGetbit_unwritten hc⟩

end Sys2Proof.Machine
end

section
/-! PROOFS. The big-endian header codec (41_header_codec.md): the words of HDR_ENC and HDR_DEC, and the ends of each
command. -/

namespace Sys2Proof

/-! ### The words of HDR_ENC and HDR_DEC -/

theorem CmdFields.instr_of_op_hdrEnc {f : CmdFields} (h : f.op = 0x3#4) : f.instr = .ok .hdrEnc := by
  simp [CmdFields.instr, h]

theorem CmdFields.instr_of_op_hdrDec {f : CmdFields} (h : f.op = 0x4#4) :
    f.instr = .ok (.hdrDec (Sel.ofBit f.sel)) := by
  simp [CmdFields.instr, h]

/-- The word `0x00000003` is HDR_ENC's (R131). -/
theorem decode_hdrEnc_word {w : Word} (h : w &&& 0xFFFFFFFF#32 = 0x00000003#32) : decode w = .ok .hdrEnc := by
  obtain ⟨hdec, hop⟩ := decode_of_matches_row (r := opcodeTable[2]) (by decide) h
  rw [hdec, CmdFields.instr_of_op_hdrEnc hop]

/-- The words `0x00000004` and `0x00000014` are HDR_DEC's (R132). -/
theorem decode_hdrDec_word {w : Word} (h : w &&& 0xFFFFFFEF#32 = 0x00000004#32) :
    decode w = .ok (.hdrDec (if w.getLsbD 4 then .output else .input)) := by
  obtain ⟨hdec, hop⟩ := decode_of_matches_row (r := opcodeTable[3]) (by decide) h
  rw [hdec, CmdFields.instr_of_op_hdrDec hop, Sel.ofBit_ofWord_sel]

end Sys2Proof

namespace Sys2Proof.Machine

/-! ### The bytes a header takes -/

theorem written_zero_iff (s : State) (b : Buf) (n : Nat) :
    s.written b 0 n ↔ ∀ a, a < n → ∃ v, (s.buffer b).read a = some v :=
  forall_congr' fun a => by simp

/-- After `hdr_write(H)`, bit 0 of byte `i < 32` is bit `31 - i` of `H`, and all else is kept (R130, R131). -/
theorem hdrWrite_dataBits {out m : Memory} {h : Word} (e : hdrWrite out h = .ok m) (a : Nat) :
    m.read a = if a < 32 then (out.read a).map (fun v => withDataBit v (h.getLsbD (31 - a))) else out.read a := by
  rw [hdrWrite_read e]
  split
  · exact stripe_inside (Nat.zero_le a) (by omega) (hdrBit_lsb h ‹_›)
  · exact stripe_outside (by omega)

/-- A header write on an unwritten byte stops at one (R85). -/
theorem hdrWrite_unwritten {out : Memory} (h : Word) (hw : ¬ ∀ a, a < 32 → ∃ v, out.read a = some v) :
    ∃ a, a < 32 ∧ out.read a = none ∧ hdrWrite out h = .error (.uninitRead .outBuf a) := by
  cases he : hdrWrite out h with
  | ok m => exact absurd (fun _ => hdrWrite_written he) hw
  | error e =>
    obtain ⟨a, ha, hnone, rfl⟩ := hdrWrite_error he
    exact ⟨a, ha, hnone, rfl⟩

/-- A header read of an unwritten byte stops at one (R85). -/
theorem hdrRead_unwritten (b : Buf) {m : Memory} (hw : ¬ ∀ a, a < 32 → ∃ v, m.read a = some v) :
    ∃ a, a < 32 ∧ m.read a = none ∧ hdrRead b m = .error (.uninitRead b a) := by
  cases he : hdrRead b m with
  | ok h => exact absurd (fun _ => hdrRead_written he) hw
  | error e =>
    obtain ⟨a, ha, hnone, rfl⟩ := hdrRead_error he
    exact ⟨a, ha, hnone, rfl⟩

/-! ### HDR_ENC -/

theorem exec_hdrEnc (s : State) : exec .hdrEnc s = execHdrEnc s := rfl

theorem execHdrEnc_unwritten {s : State} (hc : s.clen.toNat ≤ s.cap) (h : 32 ≤ s.clen.toNat)
    (hw : ¬ s.written .outBuf 0 32) :
    ∃ a, a < 32 ∧ s.outBuf.read a = none ∧ execHdrEnc s = .fault (.uninitRead .outBuf a) := by
  rw [written_zero_iff] at hw
  obtain ⟨a, ha, hnone, he⟩ := hdrWrite_unwritten (out := s.outBuf) s.hdr hw
  exact ⟨a, ha, hnone, by rw [execHdrEnc_run hc h, he, onOk_error]⟩

/-- Settles O7, by the three ends of HDR_ENC: no room for a header, the header written, a byte unwritten. -/
theorem hdrEncWritesTheHeaderBits : Obligations.HdrEncWritesTheHeaderBits := by
  unfold Obligations.HdrEncWritesTheHeaderBits
  refine ⟨fun _ => decode_hdrEnc_word, fun s hc => ?_⟩
  rw [exec_hdrEnc]
  refine ⟨execHdrEnc_short hc, fun hlen hw => ?_, execHdrEnc_unwritten hc⟩
  obtain ⟨out, hout⟩ := hdrWrite_total s.hdr ((written_zero_iff ..).1 hw)
  exact ⟨_, execHdrEnc_ok hc hlen hout, rfl, hdrWrite_dataBits hout⟩

/-! ### HDR_DEC -/

theorem exec_hdrDec (sel : Sel) (s : State) : exec (.hdrDec sel) s = execHdrDec sel s := rfl

theorem written_cbBuf_iff (s : State) (sel : Sel) (n : Nat) :
    s.written (cbBuf sel) 0 n ↔ ∀ a, a < n → ∃ v, (s.cb sel).read a = some v := by
  rw [written_zero_iff, ← carrier_eq_cbBuf, buffer_carrier]

theorem execHdrDec_read {sel : Sel} {s : State} (hc : s.clen.toNat ≤ s.cap) (h : 32 ≤ s.clen.toNat)
    (hw : s.written (cbBuf sel) 0 32) :
    ∃ v, CarriesHeader (s.cb sel) v ∧
      execHdrDec sel s = .next (State.complete .ok .none 0x4#4 (State.report 32 { s with hdr := v })) := by
  obtain ⟨v, hv⟩ := hdrRead_total (b := carrier sel) ((written_cbBuf_iff ..).1 hw)
  exact ⟨v, carriesHeader_of_hdrRead hv, execHdrDec_ok hc h (by rw [buffer_carrier, hv])⟩

theorem execHdrDec_unwritten {sel : Sel} {s : State} (hc : s.clen.toNat ≤ s.cap) (h : 32 ≤ s.clen.toNat)
    (hw : ¬ s.written (cbBuf sel) 0 32) :
    ∃ a, a < 32 ∧ (s.cb sel).read a = none ∧ execHdrDec sel s = .fault (.uninitRead (cbBuf sel) a) := by
  rw [written_cbBuf_iff] at hw
  obtain ⟨a, ha, hnone, he⟩ := hdrRead_unwritten (carrier sel) hw
  exact ⟨a, ha, hnone, by rw [execHdrDec_run hc h, buffer_carrier, he, onOk_error, carrier_eq_cbBuf]⟩

/-- Settles O8, by the three ends of HDR_DEC: a carrier too short, the header read, a byte unwritten. -/
theorem hdrDecReadsTheHeaderBits : Obligations.HdrDecReadsTheHeaderBits := by
  unfold Obligations.HdrDecReadsTheHeaderBits
  refine ⟨fun _ => decode_hdrDec_word, fun sel s hc => ?_⟩
  rw [exec_hdrDec]
  exact ⟨execHdrDec_short hc, execHdrDec_read hc, execHdrDec_unwritten hc⟩

end Sys2Proof.Machine
end

section
/-! PROOFS. The payload byte striper (42_payload_codec.md): the words of PAY_ENC and PAY_DEC, and the ends of each
command. -/

namespace Sys2Proof

/-! ### The words of PAY_ENC and PAY_DEC -/

theorem CmdFields.instr_of_op_payEnc {f : CmdFields} (h : f.op = 0x5#4) : f.instr = .ok .payEnc := by
  simp [CmdFields.instr, h]

theorem CmdFields.instr_of_op_payDec {f : CmdFields} (h : f.op = 0x6#4) :
    f.instr = .ok (.payDec (Sel.ofBit f.sel)) := by
  simp [CmdFields.instr, h]

/-- The word `0x00000005` is PAY_ENC's (R151). -/
theorem decode_payEnc_word {w : Word} (h : w &&& 0xFFFFFFFF#32 = 0x00000005#32) : decode w = .ok .payEnc := by
  obtain ⟨hdec, hop⟩ := decode_of_matches_row (r := opcodeTable[4]) (by decide) h
  rw [hdec, CmdFields.instr_of_op_payEnc hop]

/-- The words `0x00000006` and `0x00000016` are PAY_DEC's (R157). -/
theorem decode_payDec_word {w : Word} (h : w &&& 0xFFFFFFEF#32 = 0x00000006#32) :
    decode w = .ok (.payDec (if w.getLsbD 4 then .output else .input)) := by
  obtain ⟨hdec, hop⟩ := decode_of_matches_row (r := opcodeTable[5]) (by decide) h
  rw [hdec, CmdFields.instr_of_op_payDec hop, Sel.ofBit_ofWord_sel]

end Sys2Proof

namespace Sys2Proof.Machine

/-! ### PAY_ENC -/

theorem exec_payEnc (s : State) : exec .payEnc s = execPayEnc s := rfl

/-- After `pay_write(s, n)`, bit 0 of position `s + 8 * j + k` is bit `7 - k` of payload byte `j` (R68, R150). -/
theorem payWrite_dataBits {pbuf out m : Memory} {s n j k : Nat} {b : Byte} (e : payWrite pbuf out s n = .ok m)
    (hj : j < n) (hk : k < 8) (hb : pbuf.read j = some b) :
    m.read (s + 8 * j + k) = (out.read (s + 8 * j + k)).map (fun v => withDataBit v (b.getLsbD (7 - k))) := by
  have hbit : (payBit pbuf (s + 8 * j + k - s)).getLsbD 0 = b.getLsbD (7 - k) := by
    rw [show s + 8 * j + k - s = 8 * j + k by omega, payBit_lsb hb hk]
  rw [payWrite_read e, stripe_inside (by omega) (by omega) hbit]

theorem payWrite_outside {pbuf out m : Memory} {s n a : Nat} (e : payWrite pbuf out s n = .ok m)
    (ha : a < s ∨ s + 8 * n ≤ a) : m.read a = out.read a := by
  rw [payWrite_read e, stripe_outside (by omega)]

theorem execPayEnc_unwritten {s : State} (hc : s.clen.toNat ≤ s.cap)
    (h : s.idx.toNat + 8 * s.plen.toNat ≤ s.clen.toNat)
    (hw : ¬ (s.written .pBuf 0 s.plen.toNat ∧ s.written .outBuf s.idx.toNat (s.idx.toNat + 8 * s.plen.toNat))) :
    ∃ b a, (s.buffer b).read a = none ∧ execPayEnc s = .fault (.uninitRead b a) := by
  rw [written_zero_iff] at hw
  cases he : payWrite s.pBuf s.outBuf s.idx.toNat s.plen.toNat with
  | ok out => exact absurd (payWrite_written he) hw
  | error e =>
    have hfault : execPayEnc s = .fault e := by rw [execPayEnc_run hc h, he, onOk_error]
    obtain ⟨j, -, hnone, rfl⟩ | ⟨a, -, -, hnone, rfl⟩ := payWrite_error he
    · exact ⟨.pBuf, j, hnone, hfault⟩
    · exact ⟨.outBuf, a, hnone, hfault⟩

/-- Settles O9, by the three ends of PAY_ENC: a payload past CLEN, the payload striped, a byte unwritten. -/
theorem payEncStripesTheBytes : Obligations.PayEncStripesTheBytes := by
  unfold Obligations.PayEncStripesTheBytes
  refine ⟨fun _ => decode_payEnc_word, fun s hc => ?_⟩
  rw [exec_payEnc]
  refine ⟨execPayEnc_range hc, fun hfit hp hw => ?_, execPayEnc_unwritten hc⟩
  obtain ⟨out, hout⟩ := payWrite_total (pbuf := s.pBuf) (out := s.outBuf) ((written_zero_iff ..).1 hp) hw
  refine ⟨_, execPayEnc_ok hc hfit hout, rfl, fun j k b old hj hk hb hold => ?_, fun a => payWrite_outside hout⟩
  rw [State.complete_outBuf, State.report_outBuf, payWrite_dataBits hout hj hk hb, hold, Option.map_some]

/-! ### PAY_DEC -/

theorem exec_payDec (sel : Sel) (s : State) : exec (.payDec sel) s = execPayDec sel s := rfl

theorem buffer_cbBuf (s : State) (sel : Sel) : s.buffer (cbBuf sel) = s.cb sel := by
  rw [← carrier_eq_cbBuf, buffer_carrier]

theorem execPayDec_read {sel : Sel} {s : State} (hc : s.clen.toNat ≤ s.cap)
    (h : s.idx.toNat + 8 * s.plen.toNat ≤ s.clen.toNat)
    (hw : s.written (cbBuf sel) s.idx.toNat (s.idx.toNat + 8 * s.plen.toNat)) :
    ∃ p : List Byte, p.length = s.plen.toNat ∧ CarriesPayload (s.cb sel) s.idx.toNat p ∧
      execPayDec sel s = .next (State.complete .ok .none 0x6#4
        (State.report (s.idx.toNat + 8 * s.plen.toNat) { s with pBuf := s.pBuf.writeBytes 0 p })) := by
  rw [State.written, buffer_cbBuf] at hw
  obtain ⟨p, hp⟩ := payRead_total (b := carrier sel) hw
  obtain ⟨hlen, hcarries⟩ := carriesPayload_of_payRead hp
  exact ⟨p, hlen, hcarries, execPayDec_ok hc h (by rw [buffer_carrier, hp])⟩

theorem execPayDec_unwritten {sel : Sel} {s : State} (hc : s.clen.toNat ≤ s.cap)
    (h : s.idx.toNat + 8 * s.plen.toNat ≤ s.clen.toNat)
    (hw : ¬ s.written (cbBuf sel) s.idx.toNat (s.idx.toNat + 8 * s.plen.toNat)) :
    ∃ a, (s.cb sel).read a = none ∧ execPayDec sel s = .fault (.uninitRead (cbBuf sel) a) := by
  rw [State.written, buffer_cbBuf] at hw
  cases he : payRead (carrier sel) (s.cb sel) s.idx.toNat s.plen.toNat with
  | ok p => exact absurd (fun _ => payRead_written he) hw
  | error e =>
    obtain ⟨a, -, -, hnone, rfl⟩ := payRead_error he
    exact ⟨a, hnone, by rw [execPayDec_run hc h, buffer_carrier, he, onOk_error, carrier_eq_cbBuf]⟩

/-- Settles O10, by the three ends of PAY_DEC: a payload past CLEN, the payload read, a byte unwritten. -/
theorem payDecReadsTheBytes : Obligations.PayDecReadsTheBytes := by
  unfold Obligations.PayDecReadsTheBytes
  refine ⟨fun _ => decode_payDec_word, fun sel s hc => ?_⟩
  rw [exec_payDec]
  refine ⟨execPayDec_range hc, fun hfit hw => ?_, execPayDec_unwritten hc⟩
  obtain ⟨p, hlen, hcarries, hnext⟩ := execPayDec_read hc hfit hw
  refine ⟨_, p, hnext, hlen, hcarries, rfl, fun a => ?_⟩
  rw [State.complete_pBuf, State.report_pBuf, Memory.read_writeBytes, hlen]
  simp

end Sys2Proof.Machine
end

section
/-! PROOFS. The codec orchestrator (43_orchestrator.md): the words of COPY and ENCODE, and the ends of each command. -/

namespace Sys2Proof

/-! ### The words of COPY and ENCODE -/

theorem CmdFields.instr_of_op_copy {f : CmdFields} (h : f.op = 0x7#4) : f.instr = .ok .copy := by
  simp [CmdFields.instr, h]

theorem CmdFields.instr_of_op_encode {f : CmdFields} (h : f.op = 0x8#4) : f.instr = .ok .encode := by
  simp [CmdFields.instr, h]

/-- The word `0x00000007` is COPY's (R175). -/
theorem decode_copy_word {w : Word} (h : w &&& 0xFFFFFFFF#32 = 0x00000007#32) : decode w = .ok .copy := by
  obtain ⟨hdec, hop⟩ := decode_of_matches_row (r := opcodeTable[6]) (by decide) h
  rw [hdec, CmdFields.instr_of_op_copy hop]

/-- The word `0x00000008` is ENCODE's (R181). -/
theorem decode_encode_word {w : Word} (h : w &&& 0xFFFFFFFF#32 = 0x00000008#32) : decode w = .ok .encode := by
  obtain ⟨hdec, hop⟩ := decode_of_matches_row (r := opcodeTable[7]) (by decide) h
  rw [hdec, CmdFields.instr_of_op_encode hop]

end Sys2Proof

namespace Sys2Proof.Machine

/-! ### COPY -/

theorem exec_copy (s : State) : exec .copy s = execCopy s := rfl

theorem execCopy_unwritten {s : State} (hc : s.clen.toNat ≤ s.cap) (hw : ¬ s.written .inBuf 0 s.clen.toNat) :
    ∃ a, a < s.clen.toNat ∧ s.inBuf.read a = none ∧ execCopy s = .fault (.uninitRead .inBuf a) := by
  rw [written_zero_iff] at hw
  cases he : copyBytes s.inBuf s.outBuf s.clen.toNat with
  | ok out => exact absurd (fun _ => copyBytes_written he) hw
  | error e =>
    obtain ⟨a, ha, hnone, rfl⟩ := copyBytes_error he
    exact ⟨a, ha, hnone, by rw [execCopy_run hc, he, onOk_error]⟩

/-- Settles O11, by the two ends of COPY: the carrier copied, a carrier byte unwritten. -/
theorem copyFillsThePrivateCopy : Obligations.CopyFillsThePrivateCopy := by
  unfold Obligations.CopyFillsThePrivateCopy
  refine ⟨fun _ => decode_copy_word, fun s hc => ?_⟩
  rw [exec_copy]
  refine ⟨fun hw => ?_, execCopy_unwritten hc⟩
  obtain ⟨out, hout⟩ := copyBytes_total (out := s.outBuf) ((written_zero_iff ..).1 hw)
  exact ⟨_, execCopy_ok hc hout, rfl, copyBytes_read hout⟩

/-! ### ENCODE -/

theorem exec_encode (s : State) : exec .encode s = execEncode s := rfl

/-- ENCODE's buffer steps, once done, have read IN below CLEN and PBUF below PLEN (R85). -/
theorem encodeInto_written {s : State} {out : Memory} (he : encodeInto s = .ok out) :
    s.written .inBuf 0 s.clen.toNat ∧ s.written .pBuf 0 s.plen.toNat := by
  obtain ⟨copied, headed, hcopy, -, hpay⟩ := encodeInto_ok he
  rw [written_zero_iff, written_zero_iff]
  exact ⟨fun _ => copyBytes_written hcopy, (payWrite_written hpay).1⟩

section
variable {s : State} {out : Memory} (h : 32 + 8 * s.plen.toNat ≤ s.clen.toNat) (he : encodeInto s = .ok out)
include h he

/-- Positions 0 to 31 carry PLEN, most significant bit first (R67, R181). -/
theorem encodeInto_header {i : Nat} (hi : i < 32) :
    out.read i = (s.inBuf.read i).map (fun v => withDataBit v (s.plen.getLsbD (31 - i))) := by
  rw [encodeInto_read h he, if_pos hi]
  exact stripe_inside (Nat.zero_le i) (by omega) (hdrBit_lsb s.plen hi)

/-- Position `32 + 8 * j + k` carries bit `7 - k` of payload byte `j` (R68, R181). -/
theorem encodeInto_payload {j k : Nat} {b : Byte} (hj : j < s.plen.toNat) (hk : k < 8) (hb : s.pBuf.read j = some b) :
    out.read (32 + 8 * j + k) = (s.inBuf.read (32 + 8 * j + k)).map (fun v => withDataBit v (b.getLsbD (7 - k))) := by
  have hbit : (payBit s.pBuf (32 + 8 * j + k - 32)).getLsbD 0 = b.getLsbD (7 - k) := by
    rw [show 32 + 8 * j + k - 32 = 8 * j + k by omega, payBit_lsb hb hk]
  rw [encodeInto_read h he, if_neg (by omega), if_pos (by omega), stripe_inside (by omega) (by omega) hbit]

/-- Past the message and below CLEN, OUT is IN (R181). -/
theorem encodeInto_trailing {i : Nat} (hlo : 32 + 8 * s.plen.toNat ≤ i) (hhi : i < s.clen.toNat) :
    out.read i = s.inBuf.read i := by
  rw [encodeInto_read h he, if_neg (by omega), if_pos hhi, stripe_outside (by omega)]

theorem encodeInto_above {i : Nat} (hi : s.clen.toNat ≤ i) : out.read i = s.outBuf.read i := by
  rw [encodeInto_read h he, if_neg (by omega), if_neg (by omega)]

end

theorem execEncode_unwritten {s : State} (hc : s.clen.toNat ≤ s.cap) (h : 32 + 8 * s.plen.toNat ≤ s.clen.toNat)
    (hw : ¬ (s.written .inBuf 0 s.clen.toNat ∧ s.written .pBuf 0 s.plen.toNat)) :
    ∃ b a, (s.buffer b).read a = none ∧ execEncode s = .fault (.uninitRead b a) := by
  cases he : encodeInto s with
  | ok out => exact absurd (encodeInto_written he) hw
  | error e =>
    have hfault : execEncode s = .fault e := by rw [execEncode_run hc h, he, onOk_error]
    obtain ⟨a, -, hnone, rfl⟩ | ⟨j, -, hnone, rfl⟩ := encodeInto_error h he
    · exact ⟨.inBuf, a, hnone, hfault⟩
    · exact ⟨.pBuf, j, hnone, hfault⟩

/-- Settles O12, by the three ends of ENCODE: no room for the message, the message embedded, a byte unwritten. -/
theorem encodeEmbedsThePayload : Obligations.EncodeEmbedsThePayload := by
  unfold Obligations.EncodeEmbedsThePayload
  refine ⟨fun _ => decode_encode_word, fun s hc => ?_⟩
  rw [exec_encode]
  refine ⟨execEncode_range hc, fun hfit hin hp => ?_, execEncode_unwritten hc⟩
  obtain ⟨out, hout⟩ := encodeInto_total hfit ((written_zero_iff ..).1 hin) ((written_zero_iff ..).1 hp)
  refine ⟨_, execEncode_ok hc hfit hout, rfl, fun i v hi hv => ?_, fun j k b v hj hk hb hv => ?_,
    fun _ => encodeInto_trailing hfit hout, fun _ => encodeInto_above hfit hout⟩
  · rw [State.complete_outBuf, State.report_outBuf, encodeInto_header hfit hout hi, hv, Option.map_some]
  · rw [State.complete_outBuf, State.report_outBuf, encodeInto_payload hfit hout hj hk hb, hv, Option.map_some]

end Sys2Proof.Machine
end

section
/-! PROOFS. Exceptions (60_exceptions.md): the acceptance of a command word, and the completion of a command whose
carrier is too long. -/

namespace Sys2Proof

/-! ### The OP of a command's word -/

theorem Instr.fields_op (i : Instr) : i.fields.op = i.op := by
  cases i <;> rfl

/-- Bits [3:0] of a command's word are its OP (R91). -/
theorem encode_op (i : Instr) : (encode i).extractLsb' 0 4 = i.op :=
  calc (encode i).extractLsb' 0 4
    _ = (CmdFields.ofWord i.fields.word).op := rfl
    _ = i.fields.op := by rw [CmdFields.ofWord_word]
    _ = i.op := i.fields_op

end Sys2Proof

namespace Sys2Proof.Machine

/-! ### Acceptance -/

/-- A write to CMD while BUSY = 1 is answered OK and refused (R240). -/
theorem access_write_cmd_busy {s : State} (h : s.busy = true) (w : Word) :
    hostAccess (.write 32 0x10#32 w) s = .next (s.refuseWrite.respond .written) := by
  rw [access_write_reg (by decide) (.inl (by decide))]
  exact congrArg (fun t : State => Host.Outcome.next (t.respond .written)) (unlessBusy_true h _)

/-- Settles O37, by the two answers to a write of CMD: accepted while idle, refused while busy. -/
theorem acceptanceCapturesTheWord : Obligations.AcceptanceCapturesTheWord := by
  unfold Obligations.AcceptanceCapturesTheWord
  refine fun w s => ⟨fun hidle => ?_, fun hbusy => ?_⟩
  · exact access_write_cmd_idle (s.busy_false_iff.1 hidle) w
  · exact ⟨_, access_write_cmd_busy hbusy w, by simp, by simp⟩

/-! ### BAD_LENGTH -/

/-- The meaning of every command is a length check around its own body (R202), so each ends as the check does. -/
theorem exec_badLength {s : State} (h : s.cap < s.clen.toNat) (i : Instr) :
    exec i s = .next (s.endMisuse (.badLength s.clen) i.op) := by
  cases i with
  | setbit | getbit | hdrEnc | hdrDec | payEnc | payDec | copy | encode | decode => exact checkLength_bad h

/-- Settles O14: the length check comes first in every command, and it writes only STATUS and the record. -/
theorem tooLongCarrierIsBadLength : Obligations.TooLongCarrierIsBadLength := by
  unfold Obligations.TooLongCarrierIsBadLength
  intro i s hlong
  refine ⟨.badLength s.clen :: s.misuse, ?_⟩
  rw [encode_op, exec_badLength hlong]
  rfl

end Sys2Proof.Machine
end

section
/-! PROOFS. Hazards (70_reset_and_hazards.md): the host writes while the engine holds a command. -/

namespace Sys2Proof.Machine

/-! ### Writes to the registers -/

theorem regAt_of_refused {offset : Nat} (h : offset ∈ [0x10, 0x14, 0x18, 0x1C, 0x20]) :
    regAt offset ∈ [.cmd, .clen, .plen, .hdr, .idx] :=
  (by decide : ∀ o ∈ [0x10, 0x14, 0x18, 0x1C, 0x20], regAt o ∈ [.cmd, .clen, .plen, .hdr, .idx]) offset h

/-- Only these offsets name a register that a host write can change (R47). -/
theorem offset_of_regAt_writable {offset : Nat}
    (h : regAt offset ∈ [.ctrl, .status, .cmd, .clen, .plen, .hdr, .idx]) :
    offset ∈ [0x08, 0x0C, 0x10, 0x14, 0x18, 0x1C, 0x20] := by
  unfold regAt at h
  split at h <;> simp at h ⊢

/-- While BUSY = 1 a write to CMD or to an operand register is dropped and sets OVERRUN (R240). -/
theorem writeReg_refused {s : State} {r : Reg} (hbusy : s.busy = true) (h : r ∈ [.cmd, .clen, .plen, .hdr, .idx])
    (w : Word) : s.writeReg r w = s.refuseWrite := by
  cases r with
  | cmd | clen | plen | hdr | idx => exact unlessBusy_true hbusy _
  | id | capr | ctrl | status | bitv | reqLo | reqHi | avail | pcapacity | reserved => simp at h

/-- A write to any other register than CTRL, STATUS and these five is ignored, busy or not (R41, R240). -/
theorem writeReg_ignored {s : State} {r : Reg} (h : r ∉ [.ctrl, .status, .cmd, .clen, .plen, .hdr, .idx]) (w : Word) :
    s.writeReg r w = s := by
  cases r with
  | id | capr | bitv | reqLo | reqHi | avail | pcapacity | reserved => rfl
  | ctrl | status | cmd | clen | plen | hdr | idx => simp at h

/-! ### Writes to the buffers -/

/-- Both widths of a buffer write pass the same BUSY check (R240). -/
theorem access_write_buffer_busy {s : State} {width : Nat} {addr : Word} (hbusy : s.busy = true)
    (hcap : s.cap ≤ 2 ^ 28) (h : 0x1000 ≤ addr.toNat) (hlegal : LegalAccess s.cap width addr.toNat) (w : Word) :
    hostAccess (.write width addr w) s = .next (s.refuseWrite.respond .written) := by
  obtain ⟨b, i, -, -, -, htarget, rfl | ⟨rfl, hword⟩⟩ := legal_target hcap h hlegal
  · rw [access_write8 htarget, unlessBusy_true hbusy]
  · rw [access_write32 htarget hword, unlessBusy_true hbusy]

/-- Settles O38, clause by clause: a refused register or buffer, STATUS, CTRL, a register whose writes are ignored. -/
theorem busyRefusesWrites : Obligations.BusyRefusesWrites := by
  unfold Obligations.BusyRefusesWrites
  intro width addr w s hbusy hcap hlegal
  refine ⟨?_, fun hstatus => ?_, fun hctrl => ?_, fun hreg hother => ?_⟩
  · rintro (hrefused | hbuf)
    · have hreg : addr.toNat < 0x1000 := by simp at hrefused; omega
      rw [access_write_reg hreg hlegal, writeReg_refused hbusy (regAt_of_refused hrefused)]
      rfl
    · exact access_write_buffer_busy hbusy hcap hbuf hlegal w
  · rw [access_write_reg (by omega) hlegal, hstatus]
    rfl
  · rw [access_write_reg (by omega) hlegal, hctrl]
    rfl
  · rw [access_write_reg hreg hlegal, writeReg_ignored (mt offset_of_regAt_writable hother)]
    rfl

end Sys2Proof.Machine
end

section
/-! PROOFS. The decoder and the encoder are inverse to each other (30_encoding.md sections 1 and 3). -/

namespace Sys2Proof

/-! ### The fields of a command -/

@[simp] theorem Sel.ofBit_bit (sel : Sel) : Sel.ofBit sel.bit = sel := by cases sel <;> rfl

@[simp] theorem Sel.bit_ofBit (b : BitVec 1) : (Sel.ofBit b).bit = b := by
  rcases b.eq_zero_or_eq_one with rfl | rfl <;> rfl

theorem CmdFields.ofWord_encode (i : Instr) : CmdFields.ofWord (encode i) = i.fields := CmdFields.ofWord_word _

/-- The fields of a command pass every check (R93 to R95). -/
theorem Instr.fields_error? (i : Instr) : i.fields.error? = none := by
  rw [CmdFields.error?_none]
  cases i <;> simp [Instr.fields, CmdFields.reservedClear, CmdFields.opLegal, CmdFields.selLegal, CmdFields.takesSel,
    CmdFields.valLegal]

theorem Instr.fields_instr (i : Instr) : i.fields.instr = .ok i := by
  cases i <;> simp [Instr.fields, CmdFields.instr]

/-- Fields that pass every check are those of the command they spell: what OP does not take is 0 (R93 to R95). -/
theorem CmdFields.fields_of_instr {f : CmdFields} {i : Instr} (hlegal : f.error? = none) (h : f.instr = .ok i) :
    i.fields = f := by
  obtain ⟨hreserved, -, hsel, hval⟩ := f.error?_none.1 hlegal
  rw [reservedClear_iff] at hreserved
  rw [selLegal_iff, takesSel_iff] at hsel
  have hop : i.op = f.op := op_of_instr h
  rw [valLegal_iff] at hval
  obtain ⟨op, sel, rsv0, val, rsv1⟩ := f
  obtain ⟨rfl, rfl⟩ := hreserved
  obtain rfl : i.op = op := hop
  cases i with
  | setbit | hdrEnc | payEnc | copy | encode => simp_all [Instr.op, CmdFields.instr, Instr.fields]
  | getbit | hdrDec | payDec | decode =>
    simp_all [Instr.op, CmdFields.instr, Instr.fields]
    rw [← h, Sel.bit_ofBit]

/-! ### The two ways -/

theorem decode_encode (i : Instr) : decode (encode i) = .ok i := by
  rw [decode, CmdFields.ofWord_encode, i.fields_error?]
  exact i.fields_instr

theorem decode_of_eq_encode {w : Word} {i : Instr} (h : encode i = w) : decode w = .ok i := h ▸ decode_encode i

theorem eq_encode_of_decode_ok {w : Word} {i : Instr} (h : decode w = .ok i) : w = encode i := by
  obtain ⟨hlegal, hinstr⟩ := decode_ok h
  rw [encode, CmdFields.fields_of_instr hlegal hinstr, CmdFields.word_ofWord]

/-- Settles O1: the encoding of a command decodes to it, and a legal word's fields are those of its command. -/
theorem decodeAndEncodeAgree : Obligations.DecodeAndEncodeAgree := by
  unfold Obligations.DecodeAndEncodeAgree
  refine fun w i => ⟨eq_encode_of_decode_ok, ?_⟩
  rintro rfl
  exact decode_encode i

/-- Settles O4: nine of the words are encodings, and the tenth fails the check of SEL. -/
theorem sampleWordsDecode : Obligations.SampleWordsDecode := by
  unfold Obligations.SampleWordsDecode
  refine ⟨?_, ?_, ?_, ?_, ?_, ?_, ?_, ?_, ?_, by decide⟩ <;> exact decode_of_eq_encode (by decide)

end Sys2Proof
end

section
/-! PROOFS. Every way an access can end, and what the writes of the host port change (20_memory.md). -/

namespace Sys2Proof.Machine

/-! ### The ends of an access -/

/-- The ways an access can end in a next state: ERR, a read's two answers, and a write to a register or to a buffer
(R63 to R66, R240, R241). -/
inductive AccessEnds (s : State) : Access → State → Prop where
  | err (a : Access) (h : s.cap ≤ 2 ^ 28 ∨ a.addr.toNat < 0x1000 → ¬ LegalAccess s.cap a.width a.addr.toNat) :
      AccessEnds s a (s.respond (.err 0#32))
  | read (width : Nat) (addr rdata : Word) : AccessEnds s (.read width addr) (s.respond (.data rdata))
  | readFree (width : Nat) (addr rdata : Word) (draws : Nat) (hbusy : s.busy = true) :
      AccessEnds s (.read width addr) { s.respond (.data rdata) with draws := draws }
  | writeReg (addr w : Word) (h : addr.toNat < 0x1000) (hl : LegalAccess s.cap 32 addr.toNat) :
      AccessEnds s (.write 32 addr w) ((s.writeReg (regAt addr.toNat) w).respond .written)
  | writeBuf (width : Nat) (addr w : Word) (b : Buf) (m : Memory) (h : bufBase b ≤ addr.toNat)
      (hl : s.cap ≤ 2 ^ 28 → LegalAccess s.cap width addr.toNat)
      (hm : (s.buffer b).legal (s.bufSize b) → m.legal (s.bufSize b)) :
      AccessEnds s (.write width addr w) ((s.unlessBusy (s.setBuffer b m)).respond .written)

theorem readRegister_ends {width : Nat} {addr : Word} {s t : State} (h : addr.toNat < 0x1000)
    (ht : readRegister width addr.toNat s = .next t) : AccessEnds s (.read width addr) t := by
  unfold readRegister at ht
  split_ifs at ht with hl hb
  · cases ht
    exact .err _ fun _ => by simpa [Access.width, Access.addr, legal_reg h] using hl
  · cases ht
    exact .readFree _ _ _ _ (Bool.and_eq_true_iff.1 hb).1
  · cases ht
    exact .read _ _ _

theorem writeRegister_ends {width : Nat} {addr w : Word} {s t : State} (h : addr.toNat < 0x1000)
    (ht : writeRegister width addr.toNat w s = .next t) : AccessEnds s (.write width addr w) t := by
  unfold writeRegister at ht
  split_ifs at ht with hl
  · cases ht
    exact .err _ fun _ => by simpa [Access.width, Access.addr, legal_reg h] using hl
  · cases ht
    have hlegal : LegalAccess s.cap width addr.toNat := (legal_reg h).2 (by simpa using hl)
    obtain rfl : width = 32 := by
      simp only [regAccessOk, Bool.not_eq_false, Bool.and_eq_true, beq_iff_eq] at hl
      exact hl.1
    exact .writeReg _ _ h hlegal

/-- An access to a byte of a window that is neither 8 bits wide nor an aligned word inside it (R65). -/
theorem illegalBuffer_ends {a : Access} {b : Buf} {s : State} (h1 : bufBase b ≤ a.addr.toNat)
    (h2 : a.addr.toNat < bufBase b + s.bufSize b) (h8 : ¬ a.width = 8)
    (h32 : ¬ (a.width = 32 ∧ s.wordAccessOk b (a.addr.toNat - bufBase b) = true)) :
    AccessEnds s a (s.respond (.err 0#32)) := by
  refine .err _ fun hc hl => ?_
  have hbase : 0x10000000 ≤ bufBase b := base_ge b
  exact ((legal_byte (hc.resolve_right (by omega)) h1 h2).1 hl).elim h8 h32

section
variable {width : Nat} {addr : Word} {b : Buf} {s t : State} (h1 : bufBase b ≤ addr.toNat)
  (h2 : addr.toNat < bufBase b + s.bufSize b)
include h1 h2

theorem readBuffer_ends (ht : readBuffer width b (addr.toNat - bufBase b) s = .next t) :
    AccessEnds s (.read width addr) t := by
  unfold readBuffer at ht
  split_ifs at ht with h8 hb h32 hb
  · cases ht
    exact .readFree _ _ _ _ (Bool.and_eq_true_iff.1 hb).1
  · obtain ⟨v, -, hv⟩ := onOk_next ht
    cases hv
    exact .read _ _ _
  · cases ht
    exact .readFree _ _ _ _ (Bool.and_eq_true_iff.1 hb).1
  · obtain ⟨v, -, hv⟩ := onOk_next ht
    cases hv
    exact .read _ _ _
  · cases ht
    exact illegalBuffer_ends h1 h2 h8 h32

theorem writeBuffer_ends {w : Word} (ht : writeBuffer width b (addr.toNat - bufBase b) w s = .next t) :
    AccessEnds s (.write width addr w) t := by
  unfold writeBuffer at ht
  split_ifs at ht with h8 h32
  · cases ht
    exact .writeBuf _ _ _ _ _ h1 (fun hc => (legal_byte hc h1 h2).2 (.inl h8))
      (Memory.write_legal _ (by omega))
  · cases ht
    have hin : addr.toNat - bufBase b + 3 < s.bufSize b := by
      simpa using (Bool.and_eq_true_iff.1 h32.2).2
    exact .writeBuf _ _ _ _ _ h1 (fun hc => (legal_byte hc h1 h2).2 (.inr h32))
      (Memory.writeBytes_legal _ hin)
  · cases ht
    exact illegalBuffer_ends h1 h2 h8 h32

end

theorem access_ends {a : Access} {s t : State} (h : hostAccess a s = .next t) : AccessEnds s a t := by
  cases a with
  | read width addr =>
    rw [hostAccess] at h
    obtain ⟨hr, htarget⟩ | ⟨b, h1, h2, htarget⟩ | ⟨h1, h2, htarget⟩ := target_cases s addr <;> rw [htarget] at h
    · exact readRegister_ends hr h
    · exact readBuffer_ends h1 h2 h
    · cases h
      exact .err _ fun _ => not_legal_unmapped h1 h2
  | write width addr w =>
    rw [hostAccess] at h
    obtain ⟨hr, htarget⟩ | ⟨b, h1, h2, htarget⟩ | ⟨h1, h2, htarget⟩ := target_cases s addr <;> rw [htarget] at h
    · exact writeRegister_ends hr h
    · exact writeBuffer_ends h1 h2 h
    · cases h
      exact .err _ fun _ => not_legal_unmapped h1 h2

/-! ### What a write leaves -/

/-- A write that BUSY may refuse ends in one of two states (R240). -/
theorem unlessBusy_cases (s u : State) :
    (s.busy = true ∧ s.unlessBusy u = s.refuseWrite) ∨ (s.busy = false ∧ s.unlessBusy u = u) := by
  cases h : s.busy
  · exact .inr ⟨rfl, unlessBusy_false h u⟩
  · exact .inl ⟨rfl, unlessBusy_true h u⟩

end Sys2Proof.Machine
end

section
/-! PROOFS. The invariant of the state (R7, R16, R27, R30, R42 to R44): reset meets it, and every update that a step
makes keeps it. -/

namespace Sys2Proof.Machine

/-- A required count is stored without wrap (R16, R39). -/
theorem req_toNat {n : Nat} (hn : n ≤ 0x8FFFFFFF7) : (BitVec.ofNat 36 n).toNat = n := by
  rw [BitVec.toNat_ofNat, Nat.mod_eq_of_lt (by omega)]

/-! ### The updates of the state -/

section
variable {s : State} (h : s.Inv)
include h

/-- The fields of which the invariant says nothing. -/
theorem State.Inv.unconstrained (ie overrun : Bool) (lastOp : BitVec 4) (clen plen hdr idx avail : Word)
    (bitv : BitVec 1) (response : Option Response) (inputs : List Input) (misuse : List Misuse) (draws : Nat) :
    State.Inv { s with
      ie := ie, overrun := overrun, lastOp := lastOp, clen := clen, plen := plen, hdr := hdr, idx := idx,
      avail := avail, bitv := bitv, response := response, inputs := inputs, misuse := misuse, draws := draws } :=
  ⟨h.capLegal, h.inLegal, h.outLegal, h.pLegal, h.reqBound, h.reasonIff, h.busyNotDone⟩

theorem State.Inv.bufferLegal (b : Buf) : s.bufferLegal b := by
  cases b
  exacts [h.inLegal, h.outLegal, h.pLegal]

theorem State.Inv.setBuffer {b : Buf} {m : Memory} (hm : m.legal (s.bufSize b)) : (s.setBuffer b m).Inv := by
  cases b
  · exact ⟨h.capLegal, hm, h.outLegal, h.pLegal, h.reqBound, h.reasonIff, h.busyNotDone⟩
  · exact ⟨h.capLegal, h.inLegal, hm, h.pLegal, h.reqBound, h.reasonIff, h.busyNotDone⟩
  · exact ⟨h.capLegal, h.inLegal, h.outLegal, hm, h.reqBound, h.reasonIff, h.busyNotDone⟩

theorem State.Inv.report {n : Nat} (hn : n ≤ 0x8FFFFFFF7) : (s.report n).Inv := by
  refine ⟨h.capLegal, h.inLegal, h.outLegal, h.pLegal, ?_, h.reasonIff, h.busyNotDone⟩
  rw [State.report_req, req_toNat hn]
  exact hn

theorem State.Inv.complete {c : ResultCode} {r : NpReason} (hr : r ≠ .none ↔ c = .noPayload) (op : BitVec 4) :
    (s.complete c r op).Inv :=
  ⟨h.capLegal, h.inLegal, h.outLegal, h.pLegal, h.reqBound, hr, fun hb => by simp at hb⟩

theorem State.Inv.endMisuse (m : Misuse) (op : BitVec 4) : (s.endMisuse m op).Inv :=
  (h.complete (c := m.code) (by cases m <;> simp [Misuse.code]) op).unconstrained ..

theorem State.Inv.respond (r : Response) : (s.respond r).Inv := h.unconstrained ..

theorem State.Inv.refuseWrite : s.refuseWrite.Inv := h.unconstrained ..

theorem State.Inv.accept (w : Word) : (s.accept w).Inv :=
  ⟨h.capLegal, h.inLegal, h.outLegal, h.pLegal, h.reqBound, h.reasonIff, fun _ => rfl⟩

theorem State.Inv.writeStatus (w : Word) : (s.writeStatus w).Inv := by
  refine ⟨h.capLegal, h.inLegal, h.outLegal, h.pLegal, h.reqBound, h.reasonIff, fun hb => ?_⟩
  rw [State.writeStatus_done, h.busyNotDone hb, Bool.false_and]

theorem State.Inv.unlessBusy {u : State} (hu : u.Inv) : (s.unlessBusy u).Inv := by
  obtain ⟨-, he⟩ | ⟨-, he⟩ := unlessBusy_cases s u <;> rw [he]
  · exact h.refuseWrite
  · exact hu

theorem State.Inv.writeReg (r : Reg) (w : Word) : (s.writeReg r w).Inv := by
  cases r with
  | ctrl => exact h.unconstrained ..
  | status => exact h.writeStatus w
  | cmd => exact h.unlessBusy (h.accept w)
  | clen | plen | hdr | idx => exact h.unlessBusy (h.unconstrained ..)
  | id | capr | bitv | reqLo | reqHi | avail | pcapacity | reserved => exact h

end

/-! ### Reset, an access, a command -/

/-- The registers and buffers after reset meet the invariant for every CAP in its range (R231). -/
theorem applyReset_inv {s : State} (h : s.capLegal) : (applyReset s).Inv := by
  have hb (b : Buf) : (applyReset s).bufferLegal b := by
    cases b <;> exact ⟨.nil, fun c hc => absurd hc List.not_mem_nil⟩
  exact ⟨h, hb _, hb _, hb _, by simp, by simp, fun _ => rfl⟩

/-- Settles O49: the state after reset is what the reset input leaves of itself, and CAP is in its range. -/
theorem resetMeetsTheInvariant : Obligations.ResetMeetsTheInvariant := by
  unfold Obligations.ResetMeetsTheInvariant
  exact applyReset_inv (s := State.reset) configCap_range

theorem AccessEnds.inv {s t : State} {a : Access} (h : AccessEnds s a t) (hs : s.Inv) : t.Inv := by
  cases h with
  | err => exact hs.respond _
  | read => exact hs.respond _
  | readFree => exact hs.unconstrained ..
  | writeReg => exact (hs.writeReg ..).respond _
  | writeBuf _ _ _ b m _ _ hm => exact (hs.unlessBusy (hs.setBuffer (hm (hs.bufferLegal b)))).respond _

/-- The largest required count (R16): no sum of a 32-bit index and eight times a 32-bit length exceeds it. -/
theorem required_le (idx len : Word) : idx.toNat + 8 * len.toNat ≤ 0x8FFFFFFF7 := by omega

/-- A payload that fits below CLEN from some start fits PBUF, since CLEN is within CAP (R44). -/
theorem payload_fits {start len clen cap : Nat} (h : start + 8 * len ≤ clen) (hc : clen ≤ cap) :
    0 + len ≤ cap / 8 := by omega

theorem encodeInto_legal {size : Nat} {s : State} {out : Memory} (he : encodeInto s = .ok out)
    (hn : s.clen.toNat ≤ size) (hl : s.outBuf.legal size) : out.legal size := by
  obtain ⟨copied, headed, hcopy, hhdr, hpay⟩ := encodeInto_ok he
  exact payWrite_legal hpay (hdrWrite_legal hhdr (copyBytes_legal hcopy hn hl))

theorem CommandEnds.inv {s t : State} {i : Instr} (h : CommandEnds s i t) (hs : s.Inv) : t.Inv := by
  have hidx := required_le s.idx s.plen
  have hout {out : Memory} (ho : out.legal s.cap) : State.Inv { s with outBuf := out } :=
    hs.setBuffer (b := .outBuf) ho
  have hp {bytes : List Byte} {n : Nat} (hl : bytes.length = n) (hn : 0 + n ≤ s.cap / 8) :
      State.Inv { s with pBuf := s.pBuf.writeBytes 0 bytes } :=
    hs.setBuffer (b := .pBuf) (Memory.writeBytes_legal _ (hl ▸ hn) hs.pLegal)
  cases h with
  | badLength => exact hs.endMisuse ..
  | setbitRange | getbitRange => exact (hs.report (by omega)).endMisuse ..
  | setbit _ _ _ _ ho => exact ((hout (setbit_legal ho hs.outLegal)).report (by omega)).complete (by simp) _
  | getbit => exact ((hs.unconstrained ..).report (by omega)).complete (by simp) _
  | hdrEncShort | hdrDecShort => exact (hs.report (by omega)).complete (by simp) _
  | hdrEnc _ _ _ ho => exact ((hout (hdrWrite_legal ho hs.outLegal)).report (by omega)).complete (by simp) _
  | hdrDec => exact ((hs.unconstrained ..).report (by omega)).complete (by simp) _
  | payEncRange | payDecRange => exact (hs.report hidx).complete (by simp) _
  | payEnc _ _ _ ho => exact ((hout (payWrite_legal ho hs.outLegal)).report hidx).complete (by simp) _
  | payDec _ _ hc h hr => exact ((hp (payRead_bits hr).1 (payload_fits h hc)).report hidx).complete (by simp) _
  | copy _ hc ho => exact (hout (copyBytes_legal ho hc hs.outLegal)).complete (by simp) _
  | encodeRange => exact (hs.report (by omega)).complete (by simp) _
  | encode _ hc h ho => exact ((hout (encodeInto_legal ho hc hs.outLegal)).report (by omega)).complete (by simp) _
  | decodeShort => exact ((hs.unconstrained ..).report (by omega)).complete (by simp) _
  | decodeLength => exact ((hs.unconstrained ..).report (by omega)).complete (by simp) _
  | decode _ _ _ hc _ _ hl hr =>
    exact (((hp (payRead_bits hr).1 (payload_fits hl hc)).unconstrained ..).report (by omega)).complete (by simp) _
  | decodeUtf8 _ _ _ hc _ _ hl =>
    exact (((hp (drawBytes_length ..) (payload_fits hl hc)).unconstrained ..).report (by omega)).complete (by simp) _

/-! ### The step -/

theorem runWord_inv {w : Word} {s t : State} (hs : s.Inv) (h : runWord w s = .next t) : t.Inv := by
  obtain ⟨-, -, rfl⟩ | ⟨i, -, -, hends⟩ := runWord_ends h
  · exact hs.endMisuse ..
  · exact hends.inv hs

theorem engineTurn_inv {s t : State} (hs : s.Inv) (h : engineTurn s = .next t) : t.Inv := by
  obtain ⟨-, rfl⟩ | ⟨w, -, hw⟩ := engineTurn_ends h
  · exact hs
  · exact runWord_inv hs hw

/-- Settles O50, by the moves a step can make: the engine's turn, an access, the reset input. -/
theorem everyStepKeepsTheInvariant : Obligations.EveryStepKeepsTheInvariant := by
  unfold Obligations.EveryStepKeepsTheInvariant
  intro s t hs ht
  have hrest (rest : List Input) : State.Inv { s with inputs := rest } := hs.unconstrained ..
  obtain ⟨-, he⟩ | ⟨rest, -, he⟩ | ⟨a, rest, -, he⟩ | ⟨rest, -, he⟩ := step_cases s <;> rw [he] at ht
  · exact engineTurn_inv hs ht
  · exact engineTurn_inv (hrest rest) ht
  · exact (access_ends ht).inv (hrest rest)
  · cases ht
    exact applyReset_inv hs.capLegal

theorem step_reset {s : State} {rest : List Input} (h : s.inputs = .reset :: rest) :
    step s = .next (applyReset { s with inputs := rest }) := by
  simp [step, move, h]

/-- Settles O48: the reset input is applied to the state with the move taken off. -/
theorem resetInputDropsTheCommand : Obligations.ResetInputDropsTheCommand := by
  unfold Obligations.ResetInputDropsTheCommand
  intro s rest hin
  exact step_reset hin

end Sys2Proof.Machine
end

section
/-! PROOFS. What every command and every captured word leaves, from the list of their ends (30_encoding.md section 2,
60_exceptions.md). -/

namespace Sys2Proof.Machine

/-! ### The end with a host fault, field by field -/

section
variable (m : Misuse) (op : BitVec 4) (s : State)

@[simp] theorem State.endMisuse_cap : (s.endMisuse m op).cap = s.cap := rfl
@[simp] theorem State.endMisuse_ie : (s.endMisuse m op).ie = s.ie := rfl
@[simp] theorem State.endMisuse_done : (s.endMisuse m op).done = true := rfl
@[simp] theorem State.endMisuse_overrun : (s.endMisuse m op).overrun = s.overrun := rfl
@[simp] theorem State.endMisuse_result : (s.endMisuse m op).result = m.code := rfl
@[simp] theorem State.endMisuse_npReason : (s.endMisuse m op).npReason = .none := rfl
@[simp] theorem State.endMisuse_lastOp : (s.endMisuse m op).lastOp = op := rfl
@[simp] theorem State.endMisuse_clen : (s.endMisuse m op).clen = s.clen := rfl
@[simp] theorem State.endMisuse_plen : (s.endMisuse m op).plen = s.plen := rfl
@[simp] theorem State.endMisuse_hdr : (s.endMisuse m op).hdr = s.hdr := rfl
@[simp] theorem State.endMisuse_idx : (s.endMisuse m op).idx = s.idx := rfl
@[simp] theorem State.endMisuse_bitv : (s.endMisuse m op).bitv = s.bitv := rfl
@[simp] theorem State.endMisuse_req : (s.endMisuse m op).req = s.req := rfl
@[simp] theorem State.endMisuse_avail : (s.endMisuse m op).avail = s.avail := rfl
@[simp] theorem State.endMisuse_pBuf : (s.endMisuse m op).pBuf = s.pBuf := rfl
@[simp] theorem State.endMisuse_engine : (s.endMisuse m op).engine = none := rfl
@[simp] theorem State.endMisuse_response : (s.endMisuse m op).response = s.response := rfl
@[simp] theorem State.endMisuse_inputs : (s.endMisuse m op).inputs = s.inputs := rfl
@[simp] theorem State.endMisuse_misuse : (s.endMisuse m op).misuse = m :: s.misuse := rfl

end

@[simp] theorem Misuse.code_indexRange (idx clen : Word) : (Misuse.indexRange idx clen).code = .indexRange := rfl
@[simp] theorem Misuse.code_badLength (clen : Word) : (Misuse.badLength clen).code = .badLength := rfl
@[simp] theorem Misuse.code_illegalCmd (w : Word) : (Misuse.illegalCmd w).code = .illegalCmd := rfl

/-! ### The record of host faults -/

/-- Settles O15: only the ends with BAD_LENGTH, INDEX_RANGE and ILLEGAL_CMD record a fault. -/
theorem hostFaultsAreRecorded : Obligations.HostFaultsAreRecorded := by
  unfold Obligations.HostFaultsAreRecorded
  intro w s t h
  obtain ⟨-, -, rfl⟩ | ⟨i, -, -, hends⟩ := runWord_ends h
  · simp
  · cases hends <;> simp

/-! ### Completion -/

/-- What completion writes, for every end of a command (R205). -/
theorem CommandEnds.status {i : Instr} {s t : State} (h : CommandEnds s i t) :
    t.result ≠ .none ∧ (t.npReason ≠ .none ↔ t.result = .noPayload) ∧ t.lastOp = i.op ∧ t.done = true ∧
      t.engine = none := by
  cases h <;> simp [Instr.op]

theorem runWord_status {w : Word} {s t : State} (h : runWord w s = .next t) :
    t.result ≠ .none ∧ (t.npReason ≠ .none ↔ t.result = .noPayload) ∧ t.lastOp = w.extractLsb' 0 4 ∧ t.done = true ∧
      t.engine = none := by
  obtain ⟨-, -, rfl⟩ | ⟨i, hdec, -, hends⟩ := runWord_ends h
  · simp
  · rw [eq_encode_of_decode_ok hdec, encode_op]
    exact hends.status

/-- The registers and fields that no end of a command writes (R34, R37, R45, R205). -/
theorem CommandEnds.frame {i : Instr} {s t : State} (h : CommandEnds s i t) :
    t.cap = s.cap ∧ t.ie = s.ie ∧ t.overrun = s.overrun ∧ t.clen = s.clen ∧ t.idx = s.idx ∧ t.inBuf = s.inBuf ∧
      t.response = s.response ∧ t.inputs = s.inputs := by
  cases h <;> simp

/-- Settles O20, by the frame of every end. -/
theorem commandsKeepTheHostRegisters : Obligations.CommandsKeepTheHostRegisters := by
  unfold Obligations.CommandsKeepTheHostRegisters
  intro w s t h
  obtain ⟨-, -, rfl⟩ | ⟨i, -, -, hends⟩ := runWord_ends h
  · simp
  · exact hends.frame

/-- Settles O18, from what completion writes and the frame. -/
theorem completionWritesStatus : Obligations.CompletionWritesStatus := by
  unfold Obligations.CompletionWritesStatus
  intro w s t h
  obtain ⟨hresult, hreason, hop, hdone, hengine⟩ := runWord_status h
  obtain ⟨-, hie, hoverrun, -⟩ := commandsKeepTheHostRegisters w s t h
  exact ⟨hresult, hreason, hop, hdone, t.busy_false_iff.2 hengine, hoverrun, by simp [State.irq, hdone, hie]⟩

/-! ### What a command that fails leaves -/

/-- Settles O17: only ends with OK replace OUT, and the one failing end that replaces PBUF is DECODE's with reason UTF8,
which writes as many bytes as the header says. -/
theorem failingChecksComeBeforeWrites : Obligations.FailingChecksComeBeforeWrites := by
  unfold Obligations.FailingChecksComeBeforeWrites
  intro w s t h hfail
  obtain ⟨-, -, rfl⟩ | ⟨i, -, -, hends⟩ := runWord_ends h
  · simp
  · cases hends with
    | badLength | setbitRange | getbitRange | hdrEncShort | hdrDecShort | payEncRange | payDecRange | encodeRange
    | decodeShort | decodeLength => simp
    | setbit | getbit | hdrEnc | hdrDec | payEnc | payDec | copy | encode | decode => exact absurd rfl hfail
    | decodeUtf8 sel len bytes =>
      refine ⟨rfl, rfl, fun hreason => absurd rfl hreason, fun _ a ha => ?_⟩
      rw [State.complete_pBuf, State.report_pBuf, Memory.read_writeBytes, drawBytes_length, if_neg]
      exact fun hin => absurd ha (Nat.not_le.2 (by simpa using hin.2))

/-! ### Which commands write what -/

/-- Settles O21: each end writes only the registers and buffers its command lists (R99). -/
theorem onlyListedCommandsWrite : Obligations.OnlyListedCommandsWrite := by
  unfold Obligations.OnlyListedCommandsWrite
  intro i s t h
  cases exec_ends h with
  | badLength => simp
  | setbitRange | setbit | getbitRange | getbit | hdrEncShort | hdrEnc | hdrDecShort | hdrDec | payEncRange | payEnc
  | payDecRange | payDec | copy | encodeRange | encode | decodeShort => simp
  | decodeLength _ _ _ hlen | decode _ _ _ _ hlen | decodeUtf8 _ _ _ _ hlen => simp [hlen]

/-! ### REQ and AVAIL -/

theorem regValue_reqLo (s : State) : s.regValue .reqLo = BitVec.ofNat 32 (s.req.toNat % 2 ^ 32) := by
  refine BitVec.eq_of_toNat_eq ?_
  simp [State.regValue]

theorem regValue_reqHi (s : State) : s.regValue .reqHi = BitVec.ofNat 32 (s.req.toNat / 2 ^ 32) := by
  refine BitVec.eq_of_toNat_eq ?_
  simp [State.regValue, Nat.shiftRight_eq_div_pow]

/-- Settles O22: every end but BAD_LENGTH and COPY's reports the command's required count and CLEN. -/
theorem requiredAndAvailableAreExact : Obligations.RequiredAndAvailableAreExact := by
  unfold Obligations.RequiredAndAvailableAreExact
  intro i s t h
  have hidx : s.idx.toNat + 8 * s.plen.toNat ≤ 0x8FFFFFFF7 := required_le s.idx s.plen
  refine and_assoc.1 ⟨?_, regValue_reqLo t, regValue_reqHi t⟩
  have reports {p : Prop} (hc : s.clen.toNat ≤ s.cap) (hi : i ≠ .copy) : s.cap < s.clen.toNat ∨ i = .copy → p :=
    fun hor => absurd hor (not_or.2 ⟨Nat.not_lt.2 hc, hi⟩)
  cases exec_ends h with
  | badLength _ hlong => exact ⟨fun _ => ⟨rfl, rfl⟩, fun hc => absurd hlong (Nat.not_lt.2 hc)⟩
  | copy => exact ⟨fun _ => ⟨rfl, rfl⟩, fun _ hi => absurd rfl hi⟩
  | setbitRange _ hc | setbit _ _ hc | getbitRange _ hc | getbit _ _ hc | hdrEncShort hc | hdrEnc _ hc
  | hdrDecShort _ hc | hdrDec _ _ hc | payEncRange hc | payEnc _ hc | payDecRange _ hc | payDec _ _ hc
  | encodeRange hc | encode _ hc =>
    exact ⟨reports hc nofun, fun _ _ => ⟨rfl, req_toNat (by omega)⟩⟩
  | decodeShort _ hc hlen =>
    exact ⟨reports hc nofun, fun _ _ => ⟨rfl, (req_toNat (by omega)).trans (if_pos hlen).symm⟩⟩
  | decodeLength _ _ hc hlen | decode _ _ _ hc hlen | decodeUtf8 _ _ _ hc hlen =>
    exact ⟨reports hc nofun, fun _ _ =>
      ⟨rfl, (req_toNat (by omega)).trans (if_neg (Nat.not_lt.2 hlen)).symm⟩⟩

/-! ### Which bits of OUT change -/

/-- Writes of bit 0 in a range leave every byte outside it, and bits [7:1] of every byte (R71, R110). -/
theorem stripe_frame {m out : Memory} {p n clen : Nat} {f : Nat → Byte} (hread : ∀ a, out.read a = m.stripe p n f a)
    (hfit : p + n ≤ clen) :
    (∀ a, clen ≤ a → out.read a = m.read a) ∧
      ∀ a, (out.read a).map (fun v => v &&& 0xFE#8) = (m.read a).map (fun v => v &&& 0xFE#8) := by
  refine ⟨fun a ha => ?_, fun a => ?_⟩ <;> rw [hread]
  · exact stripe_outside (by omega)
  · exact stripe_keeps_high ..

/-- ENCODE leaves OUT from CLEN on, and below CLEN bits [7:1] of IN (R43, R110). -/
theorem encodeInto_frame {s : State} {out : Memory} (h : 32 + 8 * s.plen.toNat ≤ s.clen.toNat)
    (he : encodeInto s = .ok out) :
    (∀ a, s.clen.toNat ≤ a → out.read a = s.outBuf.read a) ∧
      ∀ a, a < s.clen.toNat →
        (out.read a).map (fun v => v &&& 0xFE#8) = (s.inBuf.read a).map (fun v => v &&& 0xFE#8) := by
  refine ⟨fun a => encodeInto_above h he, fun a ha => ?_⟩
  rw [encodeInto_read h he]
  split_ifs <;> exact stripe_keeps_high ..

/-- Settles O23: OUT is kept, or bit 0 of a range below CLEN is written, or IN is copied first. -/
theorem onlyDataBitsOfOutChange : Obligations.OnlyDataBitsOfOutChange := by
  unfold Obligations.OnlyDataBitsOfOutChange
  intro i s t h
  cases exec_ends h with
  | setbit val out hc hidx ho =>
    obtain ⟨habove, hhigh⟩ := stripe_frame (clen := s.clen.toNat) (setbit_read ho) (by omega)
    exact ⟨habove, fun _ _ => hhigh, nofun⟩
  | hdrEnc out hc hlen ho =>
    obtain ⟨habove, hhigh⟩ := stripe_frame (clen := s.clen.toNat) (hdrWrite_read ho) (by omega)
    exact ⟨habove, fun _ _ => hhigh, nofun⟩
  | payEnc out hc hfit ho =>
    obtain ⟨habove, hhigh⟩ := stripe_frame (clen := s.clen.toNat) (payWrite_read ho) (by omega)
    exact ⟨habove, fun _ _ => hhigh, nofun⟩
  | copy out hc ho =>
    refine ⟨fun a ha => ?_, fun hi => absurd rfl hi, fun _ _ a ha => ?_⟩ <;>
      rw [State.complete_outBuf, copyBytes_read ho]
    · rw [if_neg (by omega)]
    · rw [if_pos ha]
  | encode out hc hfit ho =>
    obtain ⟨habove, hhigh⟩ := encodeInto_frame hfit ho
    exact ⟨habove, fun _ hi => absurd rfl hi, fun _ _ => hhigh⟩
  | badLength | encodeRange => exact ⟨fun _ _ => rfl, fun _ _ _ => rfl, nofun⟩
  | setbitRange | getbitRange | getbit | hdrEncShort | hdrDecShort | hdrDec | payEncRange | payDecRange | payDec
  | decodeShort | decodeLength | decode | decodeUtf8 => exact ⟨fun _ _ => rfl, fun _ _ _ => rfl, nofun⟩

end Sys2Proof.Machine
end

section
/-! PROOFS. What stops a captured word, and that nothing else does (20_memory.md section 4). -/

namespace Sys2Proof.Machine

/-- The fault of reading an unwritten byte in the engine's reach: below CLEN in a carrier, below `floor(CAP / 8)` in
PBUF (R61, R85). -/
def State.UnwrittenInReach (s : State) (e : Fault) : Prop :=
  ∃ b a, e = .uninitRead b a ∧ (s.buffer b).read a = none ∧ (b ≠ .pBuf → a < s.clen.toNat) ∧
    (b = .pBuf → a < s.cap / 8)

/-- A run from `s` gives a next state, or stops on an unwritten byte in reach. -/
def State.EndsOrStops (s : State) (r : Result) : Prop :=
  (∃ t, r = .next t) ∨ ∃ e, r = .fault e ∧ s.UnwrittenInReach e

section
variable {s : State}

theorem endsOrStops_next (t : State) : s.EndsOrStops (.next t) := .inl ⟨t, rfl⟩

theorem unwrittenInReach_carrier {b : Buf} {a : Nat} (hb : b ≠ .pBuf) (hr : (s.buffer b).read a = none)
    (ha : a < s.clen.toNat) : s.UnwrittenInReach (.uninitRead b a) :=
  ⟨b, a, rfl, hr, fun _ => ha, fun h => absurd h hb⟩

theorem unwrittenInReach_pBuf {a : Nat} (hr : s.pBuf.read a = none) (ha : a < s.cap / 8) :
    s.UnwrittenInReach (.uninitRead .pBuf a) :=
  ⟨.pBuf, a, rfl, hr, fun h => absurd rfl h, fun _ => ha⟩

/-- An operation followed by a continuation stops where either does. -/
theorem endsOrStops_onOk {α : Type} {x : Except Fault α} {k : α → Result}
    (hx : ∀ e, x = .error e → s.UnwrittenInReach e) (hk : ∀ a, x = .ok a → s.EndsOrStops (k a)) :
    s.EndsOrStops (onOk x k) := by
  cases x with
  | ok a => exact hk a rfl
  | error e => exact .inr ⟨e, rfl, hx e rfl⟩

theorem hdrRead_stops {sel : Sel} (h : 32 ≤ s.clen.toNat) (e : Fault)
    (he : hdrRead (carrier sel) (s.buffer (carrier sel)) = .error e) : s.UnwrittenInReach e := by
  obtain ⟨a, ha, hr, rfl⟩ := hdrRead_error he
  exact unwrittenInReach_carrier (carrier_ne_pBuf sel) hr (by omega)

theorem payRead_stops {sel : Sel} {start n : Nat} (h : start + 8 * n ≤ s.clen.toNat) (e : Fault)
    (he : payRead (carrier sel) (s.buffer (carrier sel)) start n = .error e) : s.UnwrittenInReach e := by
  obtain ⟨a, -, ha, hr, rfl⟩ := payRead_error he
  exact unwrittenInReach_carrier (carrier_ne_pBuf sel) hr (by omega)

theorem execSetbit_endsOrStops (val : Byte) (hc : s.clen.toNat ≤ s.cap) : s.EndsOrStops (execSetbit val s) := by
  rcases Nat.lt_or_ge s.idx.toNat s.clen.toNat with h | h
  · rw [execSetbit_run hc h]
    refine endsOrStops_onOk (fun e he => ?_) fun _ _ => endsOrStops_next _
    obtain ⟨hr, rfl⟩ := setbit_error.1 he
    exact unwrittenInReach_carrier nofun hr h
  · rw [execSetbit_range hc h]
    exact endsOrStops_next _

theorem execGetbit_endsOrStops (sel : Sel) (hc : s.clen.toNat ≤ s.cap) : s.EndsOrStops (execGetbit sel s) := by
  rcases Nat.lt_or_ge s.idx.toNat s.clen.toNat with h | h
  · rw [execGetbit_run hc h]
    refine endsOrStops_onOk (fun e he => ?_) fun _ _ => endsOrStops_next _
    obtain ⟨hr, rfl⟩ := getbit_error.1 he
    exact unwrittenInReach_carrier (carrier_ne_pBuf sel) hr h
  · rw [execGetbit_range hc h]
    exact endsOrStops_next _

theorem execHdrEnc_endsOrStops (hc : s.clen.toNat ≤ s.cap) : s.EndsOrStops (execHdrEnc s) := by
  rcases Nat.lt_or_ge s.clen.toNat 32 with h | h
  · rw [execHdrEnc_short hc h]
    exact endsOrStops_next _
  · rw [execHdrEnc_run hc h]
    refine endsOrStops_onOk (fun e he => ?_) fun _ _ => endsOrStops_next _
    obtain ⟨a, ha, hr, rfl⟩ := hdrWrite_error he
    exact unwrittenInReach_carrier nofun hr (by omega)

theorem execHdrDec_endsOrStops (sel : Sel) (hc : s.clen.toNat ≤ s.cap) : s.EndsOrStops (execHdrDec sel s) := by
  rcases Nat.lt_or_ge s.clen.toNat 32 with h | h
  · rw [execHdrDec_short hc h]
    exact endsOrStops_next _
  · rw [execHdrDec_run hc h]
    exact endsOrStops_onOk (hdrRead_stops h) fun _ _ => endsOrStops_next _

theorem execPayEnc_endsOrStops (hc : s.clen.toNat ≤ s.cap) : s.EndsOrStops (execPayEnc s) := by
  rcases Nat.lt_or_ge s.clen.toNat (s.idx.toNat + 8 * s.plen.toNat) with h | h
  · rw [execPayEnc_range hc h]
    exact endsOrStops_next _
  · rw [execPayEnc_run hc h]
    refine endsOrStops_onOk (fun e he => ?_) fun _ _ => endsOrStops_next _
    obtain ⟨j, hj, hr, rfl⟩ | ⟨a, -, ha, hr, rfl⟩ := payWrite_error he
    · exact unwrittenInReach_pBuf hr (by omega)
    · exact unwrittenInReach_carrier nofun hr (by omega)

theorem execPayDec_endsOrStops (sel : Sel) (hc : s.clen.toNat ≤ s.cap) : s.EndsOrStops (execPayDec sel s) := by
  rcases Nat.lt_or_ge s.clen.toNat (s.idx.toNat + 8 * s.plen.toNat) with h | h
  · rw [execPayDec_range hc h]
    exact endsOrStops_next _
  · rw [execPayDec_run hc h]
    exact endsOrStops_onOk (payRead_stops h) fun _ _ => endsOrStops_next _

theorem execCopy_endsOrStops (hc : s.clen.toNat ≤ s.cap) : s.EndsOrStops (execCopy s) := by
  rw [execCopy_run hc]
  refine endsOrStops_onOk (fun e he => ?_) fun _ _ => endsOrStops_next _
  obtain ⟨a, ha, hr, rfl⟩ := copyBytes_error he
  exact unwrittenInReach_carrier nofun hr ha

theorem execEncode_endsOrStops (hc : s.clen.toNat ≤ s.cap) : s.EndsOrStops (execEncode s) := by
  rcases Nat.lt_or_ge s.clen.toNat (32 + 8 * s.plen.toNat) with h | h
  · rw [execEncode_range hc h]
    exact endsOrStops_next _
  · rw [execEncode_run hc h]
    refine endsOrStops_onOk (fun e he => ?_) fun _ _ => endsOrStops_next _
    obtain ⟨a, ha, hr, rfl⟩ | ⟨j, hj, hr, rfl⟩ := encodeInto_error h he
    · exact unwrittenInReach_carrier nofun hr ha
    · exact unwrittenInReach_pBuf hr (by omega)

/-- DECODE's last part always completes, valid UTF-8 or not (R182 step 3). -/
theorem decodeFinish_endsOrStops (len : Word) (bytes : List Byte) (u : State) :
    s.EndsOrStops (decodeFinish len bytes u) := by
  unfold decodeFinish
  split <;> exact endsOrStops_next _

theorem execDecode_endsOrStops (sel : Sel) (hc : s.clen.toNat ≤ s.cap) : s.EndsOrStops (execDecode sel s) := by
  rcases Nat.lt_or_ge s.clen.toNat 32 with h | h
  · rw [execDecode_short hc h]
    exact endsOrStops_next _
  cases hr : hdrRead (carrier sel) (s.buffer (carrier sel)) with
  | error e =>
    rw [execDecode_unwritten hc h hr]
    exact .inr ⟨e, rfl, hdrRead_stops h e hr⟩
  | ok len =>
    rcases Nat.lt_or_ge s.clen.toNat (32 + 8 * len.toNat) with hl | hl
    · rw [execDecode_length hc h hr hl]
      exact endsOrStops_next _
    · rw [execDecode_run hc h hr hl]
      exact endsOrStops_onOk (payRead_stops hl) fun _ _ => decodeFinish_endsOrStops ..

theorem exec_endsOrStops (i : Instr) : s.EndsOrStops (exec i s) := by
  rcases Nat.lt_or_ge s.cap s.clen.toNat with hlong | hc
  · rw [exec_badLength hlong]
    exact endsOrStops_next _
  cases i with
  | setbit val => exact execSetbit_endsOrStops val hc
  | getbit sel => exact execGetbit_endsOrStops sel hc
  | hdrEnc => exact execHdrEnc_endsOrStops hc
  | hdrDec sel => exact execHdrDec_endsOrStops sel hc
  | payEnc => exact execPayEnc_endsOrStops hc
  | payDec sel => exact execPayDec_endsOrStops sel hc
  | copy => exact execCopy_endsOrStops hc
  | encode => exact execEncode_endsOrStops hc
  | decode sel => exact execDecode_endsOrStops sel hc

end

theorem runWord_endsOrStops (w : Word) (s : State) : s.EndsOrStops (runWord w s) := by
  cases hdec : decode w with
  | error e =>
    rw [runWord_error hdec]
    exact endsOrStops_next _
  | ok i =>
    rw [runWord_ok hdec]
    exact exec_endsOrStops i

/-- Settles O24: the errors of the shared operations name an unwritten byte in reach, and nothing else stops a word. -/
theorem onlyAnUnwrittenByteStopsTheEngine : Obligations.OnlyAnUnwrittenByteStopsTheEngine := by
  unfold Obligations.OnlyAnUnwrittenByteStopsTheEngine
  intro w s
  refine (runWord_endsOrStops w s).imp_right ?_
  rintro ⟨_, hfault, b, a, rfl, hreach⟩
  exact ⟨b, a, hfault, hreach⟩

/-- With every byte in reach written, no word stops. -/
theorem runWord_completes (w : Word) {s : State} (hin : s.written .inBuf 0 s.clen.toNat)
    (hout : s.written .outBuf 0 s.clen.toNat) (hp : s.written .pBuf 0 (s.cap / 8)) : ∃ t, runWord w s = .next t := by
  obtain hnext | ⟨_, -, b, a, rfl, hr, hcarrier, hpay⟩ := runWord_endsOrStops w s
  · exact hnext
  · have hwritten : ∃ v, (s.buffer b).read a = some v := by
      cases b with
      | inBuf => exact hin a (Nat.zero_le a) (hcarrier nofun)
      | outBuf => exact hout a (Nat.zero_le a) (hcarrier nofun)
      | pBuf => exact hp a (Nat.zero_le a) (hpay rfl)
    simp [hr] at hwritten

/-- A step in which the outside world makes no move is the engine's turn (R211). -/
theorem step_engineMoves {s : State} (h : s.engineMoves) : step s = engineTurn { s with inputs := s.inputs.tail } := by
  obtain hin | ⟨rest, hin⟩ := h
  · rw [step, move, hin]
    cases s
    cases hin
    rfl
  · rw [step, move, hin]
    rfl

/-- Settles O25: the word completes because every byte in reach is written, and completion clears BUSY and sets DONE. -/
theorem writtenBuffersLetEveryWordComplete : Obligations.WrittenBuffersLetEveryWordComplete := by
  unfold Obligations.WrittenBuffersLetEveryWordComplete
  intro w s hw hturn hin hout hp
  obtain ⟨t, ht⟩ := runWord_completes w (s := { s with inputs := s.inputs.tail }) hin hout hp
  obtain ⟨-, -, -, hdone, hengine⟩ := runWord_status ht
  have hrun : engineTurn { s with inputs := s.inputs.tail } = .next t := by
    rw [← ht]
    exact engineTurn_some hw
  exact ⟨t, (step_engineMoves hturn).trans hrun, t.busy_false_iff.2 hengine, hdone⟩

end Sys2Proof.Machine
end

section
/-! PROOFS. The results of each command (R204), and what a command's effect does not depend on (R17). -/

namespace Sys2Proof.Machine

/-! ### Every listed result can be produced -/

/-- RESULT and NP_REASON after a run that completes. -/
def reported : Result → Option (ResultCode × NpReason)
  | .next t => some (t.result, t.npReason)
  | .fault _ | .refused _ => none

theorem reported_eq_some {x : Result} {c : ResultCode} {r : NpReason} (h : reported x = some (c, r)) :
    ∃ t, x = .next t ∧ t.result = c ∧ t.npReason = r := by
  cases x with
  | next t => exact ⟨t, rfl, by simpa [reported] using h⟩
  | fault | refused => cases h

/-- A state whose two carriers, of exactly CLEN bytes, hold `zeros` data bits 0 and then `ones` data bits 1. -/
def bitsState (zeros ones : Nat) : State :=
  let bits : Memory := Memory.writeBytes [] 0 (List.replicate zeros 0#8 ++ List.replicate ones 1#8)
  { State.reset with cap := 64, clen := BitVec.ofNat 32 (zeros + ones), inBuf := bits, outBuf := bits }

/-- A result seen in one run with `CLEN ≤ CAP` is one the command can produce. -/
theorem produces_of_run {i : Instr} {c : ResultCode} {r : NpReason} (s : State) (hc : s.clen.toNat ≤ s.cap)
    (h : reported (exec i s) = some (c, r)) :
    ∃ s t : State, s.clen.toNat ≤ s.cap ∧ exec i s = .next t ∧ t.result = c ∧ t.npReason = r :=
  ⟨s, (reported_eq_some h).imp fun _ ht => ⟨hc, ht⟩⟩

/-- Settles O16: no end reports anything else, and a run shows each listed result, on empty carriers, on 32 bits 0, on a
header too large, and on the one payload byte FF. -/
theorem resultsAreThoseOfTheTable : Obligations.ResultsAreThoseOfTheTable := by
  unfold Obligations.ResultsAreThoseOfTheTable
  intro i c r
  constructor
  · rintro ⟨s, t, hc, h, rfl, rfl⟩
    cases exec_ends h with
    | badLength _ hlong => exact absurd hlong (Nat.not_lt.2 hc)
    | setbitRange | setbit | getbitRange | getbit | hdrEncShort | hdrEnc | hdrDecShort | hdrDec | payEncRange | payEnc
    | payDecRange | payDec | copy | encodeRange | encode | decodeShort | decodeLength | decode | decodeUtf8 => simp
  · intro h
    cases i <;> simp only [List.mem_cons, List.not_mem_nil, or_false, Prod.mk.injEq] at h
    case setbit val =>
      obtain ⟨rfl, rfl⟩ | ⟨rfl, rfl⟩ := h
      · exact produces_of_run (bitsState 32 0) (by decide) rfl
      · exact produces_of_run (bitsState 0 0) (by decide) rfl
    case getbit sel =>
      obtain ⟨rfl, rfl⟩ | ⟨rfl, rfl⟩ := h
      · exact produces_of_run (bitsState 32 0) (by decide) (by cases sel <;> rfl)
      · exact produces_of_run (bitsState 0 0) (by decide) rfl
    case hdrEnc =>
      obtain ⟨rfl, rfl⟩ | ⟨rfl, rfl⟩ := h
      · exact produces_of_run (bitsState 32 0) (by decide) (by decide +kernel)
      · exact produces_of_run (bitsState 0 0) (by decide) rfl
    case hdrDec sel =>
      obtain ⟨rfl, rfl⟩ | ⟨rfl, rfl⟩ := h
      · exact produces_of_run (bitsState 32 0) (by decide) (by cases sel <;> decide +kernel)
      · exact produces_of_run (bitsState 0 0) (by decide) rfl
    case payEnc =>
      obtain ⟨rfl, rfl⟩ | ⟨rfl, rfl⟩ := h
      · exact produces_of_run (bitsState 0 0) (by decide) (by decide +kernel)
      · exact produces_of_run { bitsState 0 0 with plen := 1#32 } (by decide) (by decide +kernel)
    case payDec sel =>
      obtain ⟨rfl, rfl⟩ | ⟨rfl, rfl⟩ := h
      · exact produces_of_run (bitsState 0 0) (by decide) (by cases sel <;> decide +kernel)
      · exact produces_of_run { bitsState 0 0 with plen := 1#32 } (by decide) (by cases sel <;> decide +kernel)
    case copy =>
      obtain ⟨rfl, rfl⟩ := h
      exact produces_of_run (bitsState 0 0) (by decide) (by decide +kernel)
    case encode =>
      obtain ⟨rfl, rfl⟩ | ⟨rfl, rfl⟩ := h
      · exact produces_of_run (bitsState 32 0) (by decide) (by decide +kernel)
      · exact produces_of_run (bitsState 0 0) (by decide) rfl
    case decode sel =>
      obtain ⟨rfl, rfl⟩ | ⟨rfl, rfl⟩ | ⟨rfl, rfl⟩ | ⟨rfl, rfl⟩ := h
      · exact produces_of_run (bitsState 32 0) (by decide) (by cases sel <;> decide +kernel)
      · exact produces_of_run (bitsState 0 0) (by decide) rfl
      · exact produces_of_run (bitsState 0 32) (by decide) (by cases sel <;> decide +kernel)
      · exact produces_of_run (bitsState 31 9) (by decide) (by cases sel <;> decide +kernel)

/-! ### A command runs as its end says -/

/-- The list of ends is exact: a command ends so whenever the end's conditions hold. -/
theorem CommandEnds.exec_eq {i : Instr} {s t : State} (h : CommandEnds s i t) : exec i s = .next t := by
  cases h with
  | badLength _ h => exact exec_badLength h _
  | setbitRange _ hc h => exact execSetbit_range hc h
  | setbit _ _ hc h ho => exact execSetbit_ok hc h ho
  | getbitRange _ hc h => exact execGetbit_range hc h
  | getbit _ _ hc h hb => exact execGetbit_ok hc h hb
  | hdrEncShort hc h => exact execHdrEnc_short hc h
  | hdrEnc _ hc h ho => exact execHdrEnc_ok hc h ho
  | hdrDecShort _ hc h => exact execHdrDec_short hc h
  | hdrDec _ _ hc h hr => exact execHdrDec_ok hc h hr
  | payEncRange hc h => exact execPayEnc_range hc h
  | payEnc _ hc h ho => exact execPayEnc_ok hc h ho
  | payDecRange _ hc h => exact execPayDec_range hc h
  | payDec _ _ hc h hp => exact execPayDec_ok hc h hp
  | copy _ hc ho => exact execCopy_ok hc ho
  | encodeRange hc h => exact execEncode_range hc h
  | encode _ hc h ho => exact execEncode_ok hc h ho
  | decodeShort _ hc h => exact execDecode_short hc h
  | decodeLength _ _ hc h hr hl => exact execDecode_length hc h hr hl
  | decode _ _ _ hc h hr hl hp hv => exact execDecode_ok hc h hr hl hp hv
  | decodeUtf8 _ _ _ hc h hr hl hp hv => exact execDecode_utf8 hc h hr hl hp hv

theorem exec_next_iff {i : Instr} {s t : State} : exec i s = .next t ↔ CommandEnds s i t :=
  ⟨exec_ends, CommandEnds.exec_eq⟩

/-- Settles O26: the conditions and the writes of every end name only the operands and buffers (R17). -/
theorem commandsAreStateless : Obligations.CommandsAreStateless := by
  unfold Obligations.CommandsAreStateless
  intro i s t ie done overrun result reason op engine response inputs h
  rw [exec_next_iff] at h ⊢
  cases h with
  | badLength _ h => exact .badLength _ h
  | setbitRange _ hc h => exact .setbitRange _ hc h
  | setbit _ _ hc h ho => exact .setbit _ _ hc h ho
  | getbitRange _ hc h => exact .getbitRange _ hc h
  | getbit sel b hc h hb => exact .getbit sel b hc h (by cases sel <;> exact hb)
  | hdrEncShort hc h => exact .hdrEncShort hc h
  | hdrEnc _ hc h ho => exact .hdrEnc _ hc h ho
  | hdrDecShort _ hc h => exact .hdrDecShort _ hc h
  | hdrDec sel v hc h hr => exact .hdrDec sel v hc h (by cases sel <;> exact hr)
  | payEncRange hc h => exact .payEncRange hc h
  | payEnc _ hc h ho => exact .payEnc _ hc h ho
  | payDecRange _ hc h => exact .payDecRange _ hc h
  | payDec sel bytes hc h hp => exact .payDec sel bytes hc h (by cases sel <;> exact hp)
  | copy _ hc ho => exact .copy _ hc ho
  | encodeRange hc h => exact .encodeRange hc h
  | encode out hc h ho => exact .encode out hc h ho
  | decodeShort _ hc h => exact .decodeShort _ hc h
  | decodeLength sel len hc h hr hl => exact .decodeLength sel len hc h (by cases sel <;> exact hr) hl
  | decode sel len bytes hc h hr hl hp hv =>
    exact .decode sel len bytes hc h (by cases sel <;> exact hr) hl (by cases sel <;> exact hp) hv
  | decodeUtf8 sel len bytes hc h hr hl hp hv =>
    exact .decodeUtf8 sel len bytes hc h (by cases sel <;> exact hr) hl (by cases sel <;> exact hp) hv

end Sys2Proof.Machine
end

section
/-! PROOFS. The laws of the bit accessor (R115), the round trips of the header and of the raw payload (R134, R158), and
ENCODE's parts and boundary (R188, R192). -/

namespace Sys2Proof.Machine

/-! ### One byte -/

theorem and_one_of_lsb {x y : Byte} (h : x.getLsbD 0 = y.getLsbD 0) : x &&& 1#8 = y &&& 1#8 := by
  refine BitVec.eq_of_getLsbD_eq fun i _ => ?_
  rcases Nat.eq_zero_or_pos i with rfl | hi
  · simp only [BitVec.getLsbD_and, h]
  · simp [BitVec.getLsbD_one, hi.ne']

theorem withLsb_self (v : Byte) : withLsb v v = v := by
  refine BitVec.eq_of_getLsbD_eq fun i _ => ?_
  rcases Nat.eq_zero_or_pos i with rfl | hi
  · exact withLsb_lsb v v
  · exact withLsb_high v v hi.ne'

theorem withLsb_withLsb (old v w : Byte) : withLsb (withLsb old v) w = withLsb old w := by
  refine BitVec.eq_of_getLsbD_eq fun i _ => ?_
  rcases Nat.eq_zero_or_pos i with rfl | hi
  · rw [withLsb_lsb, withLsb_lsb]
  · rw [withLsb_high _ _ hi.ne', withLsb_high _ _ hi.ne', withLsb_high _ _ hi.ne']

/-- Settles O27: `setbit` replaces one byte by `withLsb`, whose laws these are (R115). -/
theorem bitAccessorLaws : Obligations.BitAccessorLaws := by
  unfold Obligations.BitAccessorLaws
  intro m m' p v h
  obtain ⟨old, hold, rfl⟩ := setbit_ok.1 h
  have hread : (m.write p (withLsb old v)).read p = some (withLsb old v) := Memory.read_write_same ..
  refine ⟨?_, fun g hg => ?_, fun w n hn => ?_, fun i hi => ?_, fun q hq => Memory.read_write_other _ _ hq⟩
  · exact getbit_ok.2 ⟨_, hread, and_one_of_lsb (withLsb_lsb old v).symm⟩
  · obtain ⟨x, hx, rfl⟩ := getbit_ok.1 hg
    refine ⟨_, setbit_ok.2 ⟨x, hx, rfl⟩, fun a => ?_⟩
    rw [withLsb_and_one, withLsb_self, Memory.read_write]
    split_ifs with ha
    · rw [ha, hx]
    · rfl
  · obtain ⟨x, hx, rfl⟩ := setbit_ok.1 hn
    obtain rfl : withLsb old v = x := Option.some.inj (hread.symm.trans hx)
    refine ⟨_, setbit_ok.2 ⟨old, hold, rfl⟩, fun a => ?_⟩
    rw [withLsb_withLsb, Memory.read_write, Memory.read_write, Memory.read_write]
    split_ifs <;> rfl
  · rw [hread, hold, Option.map_some, Option.map_some, withLsb_high _ _ (by omega)]

/-! ### Round trips -/

/-- Settles O28: the header bits written are read back, and a header write changes bit 0 of 32 bytes only. -/
theorem headerRoundTrip : Obligations.HeaderRoundTrip := by
  unfold Obligations.HeaderRoundTrip
  intro s hlen hc hw
  obtain ⟨out, hout⟩ := hdrWrite_total (out := s.outBuf) s.hdr ((written_zero_iff ..).1 hw)
  refine ⟨_, execHdrEnc_ok hc hlen hout, rfl, fun a ha => ?_, fun a i hi => ?_, fun u hu hclen hcap => ?_⟩
  · rw [State.complete_outBuf, State.report_outBuf, hdrWrite_read hout, stripe_outside (by omega)]
  · rw [State.complete_outBuf, State.report_outBuf, hdrWrite_read hout, stripe_keeps _ _ _ _ _ (by omega)]
  · have hread : hdrRead .outBuf u.outBuf = .ok s.hdr := by
      rw [hu]
      exact hdrRead_of_hdrWrite hout
    exact ⟨_, execHdrDec_ok (sel := .output) (by rwa [hclen, hcap]) (by rwa [hclen]) hread, rfl, rfl⟩

/-- PBUF after a read of `n` bytes into it holds those bytes. -/
theorem read_writeBytes_zero {m : Memory} {bytes : List Byte} {j : Nat} (hj : j < bytes.length) :
    (m.writeBytes 0 bytes).read j = bytes[j]? := by
  rw [Memory.read_writeBytes, if_pos ⟨Nat.zero_le j, by omega⟩, Nat.sub_zero]

/-- Settles O29: the payload bits written are read back, whatever PBUF held in between. -/
theorem rawPayloadRoundTrip : Obligations.RawPayloadRoundTrip := by
  unfold Obligations.RawPayloadRoundTrip
  intro s hfit hc hp hw
  rw [written_zero_iff] at hp
  obtain ⟨out, hout⟩ := payWrite_total (pbuf := s.pBuf) (out := s.outBuf) hp hw
  obtain ⟨p, hlen, hbytes⟩ := exists_bytes hp
  refine ⟨_, execPayEnc_ok hc hfit hout, rfl, fun u hu hclen hcap hidx hplen => ?_⟩
  have hread : payRead .outBuf u.outBuf u.idx.toNat u.plen.toNat = .ok p := by
    rw [hu, hidx, hplen]
    exact payRead_of_payWrite hout hlen hbytes
  refine ⟨_, execPayDec_ok (sel := .output) (by rwa [hclen, hcap]) (by rwa [hclen, hidx, hplen]) hread, rfl,
    fun j hj => ?_⟩
  have hjp : j < p.length := by omega
  rw [State.complete_pBuf, State.report_pBuf, read_writeBytes_zero hjp, List.getElem?_eq_getElem hjp]
  exact (hbytes j _ (List.getElem?_eq_getElem hjp)).symm

/-! ### ENCODE -/

/-- Settles O31: ENCODE's three buffer steps are those of the three commands. -/
theorem encodeIsCopyHeaderPayload : Obligations.EncodeIsCopyHeaderPayload := by
  unfold Obligations.EncodeIsCopyHeaderPayload
  intro s t hfit hc h
  cases exec_ends h with
  | badLength _ hlong => exact absurd hlong (Nat.not_lt.2 hc)
  | encodeRange _ hrange => exact absurd hrange (Nat.not_lt.2 hfit)
  | encode out _ _ ho =>
    obtain ⟨copied, headed, hcopy, hhdr, hpay⟩ := encodeInto_ok ho
    have hlen : 32 ≤ s.clen.toNat := by omega
    refine ⟨_, _, execCopy_ok hc hcopy, execHdrEnc_ok hc hlen hhdr, ?_⟩
    exact execPayEnc_ok hc hfit hpay

/-- Settles O35, by the two ends of ENCODE on either side of the boundary. -/
theorem encodeCapacityBoundary : Obligations.EncodeCapacityBoundary := by
  unfold Obligations.EncodeCapacityBoundary
  refine fun s hc => ⟨fun hfit hin hp => ?_, fun hbelow => ?_⟩
  · rw [written_zero_iff] at hin hp
    obtain ⟨out, hout⟩ := encodeInto_total hfit.ge hin hp
    exact ⟨_, execEncode_ok hc hfit.ge hout, rfl⟩
  · exact ⟨_, execEncode_range hc (by omega), rfl, req_toNat (by omega), Nat.eq_sub_of_add_eq hbelow⟩

end Sys2Proof.Machine
end

section
/-! PROOFS. The UTF-8 check is the table of byte ranges (R171). -/

namespace Sys2Proof.Machine

/-- The ranges a first byte asks of the bytes after it, one by one; none for a byte that starts no sequence (R171). -/
def Utf8Lead.tail : Utf8Lead → Option (List (Byte × Byte))
  | .invalid => none
  | .one => some []
  | .two lo hi => some [(lo, hi)]
  | .three lo hi => some [(lo, hi), (0x80#8, 0xBF#8)]
  | .four lo hi => some [(lo, hi), (0x80#8, 0xBF#8), (0x80#8, 0xBF#8)]

/-- A byte in a row's first range asks the rest of the row of the bytes after it. -/
theorem utf8Lead_tail_of_row {b : Byte} {r : Byte × Byte} {rs : List (Byte × Byte)} (hrow : r :: rs ∈ utf8Rows)
    (h : r.1 ≤ b ∧ b ≤ r.2) : (utf8Lead b).tail = some rs := by
  have table : ∀ b : Byte, utf8Rows.all (fun row =>
      row.head?.all fun r => !inRange r.1 r.2 b || (utf8Lead b).tail == some row.tail) = true := by
    decide +kernel
  simpa [inRange, h] using List.all_eq_true.1 (table b) _ hrow

/-- What a first byte asks of the bytes after it is the rest of a row that starts with it. -/
theorem row_of_utf8Lead_tail {b : Byte} {rs : List (Byte × Byte)} (h : (utf8Lead b).tail = some rs) :
    ∃ r, r :: rs ∈ utf8Rows ∧ r.1 ≤ b ∧ b ≤ r.2 := by
  have table : ∀ b : Byte, ∀ rs ∈ (utf8Lead b).tail,
      ∃ row ∈ utf8Rows, ∃ r ∈ row.head?, r.1 ≤ b ∧ b ≤ r.2 ∧ row.tail = rs := by
    decide +kernel
  obtain ⟨row, hrow, r, hr, hlo, hhi, rfl⟩ := table b rs h
  exact ⟨r, by rwa [List.cons_head?_tail hr], hlo, hhi⟩

@[simp] theorem inRange_iff {lo hi b : Byte} : inRange lo hi b = true ↔ lo ≤ b ∧ b ≤ hi := by
  simp [inRange]

@[simp] theorem isCont_iff {b : Byte} : isCont b = true ↔ 0x80#8 ≤ b ∧ b ≤ 0xBF#8 := inRange_iff

/-- The check goes on after a first byte exactly when the bytes after it fit what it asks. -/
theorem utf8Valid_cons_iff (b : Byte) (rest : List Byte) : utf8Valid (b :: rest) = true ↔
    ∃ rs, (utf8Lead b).tail = some rs ∧ ∃ q rest', FitsRow rs q ∧ rest = q ++ rest' ∧ utf8Valid rest' = true := by
  rw [utf8Valid]
  cases utf8Lead b with
  | invalid => simp [Utf8Lead.tail]
  | one => simp [Utf8Lead.tail, FitsRow]
  | two lo hi =>
    rcases rest with _ | ⟨c1, rest⟩ <;> simp [Utf8Lead.tail, FitsRow, List.forall₂_cons_left_iff]
  | three lo hi =>
    rcases rest with _ | ⟨c1, _ | ⟨c2, rest⟩⟩ <;> simp [Utf8Lead.tail, FitsRow, List.forall₂_cons_left_iff]
  | four lo hi =>
    rcases rest with _ | ⟨c1, _ | ⟨c2, _ | ⟨c3, rest⟩⟩⟩ <;>
      simp [Utf8Lead.tail, FitsRow, List.forall₂_cons_left_iff, and_assoc]

/-- Bytes that the check accepts split into sequences of the table: the first by its first byte, the others by
recursion on the bytes after it. -/
theorem wellFormed_of_utf8Valid : ∀ p : List Byte, utf8Valid p = true → WellFormedUtf8 p
  | [], _ => ⟨[], rfl, nofun⟩
  | b :: rest, h => by
    obtain ⟨rs, hlead, q, rest', hfit, hrest, hvalid⟩ := (utf8Valid_cons_iff b rest).1 h
    obtain ⟨r, hrow, hb⟩ := row_of_utf8Lead_tail hlead
    have hlen : rest'.length ≤ rest.length := by simp [hrest]
    obtain ⟨seqs, hseqs, hrows⟩ := wellFormed_of_utf8Valid rest' hvalid
    refine ⟨(b :: q) :: seqs, by rw [List.flatten_cons, ← hseqs, List.cons_append, hrest], fun x hx => ?_⟩
    obtain rfl | hx := List.mem_cons.1 hx
    · exact ⟨r :: rs, hrow, .cons hb hfit⟩
    · exact hrows x hx
termination_by p => p.length
decreasing_by simp only [List.length_cons]; omega

/-- The check passes over a sequence that fits a row. -/
theorem utf8Valid_append_of_fitsRow {row : List (Byte × Byte)} (hrow : row ∈ utf8Rows) {q rest : List Byte}
    (hfit : FitsRow row q) (hrest : utf8Valid rest = true) : utf8Valid (q ++ rest) = true := by
  cases hfit with
  | nil => exact absurd hrow (by decide)
  | cons hb hfit =>
    exact (utf8Valid_cons_iff ..).2 ⟨_, utf8Lead_tail_of_row hrow hb, _, rest, hfit, rfl, hrest⟩

theorem utf8Valid_flatten {seqs : List (List Byte)} (h : ∀ q ∈ seqs, ∃ row ∈ utf8Rows, FitsRow row q) :
    utf8Valid seqs.flatten = true := by
  induction seqs with
  | nil => rfl
  | cons q seqs ih =>
    obtain ⟨row, hrow, hfit⟩ := h q List.mem_cons_self
    exact utf8Valid_append_of_fitsRow hrow hfit (ih fun x hx => h x (List.mem_cons_of_mem _ hx))

theorem utf8Valid_iff (p : List Byte) : utf8Valid p = true ↔ WellFormedUtf8 p := by
  refine ⟨wellFormed_of_utf8Valid p, ?_⟩
  rintro ⟨seqs, rfl, hrows⟩
  exact utf8Valid_flatten hrows

/-- Settles O36, by recursion on the bytes one way and on the sequences the other. -/
theorem utf8CheckIsTheTable : Obligations.Utf8CheckIsTheTable := by
  unfold Obligations.Utf8CheckIsTheTable
  exact utf8Valid_iff

end Sys2Proof.Machine
end

section
/-! PROOFS. DECODE (43_orchestrator.md): its words and ends, the round trip with ENCODE, its parts, and what it does not
depend on. -/

namespace Sys2Proof

theorem CmdFields.instr_of_op_decode {f : CmdFields} (h : f.op = 0x9#4) :
    f.instr = .ok (.decode (Sel.ofBit f.sel)) := by
  simp [CmdFields.instr, h]

/-- The words `0x00000009` and `0x00000019` are DECODE's (R182). -/
theorem decode_decode_word {w : Word} (h : w &&& 0xFFFFFFEF#32 = 0x00000009#32) :
    decode w = .ok (.decode (if w.getLsbD 4 then .output else .input)) := by
  obtain ⟨hdec, hop⟩ := decode_of_matches_row (r := opcodeTable[8]) (by decide) h
  rw [hdec, CmdFields.instr_of_op_decode hop, Sel.ofBit_ofWord_sel]

end Sys2Proof

namespace Sys2Proof.Machine

/-! ### The ends of DECODE -/

theorem exec_decode (sel : Sel) (s : State) : exec (.decode sel) s = execDecode sel s := rfl

theorem hdrRead_carrier {sel : Sel} {s : State} {len : Word} (h : CarriesHeader (s.cb sel) len) :
    hdrRead (carrier sel) (s.buffer (carrier sel)) = .ok len := by
  rw [buffer_carrier]
  exact hdrRead_of_carriesHeader h

theorem payRead_carrier {sel : Sel} {s : State} {start n : Nat} {p : List Byte} (hp : p.length = n)
    (h : CarriesPayload (s.cb sel) start p) :
    payRead (carrier sel) (s.buffer (carrier sel)) start n = .ok p := by
  rw [buffer_carrier, ← hp]
  exact payRead_of_carriesPayload h

theorem utf8Valid_eq_false_iff (p : List Byte) : utf8Valid p = false ↔ ¬ WellFormedUtf8 p := by
  rw [← utf8Valid_iff, Bool.not_eq_true]

theorem execDecode_unwrittenHeader {sel : Sel} {s : State} (hc : s.clen.toNat ≤ s.cap) (h : 32 ≤ s.clen.toNat)
    (hw : ¬ s.written (cbBuf sel) 0 32) :
    ∃ a, a < 32 ∧ (s.cb sel).read a = none ∧ execDecode sel s = .fault (.uninitRead (cbBuf sel) a) := by
  rw [written_cbBuf_iff] at hw
  obtain ⟨a, ha, hnone, he⟩ := hdrRead_unwritten (carrier sel) hw
  rw [← buffer_carrier] at he
  exact ⟨a, ha, hnone, by rw [execDecode_unwritten hc h he, carrier_eq_cbBuf]⟩

theorem execDecode_unwrittenPayload {sel : Sel} {s : State} {len : Word} (hc : s.clen.toNat ≤ s.cap)
    (h : 32 ≤ s.clen.toNat) (hr : hdrRead (carrier sel) (s.buffer (carrier sel)) = .ok len)
    (hl : 32 + 8 * len.toNat ≤ s.clen.toNat) (hw : ¬ s.written (cbBuf sel) 32 (32 + 8 * len.toNat)) :
    ∃ a, (s.cb sel).read a = none ∧ execDecode sel s = .fault (.uninitRead (cbBuf sel) a) := by
  rw [State.written, buffer_cbBuf] at hw
  cases he : payRead (carrier sel) (s.cb sel) 32 len.toNat with
  | ok p => exact absurd (fun _ => payRead_written he) hw
  | error e =>
    obtain ⟨a, -, -, hnone, rfl⟩ := payRead_error he
    exact ⟨a, hnone, by rw [execDecode_run hc h hr hl, buffer_carrier, he, onOk_error, carrier_eq_cbBuf]⟩

/-- Settles O13, by the four ends of DECODE and its two unwritten parts. -/
theorem decodeFindsOrReportsAbsence : Obligations.DecodeFindsOrReportsAbsence := by
  unfold Obligations.DecodeFindsOrReportsAbsence
  refine ⟨fun _ => decode_decode_word, fun sel s hc => ?_⟩
  rw [exec_decode]
  refine ⟨execDecode_short hc, fun hlen len hhdr => ?_, execDecode_unwrittenHeader hc⟩
  have hread := hdrRead_carrier hhdr
  refine ⟨execDecode_length hc hlen hread, fun hfit p hp hpay => ⟨fun hwf => ?_, fun hbad => ?_⟩,
    execDecode_unwrittenPayload hc hlen hread⟩
  · have hvalid : utf8Valid p = true := (utf8Valid_iff p).2 hwf
    refine ⟨_, execDecode_ok hc hlen hread hfit (payRead_carrier hp hpay) hvalid, rfl, fun a => ?_⟩
    rw [State.complete_pBuf, State.report_pBuf, Memory.read_writeBytes, hp]
    simp
  · have hinvalid : utf8Valid p = false := (utf8Valid_eq_false_iff p).2 hbad
    refine ⟨_, execDecode_utf8 hc hlen hread hfit (payRead_carrier hp hpay) hinvalid, rfl, fun a ha => ?_⟩
    rw [State.complete_pBuf, State.report_pBuf, Memory.read_writeBytes, drawBytes_length, if_neg (by omega)]

/-! ### DECODE after ENCODE -/

/-- ENCODE's OUT carries PLEN as its header: the payload is written past it (R181). -/
theorem hdrRead_of_encodeInto {s : State} {out : Memory} (he : encodeInto s = .ok out) :
    hdrRead .outBuf out = .ok s.plen := by
  obtain ⟨copied, headed, -, hhdr, hpay⟩ := encodeInto_ok he
  rw [← hdrRead_of_hdrWrite hhdr (b := .outBuf)]
  refine hdrRead_congr fun a ha => ?_
  rw [Memory.bit, Memory.bit, payWrite_outside hpay (.inl ha)]

/-- ENCODE's OUT carries PBUF's first PLEN bytes from position 32 on (R181). -/
theorem payRead_of_encodeInto {s : State} {out : Memory} {p : List Byte} (he : encodeInto s = .ok out)
    (hp : p.length = s.plen.toNat) (hbytes : ∀ j b, p[j]? = some b → s.pBuf.read j = some b) :
    payRead .outBuf out 32 s.plen.toNat = .ok p := by
  obtain ⟨copied, headed, -, -, hpay⟩ := encodeInto_ok he
  exact payRead_of_payWrite hpay hp hbytes

/-- A byte of a list, where it has one, is among the first as many as the list is long. -/
theorem lt_length_of_getElem? {p : List Byte} {j : Nat} {b : Byte} (h : p[j]? = some b) : j < p.length :=
  (List.getElem?_eq_some_iff.1 h).1

/-- Settles O30: OUT carries the header and the payload that DECODE reads. -/
theorem encodeThenDecodeRoundTrip : Obligations.EncodeThenDecodeRoundTrip := by
  unfold Obligations.EncodeThenDecodeRoundTrip
  intro s p hwf hp hbytes hfit hc hin
  have hpbuf : ∀ j, j < s.plen.toNat → ∃ v, s.pBuf.read j = some v := fun j hj =>
    ⟨_, hbytes j _ (List.getElem?_eq_getElem (hp ▸ hj))⟩
  obtain ⟨out, hout⟩ := encodeInto_total hfit ((written_zero_iff ..).1 hin) hpbuf
  refine ⟨_, execEncode_ok hc hfit hout, rfl, fun u hu hclen hcap => ?_⟩
  have hhdr : hdrRead .outBuf u.outBuf = .ok s.plen := by
    rw [hu]
    exact hdrRead_of_encodeInto hout
  have hpay : payRead .outBuf u.outBuf 32 s.plen.toNat = .ok p := by
    rw [hu]
    exact payRead_of_encodeInto hout hp hbytes
  refine ⟨_, execDecode_ok (sel := .output) (by rwa [hclen, hcap]) (by rw [hclen]; omega) hhdr (by rwa [hclen]) hpay
    ((utf8Valid_iff p).2 hwf), rfl, rfl, fun j b hj => ?_⟩
  rw [State.complete_pBuf, State.report_pBuf, read_writeBytes_zero (lt_length_of_getElem? hj), hj]

/-! ### The parts of DECODE -/

/-- HDR_DEC that completes on a carrier long enough read the header. -/
theorem exec_hdrDec_next {sel : Sel} {s a : State} (hlen : 32 ≤ s.clen.toNat) (hc : s.clen.toNat ≤ s.cap)
    (h : exec (.hdrDec sel) s = .next a) :
    hdrRead (carrier sel) (s.buffer (carrier sel)) = .ok a.hdr ∧
      a = State.complete .ok .none 0x4#4 (State.report 32 { s with hdr := a.hdr }) := by
  cases exec_ends h with
  | badLength _ hlong => exact absurd hlong (Nat.not_lt.2 hc)
  | hdrDecShort _ _ hshort => exact absurd hshort (Nat.not_lt.2 hlen)
  | hdrDec _ v _ _ hr => exact ⟨hr, rfl⟩

/-- PAY_DEC with IDX = 32 and PLEN = HDR, after HDR_DEC, reads the payload that DECODE reads. -/
theorem exec_payDec_after_hdrDec {sel : Sel} {s : State} {len : Word} {bytes : List Byte} (hc : s.clen.toNat ≤ s.cap)
    (hl : 32 + 8 * len.toNat ≤ s.clen.toNat)
    (hp : payRead (carrier sel) (s.buffer (carrier sel)) 32 len.toNat = .ok bytes) :
    exec (.payDec sel) { State.complete .ok .none 0x4#4 (State.report 32 { s with hdr := len }) with
        idx := 32#32, plen := len } =
      .next { State.complete .ok .none 0x6#4 (State.report (32 + 8 * len.toNat)
        { s with hdr := len, plen := len, pBuf := s.pBuf.writeBytes 0 bytes }) with idx := 32#32 } := by
  refine execPayDec_ok (s := { State.complete .ok .none 0x4#4 (State.report 32 { s with hdr := len }) with
        idx := 32#32, plen := len }) hc hl ?_
  rw [buffer_carrier] at hp ⊢
  cases sel <;> exact hp

/-- Settles O32: both commands read the same header, and PAY_DEC the payload whose UTF-8 DECODE checks. -/
theorem decodeIsHeaderCheckPayload : Obligations.DecodeIsHeaderCheckPayload := by
  unfold Obligations.DecodeIsHeaderCheckPayload
  intro sel s t a hlen hc hdecode hhdrDec
  obtain ⟨hread, ha⟩ := exec_hdrDec_next hlen hc hhdrDec
  cases exec_ends hdecode with
  | badLength _ hlong => exact absurd hlong (Nat.not_lt.2 hc)
  | decodeShort _ _ hshort => exact absurd hshort (Nat.not_lt.2 hlen)
  | decodeLength _ len _ _ hr hl =>
    obtain rfl : len = a.hdr := Except.ok.inj (hr.symm.trans hread)
    exact ⟨rfl, fun _ => ⟨rfl, rfl⟩, fun hfit => absurd hl (Nat.not_lt.2 hfit)⟩
  | decode _ len bytes _ _ hr hl hp hv =>
    obtain rfl : len = a.hdr := Except.ok.inj (hr.symm.trans hread)
    refine ⟨rfl, fun hlong => absurd hlong (Nat.not_lt.2 hl), fun _ => ?_⟩
    rw [ha]
    refine ⟨_, bytes, exec_payDec_after_hdrDec hc hl hp, (payRead_bits hp).1, fun j => read_writeBytes_zero,
      fun _ => rfl, fun hbad => absurd ((utf8Valid_iff bytes).1 hv) hbad⟩
  | decodeUtf8 _ len bytes _ _ hr hl hp hv =>
    obtain rfl : len = a.hdr := Except.ok.inj (hr.symm.trans hread)
    refine ⟨rfl, fun hlong => absurd hlong (Nat.not_lt.2 hl), fun _ => ?_⟩
    rw [ha]
    exact ⟨_, bytes, exec_payDec_after_hdrDec hc hl hp, (payRead_bits hp).1, fun j => read_writeBytes_zero,
      fun hwf => absurd hwf ((utf8Valid_eq_false_iff bytes).1 hv), fun _ => ⟨rfl, rfl, rfl⟩⟩

/-! ### What DECODE does not depend on -/

section
variable {sel : Sel} {s u : State}

/-- Carriers with the same data bits below a message's end hold the same header and payload (R189). -/
theorem reads_congr {len : Word} {bytes : List Byte}
    (hbits : ∀ a, a < 32 + 8 * len.toNat → (u.cb sel).bit a = (s.cb sel).bit a)
    (hr : hdrRead (carrier sel) (s.buffer (carrier sel)) = .ok len)
    (hp : payRead (carrier sel) (s.buffer (carrier sel)) 32 len.toNat = .ok bytes) :
    hdrRead (carrier sel) (u.buffer (carrier sel)) = .ok len ∧
      payRead (carrier sel) (u.buffer (carrier sel)) 32 len.toNat = .ok bytes := by
  rw [buffer_carrier] at hr hp ⊢
  exact ⟨(hdrRead_congr fun a ha => hbits a (by omega)).trans hr,
    (payRead_congr fun a _ ha => hbits a ha).trans hp⟩

end

/-- Settles O33: with OK and with reason UTF8, DECODE has read the data bits below the message's end and nothing else
of the carriers. -/
theorem trailingRegionDoesNotInterfere : Obligations.TrailingRegionDoesNotInterfere := by
  unfold Obligations.TrailingRegionDoesNotInterfere
  intro sel s t u h hend hu hfit hc hbits
  obtain ⟨inb, outb, clen, rfl⟩ : ∃ i o c, u = { s with inBuf := i, outBuf := o, clen := c } := ⟨_, _, _, hu⟩
  cases exec_ends h with
  | badLength | decodeShort | decodeLength => simp at hend
  | decode _ len bytes _ _ hr _ hp hv =>
    obtain ⟨hr, hp⟩ := reads_congr hbits hr hp
    exact CommandEnds.exec_eq (.decode sel len bytes hc (le_of_add_le_left hfit) hr hfit hp hv)
  | decodeUtf8 _ len bytes _ _ hr _ hp hv =>
    obtain ⟨hr, hp⟩ := reads_congr hbits hr hp
    exact CommandEnds.exec_eq (.decodeUtf8 sel len bytes hc (le_of_add_le_left hfit) hr hfit hp hv)

/-- Settles O34: the second DECODE meets the conditions of the same end. -/
theorem decodeTwiceReportsTheSame : Obligations.DecodeTwiceReportsTheSame := by
  unfold Obligations.DecodeTwiceReportsTheSame
  intro sel s t u hc h hcb hclen hcap hhdr
  have hends : CommandEnds s (.decode sel) t := exec_ends h
  refine ⟨hends.inBuf_eq, hends.decode_outBuf_eq, ?_⟩
  have hbuf : u.buffer (carrier sel) = s.buffer (carrier sel) := by
    rw [buffer_carrier, buffer_carrier, hcb]
    cases sel
    exacts [hends.inBuf_eq, hends.decode_outBuf_eq]
  obtain ⟨htcap, -, -, htclen, -⟩ := hends.frame
  rw [htclen] at hclen
  rw [htcap] at hcap
  have hcu : u.clen.toNat ≤ u.cap := by rwa [hclen, hcap]
  cases hends with
  | badLength _ hlong => exact absurd hlong (Nat.not_lt.2 hc)
  | decodeShort _ _ hshort =>
    refine ⟨_, CommandEnds.exec_eq (.decodeShort sel hcu (by rwa [hclen])), rfl, rfl, hhdr, rfl, rfl, hclen, nofun⟩
  | decodeLength _ len _ hlen hr hl =>
    rw [← hbuf] at hr
    rw [← hclen] at hlen hl
    exact ⟨_, CommandEnds.exec_eq (.decodeLength sel len hcu hlen hr hl), rfl, rfl, rfl, rfl, rfl, hclen, nofun⟩
  | decode _ len bytes _ hlen hr hl hp hv =>
    rw [← hbuf] at hr hp
    rw [← hclen] at hlen hl
    refine ⟨_, CommandEnds.exec_eq (.decode sel len bytes hcu hlen hr hl hp hv), rfl, rfl, rfl, rfl, rfl, hclen,
      fun _ j hj => ?_⟩
    have hj : j < bytes.length := (payRead_bits hp).1 ▸ hj
    exact (read_writeBytes_zero hj).trans (read_writeBytes_zero hj).symm
  | decodeUtf8 _ len bytes _ hlen hr hl hp hv =>
    rw [← hbuf] at hr hp
    rw [← hclen] at hlen hl
    exact ⟨_, CommandEnds.exec_eq (.decodeUtf8 sel len bytes hcu hlen hr hl hp hv), rfl, rfl, rfl, rfl, rfl, hclen,
      nofun⟩

end Sys2Proof.Machine
end

section
/-! PROOFS. The host port (20_memory.md): which accesses are answered ERR, what reads answer and what writes store. -/

namespace Sys2Proof.Machine

/-! ### Legal and illegal accesses -/

/-- Settles O42: the one end with ERR is that of an illegal access. -/
theorem illegalAccessesAreAnsweredErr : Obligations.IllegalAccessesAreAnsweredErr := by
  unfold Obligations.IllegalAccessesAreAnsweredErr
  refine fun a s hcap => ⟨access_illegal hcap, fun hlegal t ht => ?_⟩
  cases access_ends ht with
  | err _ hillegal => exact absurd hlegal (hillegal (.inl hcap))
  | read | readFree | writeReg | writeBuf => exact ⟨_, rfl, nofun⟩

/-! ### Reads -/

/-- Settles O45: a read ends with the response alone changed, or, while BUSY = 1, the draw counter too. -/
theorem hostReadsHaveNoSideEffect : Obligations.HostReadsHaveNoSideEffect := by
  unfold Obligations.HostReadsHaveNoSideEffect
  intro width addr s t h
  cases access_ends h with
  | err | read => exact ⟨rfl, fun _ => rfl⟩
  | readFree _ _ _ _ hbusy => exact ⟨rfl, fun hidle => absurd (hbusy.symm.trans hidle) nofun⟩

theorem engineWrites_of_offset {offset : Nat} (h : offset ∈ [0x18, 0x1C, 0x24, 0x28, 0x2C, 0x30]) :
    (regAt offset).engineWrites = true :=
  (by decide : ∀ o ∈ [0x18, 0x1C, 0x24, 0x28, 0x2C, 0x30], (regAt o).engineWrites = true) offset h

theorem offset_of_engineWrites {offset : Nat} (h : (regAt offset).engineWrites = true) :
    offset ∈ [0x18, 0x1C, 0x24, 0x28, 0x2C, 0x30] := by
  unfold regAt at h
  split at h <;> simp [Reg.engineWrites] at h ⊢

/-- The address window of a buffer that commands write lies above IN's (R60). -/
theorem bufEngineWrites_of_base {s : State} {b : Buf} {addr : Word} (hcap : s.cap ≤ 2 ^ 28)
    (haddr : 0x20000000 ≤ addr.toNat) (h : addr.toNat - bufBase b < s.bufSize b) : b.engineWrites = true := by
  cases b with
  | inBuf =>
    have hbase : bufBase .inBuf = 0x10000000 := rfl
    have hsize := bufSize_le hcap .inBuf
    omega
  | outBuf | pBuf => rfl

/-- The answer to a busy read of what the engine may be writing (R241): one free byte, or four. -/
def freeAnswer (width draws : Nat) : Word :=
  if width = 8 then (Config.freeByte draws).setWidth 32
  else laneWord (Config.freeByte draws) (Config.freeByte (draws + 1)) (Config.freeByte (draws + 2))
    (Config.freeByte (draws + 3))

/-- The draw counter after such a read. -/
def freeDraws (width draws : Nat) : Nat := if width = 8 then draws + 1 else draws + 4

theorem access_read_free {width : Nat} {addr : Word} {s : State} (hcap : s.cap ≤ 2 ^ 28)
    (hlegal : LegalAccess s.cap width addr.toNat)
    (haddr : addr.toNat ∈ [0x18, 0x1C, 0x24, 0x28, 0x2C, 0x30] ∨ 0x20000000 ≤ addr.toNat) (hbusy : s.busy = true) :
    hostAccess (.read width addr) s = .next { s with
      response := some (.data (freeAnswer width s.draws)), draws := freeDraws width s.draws } := by
  obtain hreg | hbuf := haddr
  · have h : addr.toNat < 0x1000 := by simp at hreg; omega
    have hwidth : width ≠ 8 := by
      rintro rfl
      simp [legal_reg h, regAccessOk] at hlegal
    rw [access_read_reg h hlegal, hbusy, engineWrites_of_offset hreg, freeAnswer, freeDraws, if_neg hwidth,
      if_neg hwidth]
    rfl
  · obtain ⟨b, i, hbase, rfl, hi, htarget, rfl | ⟨rfl, hword⟩⟩ := legal_target hcap (by omega) hlegal
    · rw [access_read8 htarget, hbusy, bufEngineWrites_of_base hcap hbuf hi]
      rfl
    · rw [access_read32 htarget hword, hbusy, bufEngineWrites_of_base hcap hbuf hi]
      rfl

/-- Settles O39: the answer is free bytes, counted by the draw counter alone. -/
theorem busyReadsTellNothing : Obligations.BusyReadsTellNothing := by
  unfold Obligations.BusyReadsTellNothing
  intro width addr cap draws hcap hlegal haddr
  refine ⟨freeAnswer width draws, freeDraws width draws, ?_⟩
  rintro s hbusy rfl rfl
  exact access_read_free hcap hlegal haddr hbusy

/-- An aligned offset of the register window, as an address. -/
theorem toNat_offset {offset : Nat} (h : offset < 0x1000) : (BitVec.ofNat 32 offset).toNat = offset := by
  rw [BitVec.toNat_ofNat, Nat.mod_eq_of_lt (by omega)]

theorem access_read_offset {s : State} {offset : Nat} (h : offset < 0x1000) (hmod : offset % 4 = 0)
    (hfree : s.busy = false ∨ offset ∉ [0x18, 0x1C, 0x24, 0x28, 0x2C, 0x30]) :
    hostAccess (.read 32 (BitVec.ofNat 32 offset)) s = .next (s.respond (.data (s.regValue (regAt offset)))) := by
  have hquiet : (s.busy && (regAt offset).engineWrites) = false := by
    obtain hidle | hoffset := hfree
    · rw [hidle, Bool.false_and]
    · rw [Bool.eq_false_iff.2 (mt offset_of_engineWrites hoffset), Bool.and_false]
  rw [access_read_reg (by rwa [toNat_offset h]) (.inl (by rw [toNat_offset h]; exact ⟨h, rfl, hmod⟩)), toNat_offset h,
    hquiet]
  rfl

theorem regValue_ctrl (s : State) : s.regValue .ctrl = BitVec.ofNat 32 s.ie.toNat := by
  refine BitVec.eq_of_toNat_eq ?_
  cases h : s.ie <;> simp [State.regValue, State.ctrlWord, h]

theorem regValue_status (s : State) : s.regValue .status = BitVec.ofNat 32 (s.busy.toNat + 2 * s.done.toNat +
    4 * s.overrun.toNat + 16 * s.result.code.toNat + 256 * s.npReason.code.toNat + 4096 * s.lastOp.toNat) := by
  rw [← statusWord_toNat, BitVec.ofNat_toNat, BitVec.setWidth_eq]
  rfl

theorem regValue_bitv (s : State) : s.regValue .bitv = BitVec.ofNat 32 s.bitv.toNat :=
  BitVec.eq_of_toNat_eq (by simp [State.regValue])

/-- PCAPACITY with the subtraction cut off at 0 (R33). -/
theorem regValue_pcapacity (s : State) : s.regValue .pcapacity = BitVec.ofNat 32 ((s.clen.toNat - 32) / 8) := by
  change (if 32 ≤ s.clen.toNat then _ else _) = _
  split_ifs with h
  · rfl
  · rw [Nat.sub_eq_zero_of_le (by omega)]

/-- Settles O40, by the value of each register at its offset. -/
theorem registerReadsAnswer : Obligations.RegisterReadsAnswer := by
  unfold Obligations.RegisterReadsAnswer
  rintro s offset value h hmod hfree rfl
  rw [access_read_offset h hmod hfree]
  refine congrArg (fun v => Host.Outcome.next (s.respond (.data v))) ?_
  unfold regAt
  split
  · rfl
  · rfl
  · exact regValue_ctrl s
  · exact regValue_status s
  · rfl
  · rfl
  · rfl
  · rfl
  · rfl
  · exact regValue_bitv s
  · exact regValue_reqLo s
  · exact regValue_reqHi s
  · rfl
  · exact regValue_pcapacity s
  · simp_all [State.regValue]

/-! ### Writes -/

/-- A write to a register while BUSY = 0 is carried out. -/
theorem access_write_offset {s : State} {offset : Nat} (h : offset < 0x1000) (hmod : offset % 4 = 0) (w : Word) :
    hostAccess (.write 32 (BitVec.ofNat 32 offset) w) s = .next ((s.writeReg (regAt offset) w).respond .written) := by
  rw [access_write_reg (by rwa [toNat_offset h]) (.inl (by rw [toNat_offset h]; exact ⟨h, rfl, hmod⟩)), toNat_offset h]

/-- Settles O41, register by register; a write to any other offset than these is ignored. -/
theorem registerWritesTakeEffect : Obligations.RegisterWritesTakeEffect := by
  unfold Obligations.RegisterWritesTakeEffect
  intro s w hidle
  have stores (offset : Nat) (h : offset < 0x1000) (hmod : offset % 4 = 0) {u : State}
      (hu : s.writeReg (regAt offset) w = s.unlessBusy u) :
      hostAccess (.write 32 (BitVec.ofNat 32 offset) w) s = .next (u.respond .written) := by
    rw [access_write_offset h hmod, hu, unlessBusy_false hidle]
  refine ⟨stores 0x14 (by decide) rfl rfl, stores 0x18 (by decide) rfl rfl, stores 0x1C (by decide) rfl rfl,
    stores 0x20 (by decide) rfl rfl, access_write_offset (offset := 0x08) (by decide) rfl w,
    access_write_offset (offset := 0x0C) (by decide) rfl w, fun offset h hmod hother => ?_⟩
  rw [access_write_offset h hmod, writeReg_ignored (mt offset_of_regAt_writable hother)]
  rfl

/-! ### Buffers -/

theorem wordAccessOk_of {s : State} {b : Buf} {i : Nat} (hmod : i % 4 = 0) (h : i + 3 < s.bufSize b) :
    s.wordAccessOk b i = true := by
  simp [State.wordAccessOk, hmod, h]

/-- Settles O43, from the byte that each lane stores or answers. -/
theorem bufferAccessesUseLittleEndianLanes : Obligations.BufferAccessesUseLittleEndianLanes := by
  unfold Obligations.BufferAccessesUseLittleEndianLanes
  intro s b i w hcap
  refine ⟨fun hidle hi => ?_, fun hfree hi v hv => ?_, fun hidle hmod hi => ?_, fun hfree hmod hi hlanes => ?_⟩
  · refine ⟨_, by rw [access_write8 (target_byte_ofNat hcap hi), unlessBusy_false hidle], ?_, fun a => ?_⟩
    · cases b <;> rfl
    · have hread := Memory.read_write (s.buffer b) i a (lane w 0)
      cases b <;> exact hread
  · rw [access_read8 (target_byte_ofNat hcap hi), not_engineWrites hfree, readByte_ok.2 hv]
    rfl
  · refine ⟨_, by rw [access_write32 (target_byte_ofNat hcap (by omega)) (wordAccessOk_of hmod hi),
      unlessBusy_false hidle], ?_, fun a => ?_⟩
    · cases b <;> rfl
    · have hread := read_writeWord (s.buffer b) i w a
      cases b <;> exact hread
  · rw [access_read32 (target_byte_ofNat hcap (by omega)) (wordAccessOk_of hmod hi), not_engineWrites hfree,
      readWord_ok hlanes]
    rfl

/-- A 32-bit read that finds one of its four bytes unwritten stops at such a byte (R85). -/
theorem readWord_unwritten {b : Buf} {m : Memory} {a n : Nat} (hn : n < 4) (h : m.read (a + n) = none) :
    ∃ i, m.read i = none ∧ readWord b m a = .error (.uninitRead b i) := by
  cases he : readWord b m a with
  | ok w =>
    unfold readWord at he
    split at he
    · interval_cases n <;> simp_all [readByte_ok]
    all_goals cases he
  | error e =>
    unfold readWord at he
    split at he
    · cases he
    all_goals
      cases he
      obtain ⟨hnone, rfl⟩ := readByte_error.1 ‹_›
      exact ⟨_, hnone, rfl⟩

/-- Settles O44: both widths read the byte, and an unwritten byte is a fault. -/
theorem hostReadOfUnwrittenByteFaults : Obligations.HostReadOfUnwrittenByteFaults := by
  unfold Obligations.HostReadOfUnwrittenByteFaults
  intro s b i hcap hfree hi hnone
  refine ⟨?_, fun n hn hmod hle hin => ?_⟩
  · rw [access_read8 (target_byte_ofNat hcap hi), not_engineWrites hfree, readByte_error.2 ⟨hnone, rfl⟩]
    rfl
  · obtain ⟨a, ha, hread⟩ := readWord_unwritten (b := b) (m := s.buffer b) (a := i - n) hn
      (by rwa [Nat.sub_add_cancel hle])
    refine ⟨a, ha, ?_⟩
    rw [access_read32 (target_byte_ofNat hcap (by omega)) (wordAccessOk_of hmod hin), not_engineWrites hfree, hread]
    rfl

end Sys2Proof.Machine
end

section
/-! PROOFS. The machine's steps (60_exceptions.md, 70_reset_and_hazards.md): which command a step runs, and when BUSY,
DONE, OVERRUN and the host's registers change. -/

namespace Sys2Proof.Machine

/-! ### The moves -/

/-- The engine's turn completes a captured word as the command it decodes to (R202). -/
theorem engineTurn_exec {s : State} {w : Word} {i : Instr} (hw : s.engine = some w) (hdec : decode w = .ok i) :
    engineTurn s = exec i s := by
  rw [engineTurn_some hw, runWord_ok hdec]

/-- A command word is its own 32-bit table word (R90). -/
theorem tableWord_toNat (w : Word) : tableWord 32 w.toNat = w := by
  rw [tableWord, Nat.mod_eq_of_lt w.isLt, BitVec.ofNat_toNat, BitVec.setWidth_eq]

/-- The engine's turn comes next after `withFetchWord`, which leaves the pending moves after it as they were. -/
theorem step_withFetchWord (s : State) (nbits w : Nat) :
    step (s.withFetchWord nbits w) = engineTurn (s.accept (tableWord nbits w)) := rfl

/-- Settles O46, move by move. -/
theorem stepRunsTheCapturedCommand : Obligations.StepRunsTheCapturedCommand := by
  unfold Obligations.StepRunsTheCapturedCommand
  refine ⟨fun s w i hw hdec => ⟨fun hin => ?_, fun rest hin => ?_⟩, fun s i => ?_, fun s a rest => step_access,
    fun s hidle hturn => ?_⟩
  · rw [step_no_inputs hin, engineTurn_exec hw hdec]
  · rw [step_engineMoves (.inr ⟨rest, hin⟩), hin]
    exact engineTurn_exec hw hdec
  · rw [step_withFetchWord, tableWord_toNat]
    exact engineTurn_exec rfl (decode_encode i)
  · rw [step_engineMoves hturn]
    exact engineTurn_none hidle

/-- Every way a step can end in a next state (R211): the engine's turn, idle or completing a word; an access; reset. -/
inductive StepEnds (s t : State) : Prop where
  | idle (hturn : s.engineMoves) (hengine : s.engine = none) (ht : t = { s with inputs := s.inputs.tail })
  | completes (w : Word) (hturn : s.engineMoves) (hengine : s.engine = some w)
      (hrun : runWord w { s with inputs := s.inputs.tail } = .next t)
  | access (a : Access) (rest : List Input) (hin : s.inputs = .access a :: rest)
      (hends : AccessEnds { s with inputs := rest } a t)
  | reset (rest : List Input) (hin : s.inputs = .reset :: rest) (ht : t = applyReset { s with inputs := rest })

theorem step_ends {s t : State} (h : step s = .next t) : StepEnds s t := by
  have turn (hturn : s.engineMoves) : StepEnds s t := by
    rw [step_engineMoves hturn] at h
    obtain ⟨hengine, ht⟩ | ⟨w, hengine, hrun⟩ := engineTurn_ends h
    · exact .idle hturn hengine ht
    · exact .completes w hturn hengine hrun
  obtain ⟨hin, -⟩ | ⟨rest, hin, -⟩ | ⟨a, rest, hin, he⟩ | ⟨rest, hin, he⟩ := step_cases s
  · exact turn (.inl hin)
  · exact turn (.inr ⟨rest, hin⟩)
  · exact .access a rest hin (access_ends (he.symm.trans h))
  · exact .reset rest hin (Host.Outcome.next.inj (h.symm.trans he))

theorem not_engineMoves_access {s : State} {a : Access} {rest : List Input} (h : s.inputs = .access a :: rest) :
    ¬ s.engineMoves := by
  simp [State.engineMoves, h]

theorem not_engineMoves_reset {s : State} {rest : List Input} (h : s.inputs = .reset :: rest) : ¬ s.engineMoves := by
  simp [State.engineMoves, h]

/-! ### What a write to a register changes -/

/-- The offset is the register's own (R47). -/
theorem offset_of_regAt {offset : Nat} {r : Reg} (h : regAt offset = r) (hr : r ≠ .reserved) :
    offset = regOffset r := by
  unfold regAt at h
  split at h
  case h_15 => exact absurd h.symm hr
  all_goals subst h; rfl

/-- A 32-bit write inside the register window writes the register at its offset, and no other. -/
theorem writesReg_iff {addr w v : Word} {r : Reg} (hr : r ≠ .reserved) (h : addr.toNat < 0x1000) :
    (Access.write 32 addr w).WritesReg (regOffset r) v ↔ regAt addr.toNat = r ∧ w = v := by
  have haddr : addr = BitVec.ofNat 32 (regOffset r) ↔ regAt addr.toNat = r := by
    constructor
    · rintro rfl
      cases r <;> rfl
    · intro hreg
      rw [← offset_of_regAt hreg hr, BitVec.ofNat_toNat, BitVec.setWidth_eq]
  simp [Access.WritesReg, haddr]

section
variable (s : State) (r : Reg) (w : Word)

theorem writeReg_busy : (s.writeReg r w).busy = (s.busy || r == .cmd) := by
  cases hb : s.busy <;> cases r <;> simp [State.writeReg, State.unlessBusy, hb] <;> exact hb

theorem writeReg_done : (s.writeReg r w).done =
    if r = .cmd then s.busy && s.done else if r = .status then s.done && !w.getLsbD 1 else s.done := by
  cases hb : s.busy <;> cases r <;> simp [State.writeReg, State.unlessBusy, hb]

theorem writeReg_overrun : (s.writeReg r w).overrun =
    if r = .status then s.overrun && !w.getLsbD 2
    else if s.busy = true ∧ r ∈ [.cmd, .clen, .plen, .hdr, .idx] then true else s.overrun := by
  cases hb : s.busy <;> cases r <;> simp [State.writeReg, State.unlessBusy, hb]

theorem writeReg_clen : (s.writeReg r w).clen = if s.busy = false ∧ r = .clen then w else s.clen := by
  cases hb : s.busy <;> cases r <;> simp [State.writeReg, State.unlessBusy, hb]

theorem writeReg_idx : (s.writeReg r w).idx = if s.busy = false ∧ r = .idx then w else s.idx := by
  cases hb : s.busy <;> cases r <;> simp [State.writeReg, State.unlessBusy, hb]

theorem writeReg_ie : (s.writeReg r w).ie = if r = .ctrl then w.getLsbD 0 else s.ie := by
  cases hb : s.busy <;> cases r <;> simp [State.writeReg, State.unlessBusy, hb]

theorem writeReg_cap : (s.writeReg r w).cap = s.cap := by
  cases hb : s.busy <;> cases r <;> simp [State.writeReg, State.unlessBusy, hb]

theorem writeReg_inBuf : (s.writeReg r w).inBuf = s.inBuf := by
  cases hb : s.busy <;> cases r <;> simp [State.writeReg, State.unlessBusy, hb]

end

/-- A buffer write that BUSY may refuse changes no register but OVERRUN. -/
theorem unlessBusy_setBuffer (s : State) (b : Buf) (m : Memory) :
    s.unlessBusy (s.setBuffer b m) = { s with
      overrun := s.busy || s.overrun, inBuf := (s.unlessBusy (s.setBuffer b m)).inBuf,
      outBuf := (s.unlessBusy (s.setBuffer b m)).outBuf, pBuf := (s.unlessBusy (s.setBuffer b m)).pBuf } := by
  obtain ⟨hb, he⟩ | ⟨hb, he⟩ := unlessBusy_cases s (s.setBuffer b m) <;> rw [he, hb]
  · rfl
  · cases b <;> rfl

/-- An access writes a register; or it writes none, and changes no register but OVERRUN. -/
theorem AccessEnds.reg_or_frame {s t : State} {a : Access} (h : AccessEnds s a t) :
    (∃ addr w, a = .write 32 addr w ∧ addr.toNat < 0x1000 ∧
      t = (s.writeReg (regAt addr.toNat) w).respond .written) ∨
    ((∀ r w, ¬ a.WritesReg (regOffset r) w) ∧ t.cap = s.cap ∧ t.engine = s.engine ∧ t.done = s.done ∧ t.ie = s.ie ∧
      t.clen = s.clen ∧ t.idx = s.idx) := by
  cases h with
  | err _ hillegal =>
    refine .inr ⟨?_, rfl, rfl, rfl, rfl, rfl, rfl⟩
    rintro r w rfl
    have hoffset : regOffset r < 0x1000 ∧ regOffset r % 4 = 0 := by cases r <;> decide
    obtain ⟨hlt, hmod⟩ := hoffset
    rw [Access.addr, Access.width, toNat_offset hlt] at hillegal
    exact hillegal (.inr hlt) (.inl ⟨hlt, rfl, hmod⟩)
  | read | readFree => exact .inr ⟨nofun, rfl, rfl, rfl, rfl, rfl, rfl⟩
  | writeReg addr w hlt => exact .inl ⟨addr, w, rfl, hlt, rfl⟩
  | writeBuf width addr w b m hbase =>
    rw [unlessBusy_setBuffer]
    refine .inr ⟨?_, rfl, rfl, rfl, rfl, rfl, rfl⟩
    intro r v hw
    have hoffset : regOffset r < 0x1000 := by cases r <;> decide
    have hge : 0x10000000 ≤ bufBase b := base_ge b
    obtain ⟨rfl, rfl, rfl⟩ := Access.write.inj hw
    rw [toNat_offset hoffset] at hbase
    omega

/-! ### BUSY -/

theorem AccessEnds.busy_iff {s t : State} {a : Access} (h : AccessEnds s a t) :
    t.busy = true ↔ s.busy = true ∨ ∃ w, a.WritesReg 0x10 w := by
  obtain ⟨addr, w, rfl, hlt, rfl⟩ | ⟨hno, -, hengine, -⟩ := h.reg_or_frame
  · have hcmd (v : Word) := writesReg_iff (w := w) (v := v) (r := .cmd) nofun hlt
    rw [State.busy_respond, writeReg_busy, Bool.or_eq_true, beq_iff_eq]
    exact or_congr_right ⟨fun hr => ⟨w, (hcmd w).2 ⟨hr, rfl⟩⟩, fun ⟨v, hv⟩ => ((hcmd v).1 hv).1⟩
  · rw [State.busy, hengine]
    exact ⟨.inl, fun hor => hor.resolve_right fun ⟨v, hv⟩ => hno .cmd v hv⟩

/-- Settles O51, by the ends of a step: the engine's turn and reset empty the engine, and only a write to CMD fills it. -/
theorem busyRisesAndFalls : Obligations.BusyRisesAndFalls := by
  unfold Obligations.BusyRisesAndFalls
  refine ⟨rfl, fun s t h => ?_⟩
  cases step_ends h with
  | idle hturn hengine ht =>
    have hidle : s.busy = false := s.busy_false_iff.2 hengine
    have htidle : t.busy = false := ht ▸ hidle
    refine ⟨fun _ => ⟨fun hb => ?_, fun ⟨w, rest, hin⟩ => absurd hturn (not_engineMoves_access hin)⟩, fun hb => ?_⟩
    · simp [htidle] at hb
    · simp [hidle] at hb
  | completes w hturn hengine hrun =>
    obtain ⟨-, -, -, -, htengine⟩ := runWord_status hrun
    have hbusy : s.busy = true := s.busy_iff.2 ⟨w, hengine⟩
    refine ⟨fun hb => ?_, fun _ => ⟨fun _ => .inl hturn, fun _ => t.busy_false_iff.2 htengine⟩⟩
    simp [hbusy] at hb
  | access a rest hin hends =>
    have hbusy : t.busy = true ↔ s.busy = true ∨ ∃ w, a.WritesReg 0x10 w := hends.busy_iff
    refine ⟨fun hb => ?_, fun hb => ?_⟩
    · rw [hbusy, hb, hin]
      simp [Access.WritesReg]
    · have htbusy : t.busy = true := hbusy.2 (.inl hb)
      have hturn : ¬ s.engineMoves := not_engineMoves_access hin
      simp [htbusy, hturn, hin]
  | reset rest hin ht =>
    have htidle : t.busy = false := ht ▸ rfl
    refine ⟨fun _ => ?_, fun _ => ⟨fun _ => .inr ⟨rest, hin⟩, fun _ => htidle⟩⟩
    simp [htidle, hin]

/-! ### DONE -/

theorem AccessEnds.done_eq {s t : State} {a : Access} (h : AccessEnds s a t) :
    (∀ w, a.WritesReg 0x10 w → t.done = (s.busy && s.done)) ∧
      (∀ w, a.WritesReg 0x0C w → t.done = (s.done && !w.getLsbD 1)) ∧
      ((∀ w, ¬ a.WritesReg 0x10 w ∧ ¬ a.WritesReg 0x0C w) → t.done = s.done) := by
  obtain ⟨addr, w, rfl, hlt, rfl⟩ | ⟨hno, -, -, hdone, -⟩ := h.reg_or_frame
  · have hcmd (v : Word) := writesReg_iff (w := w) (v := v) (r := .cmd) nofun hlt
    have hstatus (v : Word) := writesReg_iff (w := w) (v := v) (r := .status) nofun hlt
    rw [State.respond_done, writeReg_done]
    refine ⟨fun v hv => ?_, fun v hv => ?_, fun hother => ?_⟩
    · rw [if_pos ((hcmd v).1 hv).1]
    · obtain ⟨hr, rfl⟩ := (hstatus v).1 hv
      rw [hr]
      rfl
    · rw [if_neg fun hr => (hother w).1 ((hcmd w).2 ⟨hr, rfl⟩), if_neg fun hr => (hother w).2 ((hstatus w).2 ⟨hr, rfl⟩)]
  · exact ⟨fun w hw => absurd hw (hno .cmd w), fun w hw => absurd hw (hno .status w), fun _ => hdone⟩

/-- Settles O52, by the ends of a step. -/
theorem doneFollowsItsRule : Obligations.DoneFollowsItsRule := by
  unfold Obligations.DoneFollowsItsRule
  intro s t h
  cases step_ends h with
  | idle hturn hengine ht =>
    have hidle : s.busy = false := s.busy_false_iff.2 hengine
    refine ⟨fun _ => ?_, fun rest hin => absurd hturn (not_engineMoves_reset hin),
      fun a rest hin => absurd hturn (not_engineMoves_access hin)⟩
    rw [hidle, Bool.false_or, ht]
  | completes w hturn hengine hrun =>
    obtain ⟨-, -, -, hdone, -⟩ := runWord_status hrun
    have hbusy : s.busy = true := s.busy_iff.2 ⟨w, hengine⟩
    refine ⟨fun _ => ?_, fun rest hin => absurd hturn (not_engineMoves_reset hin),
      fun a rest hin => absurd hturn (not_engineMoves_access hin)⟩
    rw [hbusy, Bool.true_or, hdone]
  | access a rest hin hends =>
    refine ⟨fun hturn => absurd hturn (not_engineMoves_access hin), fun rest' hin' => ?_, fun a' rest' hin' => ?_⟩
    · simp [hin] at hin'
    · obtain ⟨rfl, rfl⟩ : a = a' ∧ rest = rest' := by simpa [hin] using hin'
      exact hends.done_eq
  | reset rest hin ht =>
    refine ⟨fun hturn => absurd hturn (not_engineMoves_reset hin), fun _ _ => ht ▸ rfl, fun a' rest' hin' => ?_⟩
    simp [hin] at hin'

/-! ### OVERRUN -/

/-- Only these offsets name a register whose writes BUSY refuses (R47, R240). -/
theorem refused_of_regAt {offset : Nat} (h : regAt offset ∈ [.cmd, .clen, .plen, .hdr, .idx]) :
    offset ∈ [0x10, 0x14, 0x18, 0x1C, 0x20] := by
  unfold regAt at h
  split at h <;> simp at h ⊢

/-- An access that BUSY refuses sets OVERRUN, and any other keeps it but for a write to STATUS (R28). -/
theorem AccessEnds.overrun_eq {s t : State} {a : Access} (hcap : s.cap ≤ 2 ^ 28) (h : AccessEnds s a t)
    (hstatus : ∀ w, ¬ a.WritesReg 0x0C w) :
    (s.busy = true ∧ a.Refusable s.cap ∧ t.overrun = true) ∨
      ((s.busy = false ∨ ¬ a.Refusable s.cap) ∧ t.overrun = s.overrun) := by
  cases h with
  | err _ hillegal =>
    refine .inr ⟨.inr ?_, rfl⟩
    rintro ⟨width, addr, w, rfl, hlegal, -⟩
    exact hillegal (.inl hcap) hlegal
  | read | readFree => exact .inr ⟨.inr nofun, rfl⟩
  | writeReg addr w hlt hlegal =>
    have hr : regAt addr.toNat ≠ .status := fun hr => hstatus w ((writesReg_iff (r := .status) nofun hlt).2 ⟨hr, rfl⟩)
    rw [State.respond_overrun, writeReg_overrun, if_neg hr]
    by_cases hrefused : s.busy = true ∧ regAt addr.toNat ∈ [.cmd, .clen, .plen, .hdr, .idx]
    · exact .inl ⟨hrefused.1, ⟨32, addr, w, rfl, hlegal, .inl (refused_of_regAt hrefused.2)⟩, if_pos hrefused⟩
    · refine .inr ⟨(Bool.eq_false_or_eq_true s.busy).symm.imp_right fun hbusy => ?_, if_neg hrefused⟩
      rintro ⟨_, _, _, ⟨⟩, -, hoffset | hbuf⟩
      · exact hrefused ⟨hbusy, regAt_of_refused hoffset⟩
      · omega
  | writeBuf width addr w b m hbase hlegal =>
    have hge : 0x10000000 ≤ bufBase b := base_ge b
    obtain ⟨hbusy, he⟩ | ⟨hidle, he⟩ := unlessBusy_cases s (s.setBuffer b m) <;> rw [he]
    · exact .inl ⟨hbusy, ⟨width, addr, w, rfl, hlegal hcap, .inr (by omega)⟩, rfl⟩
    · exact .inr ⟨.inl hidle, by cases b <;> rfl⟩

/-- A write to STATUS clears OVERRUN exactly if its bit 2 is 1 (R25), and BUSY does not refuse it. -/
theorem AccessEnds.overrun_of_writesStatus {s t : State} {a : Access} {v : Word} (h : AccessEnds s a t)
    (hv : a.WritesReg 0x0C v) : t.overrun = (s.overrun && !v.getLsbD 2) ∧ ¬ a.Refusable s.cap := by
  obtain ⟨addr, w, rfl, hlt, rfl⟩ | ⟨hno, -⟩ := h.reg_or_frame
  · obtain ⟨hr, rfl⟩ := (writesReg_iff (r := .status) nofun hlt).1 hv
    rw [State.respond_overrun, writeReg_overrun, if_pos hr]
    refine ⟨rfl, ?_⟩
    rintro ⟨_, _, _, ⟨⟩, -, hoffset | hbuf⟩
    · have hmem := regAt_of_refused hoffset
      simp [hr] at hmem
    · omega
  · exact absurd hv (hno .status v)

theorem AccessEnds.overrun_rule {s t : State} {a : Access} (hcap : s.cap ≤ 2 ^ 28) (h : AccessEnds s a t) :
    (∀ w, a.WritesReg 0x0C w → t.overrun = (s.overrun && !w.getLsbD 2)) ∧
      (s.busy = true → a.Refusable s.cap → t.overrun = true) ∧
      ((s.busy = false ∨ ¬ a.Refusable s.cap) → (∀ w, ¬ a.WritesReg 0x0C w) → t.overrun = s.overrun) := by
  refine ⟨fun w hw => (h.overrun_of_writesStatus hw).1, fun hbusy hrefusable => ?_, fun hkept hstatus => ?_⟩
  · have hstatus (w : Word) : ¬ a.WritesReg 0x0C w := fun hw => (h.overrun_of_writesStatus hw).2 hrefusable
    obtain ⟨-, -, hset⟩ | ⟨hidle | hnot, -⟩ := h.overrun_eq hcap hstatus
    · exact hset
    · simp [hbusy] at hidle
    · exact absurd hrefusable hnot
  · obtain ⟨hbusy, hrefusable, -⟩ | ⟨-, hsame⟩ := h.overrun_eq hcap hstatus
    · simp [hbusy, hrefusable] at hkept
    · exact hsame

/-- Settles O53, by the ends of a step. -/
theorem overrunIsSticky : Obligations.OverrunIsSticky := by
  unfold Obligations.OverrunIsSticky
  intro s t hcap h
  cases step_ends h with
  | idle hturn hengine ht =>
    exact ⟨fun _ => ht ▸ rfl, fun rest hin => absurd hturn (not_engineMoves_reset hin),
      fun a rest hin => absurd hturn (not_engineMoves_access hin)⟩
  | completes w hturn hengine hrun =>
    obtain ⟨-, -, hoverrun, -⟩ := commandsKeepTheHostRegisters _ _ _ hrun
    exact ⟨fun _ => hoverrun, fun rest hin => absurd hturn (not_engineMoves_reset hin),
      fun a rest hin => absurd hturn (not_engineMoves_access hin)⟩
  | access a rest hin hends =>
    refine ⟨fun hturn => absurd hturn (not_engineMoves_access hin), fun rest' hin' => ?_, fun a' rest' hin' => ?_⟩
    · simp [hin] at hin'
    · obtain ⟨rfl, rfl⟩ : a = a' ∧ rest = rest' := by simpa [hin] using hin'
      exact AccessEnds.overrun_rule (s := { s with inputs := rest }) hcap hends
  | reset rest hin ht =>
    refine ⟨fun hturn => absurd hturn (not_engineMoves_reset hin), fun _ _ => ht ▸ rfl, fun a' rest' hin' => ?_⟩
    simp [hin] at hin'

/-! ### The host's registers and IN -/

/-- IN changes only under a buffer write while BUSY = 0 (R45, R240). -/
theorem AccessEnds.inBuf_change {s t : State} {a : Access} (h : AccessEnds s a t) (hne : t.inBuf ≠ s.inBuf) :
    s.busy = false ∧ ∃ width addr w, a = .write width addr w ∧ 0x10000000 ≤ addr.toNat := by
  cases h with
  | err | read | readFree => exact absurd rfl hne
  | writeReg addr w => exact absurd (writeReg_inBuf ..) hne
  | writeBuf width addr w b m hbase =>
    obtain ⟨-, he⟩ | ⟨hidle, -⟩ := unlessBusy_cases s (s.setBuffer b m)
    · rw [he] at hne
      exact absurd rfl hne
    · exact ⟨hidle, width, addr, w, rfl, (base_ge b).trans hbase⟩

/-- CLEN, IDX and CTRL.IE change only under a write to them, CLEN and IDX only while BUSY = 0; CAP never (R24, R26). -/
theorem AccessEnds.reg_change {s t : State} {a : Access} (h : AccessEnds s a t) : t.cap = s.cap ∧
    (t.clen ≠ s.clen → s.busy = false ∧ ∃ w, a.WritesReg 0x14 w) ∧
    (t.idx ≠ s.idx → s.busy = false ∧ ∃ w, a.WritesReg 0x20 w) ∧ (t.ie ≠ s.ie → ∃ w, a.WritesReg 0x08 w) := by
  obtain ⟨addr, w, rfl, hlt, rfl⟩ | ⟨-, hcap, -, -, hie, hclen, hidx⟩ := h.reg_or_frame
  · have hreg {r : Reg} (hr : r ≠ .reserved) (he : regAt addr.toNat = r) :
        ∃ v, (Access.write 32 addr w).WritesReg (regOffset r) v := ⟨w, (writesReg_iff hr hlt).2 ⟨he, rfl⟩⟩
    rw [State.respond_cap, State.respond_clen, State.respond_idx, State.respond_ie, writeReg_cap, writeReg_clen,
      writeReg_idx, writeReg_ie]
    refine ⟨rfl, fun hne => ?_, fun hne => ?_, fun hne => ?_⟩
    · obtain ⟨hidle, hr⟩ := (ite_ne_right_iff.1 hne).1
      exact ⟨hidle, hreg (r := .clen) nofun hr⟩
    · obtain ⟨hidle, hr⟩ := (ite_ne_right_iff.1 hne).1
      exact ⟨hidle, hreg (r := .idx) nofun hr⟩
    · exact hreg (r := .ctrl) nofun (ite_ne_right_iff.1 hne).1
  · exact ⟨hcap, absurd hclen, absurd hidx, absurd hie⟩

/-- Settles O54, by the ends of a step: no command writes them, and an access only as said. -/
theorem onlyTheHostChangesInputs : Obligations.OnlyTheHostChangesInputs := by
  unfold Obligations.OnlyTheHostChangesInputs
  intro s t h
  cases step_ends h with
  | idle hturn hengine ht =>
    subst ht
    exact ⟨rfl, fun _ => ⟨absurd rfl, absurd rfl, absurd rfl, absurd rfl⟩⟩
  | completes w hturn hengine hrun =>
    obtain ⟨hcap, hie, -, hclen, hidx, hin, -, -⟩ := commandsKeepTheHostRegisters _ _ _ hrun
    exact ⟨hcap, fun _ => ⟨absurd hin, absurd hclen, absurd hidx, absurd hie⟩⟩
  | access a rest hin hends =>
    obtain ⟨hcap, hclen, hidx, hie⟩ := hends.reg_change
    refine ⟨hcap, fun _ => ⟨fun hne => ?_, fun hne => ?_, fun hne => ?_, fun hne => ?_⟩⟩
    · obtain ⟨hidle, width, addr, w, rfl, haddr⟩ := hends.inBuf_change hne
      exact ⟨hidle, width, addr, w, rest, hin, haddr⟩
    · obtain ⟨hidle, w, rfl⟩ := hclen hne
      exact ⟨hidle, w, rest, hin⟩
    · obtain ⟨hidle, w, rfl⟩ := hidx hne
      exact ⟨hidle, w, rest, hin⟩
    · obtain ⟨w, rfl⟩ := hie hne
      exact ⟨w, rest, hin⟩
  | reset rest hin ht => exact ⟨ht ▸ rfl, fun hno => absurd hin (hno rest)⟩

/-! ### The interrupt output, and both orders of a write and a completion -/

/-- Settles O55, from what completion, acceptance and a write to STATUS leave of DONE. -/
theorem interruptFollowsCompletion : Obligations.InterruptFollowsCompletion := by
  unfold Obligations.InterruptFollowsCompletion
  refine ⟨fun s => rfl, fun w s t h => ?_, fun w s hidle => ?_, fun w s hw => ?_⟩
  · obtain ⟨-, -, -, -, -, -, hirq⟩ := completionWritesStatus w s t h
    exact hirq
  · exact ⟨_, access_write_cmd_idle (s.busy_false_iff.1 hidle) w, rfl⟩
  · refine ⟨_, access_write_offset (offset := 0x0C) (by decide) rfl w, ?_⟩
    change (s.done && !w.getLsbD 1 && s.ie) = false
    rw [hw, Bool.not_true, Bool.and_false, Bool.false_and]

theorem run_two {s a b : State} (h : step s = .next a) (h' : step a = .next b) :
    Host.Core.run Sys2Proof.core 2 s = .next b := by
  have h1 : Sys2Proof.core.step s = .next a := h
  have h2 : Sys2Proof.core.step a = .next b := h'
  simp only [Host.Core.run, h1, h2]

/-- A write to PLEN while BUSY = 1 is dropped and sets OVERRUN (R240). -/
theorem access_write_plen_busy {s : State} (h : s.busy = true) (v : Word) :
    hostAccess (.write 32 0x18#32 v) s = .next { s with overrun := true, response := some .written } :=
  (access_write_offset (offset := 0x18) (by decide) rfl v).trans
    (congrArg (fun u : State => Host.Outcome.next (u.respond .written)) (unlessBusy_true h _))

/-- A write to PLEN while BUSY = 0 stores the word (R35). -/
theorem access_write_plen_idle {s : State} (h : s.busy = false) (v : Word) :
    hostAccess (.write 32 0x18#32 v) s = .next { s with plen := v, response := some .written } :=
  (registerWritesTakeEffect s v h).2.1

/-- A command that completes from one schedule completes alike from another, with the fields the host side owns carried
over. -/
theorem exec_hostSide {i : Instr} {s t : State} (h : exec i s = .next t) (overrun : Bool) (response : Option Response)
    (inputs : List Input) :
    exec i { s with overrun := overrun, response := response, inputs := inputs } =
      .next { t with overrun := overrun, response := response, inputs := inputs } := by
  obtain ⟨-, hie, -⟩ := (exec_ends h).frame
  have hrun := commandsAreStateless i s t s.ie s.done overrun s.result s.npReason s.lastOp s.engine response inputs h
  rw [hrun, hie]

/-- Settles O56: the command runs alike before and after the access, since its effect does not depend on OVERRUN, the
response and the pending moves. -/
theorem bothOrdersOfAWriteAndACompletion : Obligations.BothOrdersOfAWriteAndACompletion := by
  unfold Obligations.BothOrdersOfAWriteAndACompletion
  intro s t w v i hw hdec h
  have hbusy : s.busy = true := s.busy_iff.2 ⟨w, hw⟩
  obtain ⟨-, -, -, -, hengine⟩ := (exec_ends h).status
  obtain ⟨-, -, hoverrun, -, -, -, hresponse, hinputs⟩ := (exec_ends h).frame
  have hrun (overrun : Bool) (response : Option Response) (rest : List Input) :
      step { s with overrun := overrun, response := response, inputs := .quiet :: rest } =
        .next { t with overrun := overrun, response := response, inputs := rest } :=
    ((stepRunsTheCapturedCommand.1
      { s with overrun := overrun, response := response, inputs := .quiet :: rest } w i hw hdec).2 rest rfl).trans
      (exec_hostSide h overrun response rest)
  constructor
  · refine run_two (a := { s with inputs := [.quiet], overrun := true, response := some .written }) ?_ ?_
    · rw [step_access rfl]
      exact access_write_plen_busy (s := { s with inputs := [.quiet] }) hbusy v
    · rw [hrun, hinputs]
  · refine run_two (a := { t with inputs := [.access (.write 32 0x18#32 v)] }) ?_ ?_
    · refine (hrun s.overrun s.response _).trans ?_
      rw [hoverrun, hresponse]
    · rw [step_access rfl, hinputs]
      exact access_write_plen_idle (s := { t with inputs := [] }) (t.busy_false_iff.2 hengine) v

end Sys2Proof.Machine
end
